-- ==== Sys2Proof/Word.lean ====
section
/-! DEFINITION. The widths of the block's data (spec/00_scope.md R15): bytes, 16-bit lengths and
checksums, 32-bit addresses, counters and times. All values are unsigned and wrap. -/

namespace Sys2Proof

/-- A byte, `0..255` (00_scope.md section 6). -/
abbrev Byte := BitVec 8

/-- A length, index or checksum of the frame codec (R15 (a), (b)). -/
abbrev Word16 := BitVec 16

/-- A flash address, sector counter or time in milliseconds (R15 (c), (e); R54). -/
abbrev Word32 := BitVec 32

end Sys2Proof
end

