-- ==== Sys2Proof/Config.lean ====
section
/-! DEFINITION. The parameters of spec/00_scope.md section 4, which are fixed before reset (R13, R350),
what makes a configuration legal (R3 to R12), the spec's reference configuration REF4
(95_test_vectors.md section 1), and the free values: constants with no body that stand for what
the spec leaves to an implementation or to the environment. -/

namespace Sys2Proof

/-- `BOOT_POLICY` (R13). -/
inductive BootPolicy where
  | timer
  | strap
deriving DecidableEq, Repr

/-- `STRAP_ABSENT_POLICY` (R211), used only with the strap variant. -/
inductive StrapAbsentPolicy where
  | stay
  | bootIfValid
deriving DecidableEq, Repr

/-- Which `ck_update` the block was built with (R6). The algorithm is OPEN: `ccittFalse` is the one
of REF (95_test_vectors.md section 1), `free` an unconstrained function. -/
inductive ChecksumFn where
  | ccittFalse
  | free (id : Nat)
deriving DecidableEq, Repr

/-- Which `AEAD_OPEN` the block was built with (R191). The primitive is OPEN: `toy` is AEAD_TOY
of 95_test_vectors.md section 1, `free` an unconstrained function. -/
inductive AeadFn where
  | toy
  | free (id : Nat)
deriving DecidableEq, Repr

/-- Which `FW_CHECK` the block was built with (R11). The check is OPEN: `toy` is FW_CHECK_TOY of
95_test_vectors.md section 1, `free` an unconstrained function of the flash contents. -/
inductive FwCheckFn where
  | toy
  | free (id : Nat)
deriving DecidableEq, Repr

/-- What one `flash_write` call does and answers (R57). `ok` stores the bytes. After `fail` any of
the addressed bytes may have changed: entry `i` of `left` is the byte now at offset `i`, or `none`
where nothing changed (an entry past the end of the list also changes nothing). -/
inductive WriteAnswer where
  | ok
  | fail (left : List (Option Byte))
deriving DecidableEq, Repr, Inhabited

/-- The parameters of 00_scope.md section 4, under the spec's names. -/
structure Config where
  /-- `START` (R3) -/
  start : Byte
  /-- `ESC` (R3) -/
  esc : Byte
  /-- `CAP` (R4), the capacity of the exchange buffer -/
  cap : Nat
  /-- `CRC_ENABLE` (R5) -/
  crcEnable : Bool
  /-- `CK_SEED` (R6) -/
  ckSeed : Word16
  /-- which `ck_update` (R6) -/
  checksumFn : ChecksumFn
  /-- `P` (R7), the plaintext size -/
  p : Nat
  /-- `KEY` (R191) -/
  key : List Byte
  /-- which `AEAD_OPEN` (R191) -/
  aeadFn : AeadFn
  /-- `SIGNATURE` (R10) -/
  signature : List Byte
  /-- `IDENT` (00_scope.md section 4) -/
  ident : List Byte
  /-- `FW_TOTAL_SIZE` (00_scope.md section 4) -/
  fwTotalSize : Word32
  /-- `APP_BASE` (R11) -/
  appBase : Nat
  /-- `APP_END` (R11) -/
  appEnd : Nat
  /-- `APP_SECTORS` (R11) -/
  appSectors : Nat
  /-- `HAS_USER_DATA` (R13) -/
  hasUserData : Bool
  /-- `UD_SECTORS` (R11) -/
  udSectors : Nat
  /-- which `FW_CHECK` (R11) -/
  fwCheckFn : FwCheckFn
  /-- `T_RESP_DELAY` (R12) -/
  tRespDelay : Word32
  /-- `T_SETTLE` (R12) -/
  tSettle : Word32
  /-- `T_BOOT` (R12) -/
  tBoot : Word32
  /-- `BOOT_POLICY` (R13) -/
  bootPolicy : BootPolicy
  /-- `STRAP_ABSENT_POLICY` (R211) -/
  strapAbsentPolicy : StrapAbsentPolicy
  /-- `DEBUG_SKIP_CHECK` (R13, R322) -/
  debugSkipCheck : Bool
  /-- `PROGRESS_DONE_BIAS` (R223), 0 or 1 -/
  progressDoneBias : Nat
deriving DecidableEq, Repr

/-- `CHUNK_SIZE = 45 + P` (R8). -/
def Config.chunkSize (c : Config) : Nat := 45 + c.p

/-- The constraints of 00_scope.md section 4 (R3, R4, R7, R9, R10, R11; 93_implementation_defined.md
U4). A configuration that breaks one is refused by `step`. -/
abbrev Config.WF (c : Config) : Prop :=
  c.start ≠ c.esc ∧ (1 ≤ c.cap ∧ c.cap ≤ 65535) ∧ (1 ≤ c.p ∧ c.p ≤ 255) ∧
  46 + c.p ≤ c.cap ∧ 10 ≤ c.cap ∧
  c.signature.length = 8 ∧ c.ident.length = c.p ∧
  (c.appBase < c.appEnd ∧ c.appEnd ≤ 4294967296) ∧
  (1 ≤ c.appSectors ∧ c.appSectors < 4294967296) ∧
  (c.hasUserData = true → 1 ≤ c.udSectors ∧ c.udSectors < 4294967296) ∧
  c.progressDoneBias ≤ 1

/-- REF4, the one configuration the spec gives every parameter of (95_test_vectors.md section 1). Its
values are the spec's own and no claim about PolyBoot (92_eei_decisions.md D44). AEAD_TOY ignores
`KEY`, for which REF4 gives no value. -/
def Config.ref4 : Config where
  start := 0x7E
  esc := 0x7D
  cap := 256
  crcEnable := true
  ckSeed := 0xFFFF
  checksumFn := .ccittFalse
  p := 4
  key := []
  aeadFn := .toy
  signature := [0x41, 0x43, 0x54, 0x49, 0x56, 0x41, 0x54, 0x45]
  ident := [0x50, 0x42, 0x30, 0x31]
  fwTotalSize := 8
  appBase := 0x08004000
  appEnd := 0x08010000
  appSectors := 3
  hasUserData := true
  udSectors := 1
  fwCheckFn := .toy
  tRespDelay := 5
  tSettle := 100
  tBoot := 3000
  bootPolicy := .timer
  strapAbsentPolicy := .stay
  debugSkipCheck := false
  progressDoneBias := 0

/-- FREE VALUE: the `ck_update` a `ChecksumFn.free` names (R6 states nothing but totality). -/
opaque Config.freeChecksum : Nat → Word16 → Byte → Word16

/-- FREE VALUE: the `AEAD_OPEN` an `AeadFn.free` names, from key, nonce, associated data,
ciphertext and tag to failure or the plaintext byte at each index (R191). -/
opaque Config.freeAead :
  Nat → List Byte → List Byte → List Byte → List Byte → List Byte → Option (Nat → Byte)

/-- FREE VALUE: the `FW_CHECK` a `FwCheckFn.free` names (R11). -/
opaque Config.freeFwCheck : Nat → List Host.Cell → Bool

/-- FREE VALUE: the `n`-th unscripted answer, if it is one of `serial_get` (R40, U9). -/
opaque Config.freeSerialGet : Nat → Option Byte

/-- FREE VALUE: the `n`-th unscripted answer, if it is one of `serial_put` (R40, U9). -/
opaque Config.freeSink : Nat → Bool

/-- FREE VALUE: the `n`-th unscripted answer, if it is one of `serial_tx_empty` (R40, U9). -/
opaque Config.freeTxEmpty : Nat → Bool

/-- FREE VALUE: the `n`-th unscripted answer, if it is one of `flash_sector_erased` (R58, U9). -/
opaque Config.freeSectorErased : Nat → Bool

/-- FREE VALUE: the `n`-th unscripted effect, if it is one of `flash_sector_erase` (R58, U8). -/
opaque Config.freeEraseEffect : Nat → List Host.Cell

/-- FREE VALUE: the `n`-th unscripted outcome, if it is one of `flash_write` (R57, U8, U9). -/
opaque Config.freeWriteAnswer : Nat → WriteAnswer

/-- FREE VALUE: the `n`-th unscripted answer, if it is one of `clock_ms` (R40, R341, U9). -/
opaque Config.freeClock : Nat → Word32

/-- FREE VALUE: the `n`-th unscripted answer, if it is one of `strap_asserted` (R40, U9). -/
opaque Config.freeStrap : Nat → Bool

end Sys2Proof
end

