-- ==== Sys2Proof/Syntax.lean ====
section
/-! DEFINITION. The instructions: one constructor for each of the 25 rows of
spec/opcode_table.json. The block executes no program; its "instructions" are the host commands,
the packets it sends, the symbols of the wire and the operations of 00_scope.md R14. -/

namespace Sys2Proof

/-- The two flash regions that are erased by sector number (R11, R40). -/
inductive Region where
  | app
  | ud
deriving DecidableEq, Repr

/-- One constructor per row of the opcode table. -/
inductive Instr where
  /-- `ACTIVATE` 0x70 (R261); `args` are the packet's bytes after the opcode. -/
  | cmdActivate (args : List Byte)
  /-- `BEGIN` 0x71 (R262) -/
  | cmdBegin (args : List Byte)
  /-- `SEND` 0x72 (R263) -/
  | cmdSend (args : List Byte)
  /-- `WRITE` 0x73 (R264); bytes after the opcode are ignored (R105). -/
  | cmdWrite (args : List Byte)
  /-- `END` 0x74 (R265) -/
  | cmdEnd (args : List Byte)
  /-- `CHECK_CRC` 0x75 (R266) -/
  | cmdCheckCrc (args : List Byte)
  /-- `APP_RUN` 0x76 (R267) -/
  | cmdAppRun (args : List Byte)
  /-- `ERASE_USER_DATA` 0x78 (R268) -/
  | cmdEraseUserData (args : List Byte)
  /-- `RESERVED_77`, which stands for every unassigned opcode `op` (R110) -/
  | cmdReserved (op : Byte) (args : List Byte)
  /-- `RSP_OK` (R106): `[op, 0x00]` -/
  | rspOk (op : Byte)
  /-- `RSP_FAIL` (R106): `[op, 0x01]` -/
  | rspFail (op : Byte)
  /-- `RSP_ERASE_FAIL` (R107): `[op, 0x01] ‖ le32(sector)`, `op` by the region -/
  | rspEraseFail (region : Region) (sector : Word32)
  /-- `RSP_PRECOND` (R106): `[op, 0x02]` -/
  | rspPrecond (op : Byte)
  /-- `EVT_PROGRESS` (R108): `[op, 0xFF] ‖ le32(total) ‖ le32(done)`, `op` by the region -/
  | evtProgress (region : Region) (total done : Word32)
  /-- `FRAME` (R80) with its payload -/
  | wireFrame (payload : List Byte)
  /-- `START` (R86), the raw marker -/
  | wireStart
  /-- `ESC` (R87) with the byte that follows it -/
  | wireEsc (literal : Byte)
  /-- `reset` (R340) -/
  | opReset
  /-- `rx_begin` (R120) -/
  | opRxBegin
  /-- `rx_step` (R121 to R133) with its operand, a byte or NONE -/
  | opRxStep (input : Option Byte)
  /-- `tx_begin` (R161) with the packet length -/
  | opTxBegin (n : Nat)
  /-- `tx_step` (R163 to R169) -/
  | opTxStep
  /-- `ver_identity` (R196) -/
  | opVerIdentity
  /-- `ver_firmware` (R195) -/
  | opVerFirmware
  /-- `ctl_poll` (R210) -/
  | opCtlPoll
deriving DecidableEq, Repr

/-- The column "format" of the opcode table. -/
inductive Format where
  | cmd
  | rsp
  | wire
  | op
deriving DecidableEq, Repr

/-- The format of each row. -/
def Instr.format : Instr → Format
  | .cmdActivate _ => .cmd
  | .cmdBegin _ => .cmd
  | .cmdSend _ => .cmd
  | .cmdWrite _ => .cmd
  | .cmdEnd _ => .cmd
  | .cmdCheckCrc _ => .cmd
  | .cmdAppRun _ => .cmd
  | .cmdEraseUserData _ => .cmd
  | .cmdReserved _ _ => .cmd
  | .rspOk _ => .rsp
  | .rspFail _ => .rsp
  | .rspEraseFail _ _ => .rsp
  | .rspPrecond _ => .rsp
  | .evtProgress _ _ _ => .rsp
  | .wireFrame _ => .wire
  | .wireStart => .wire
  | .wireEsc _ => .wire
  | .opReset => .op
  | .opRxBegin => .op
  | .opRxStep _ => .op
  | .opTxBegin _ => .op
  | .opTxStep => .op
  | .opVerIdentity => .op
  | .opVerFirmware => .op
  | .opCtlPoll => .op

end Sys2Proof
end

