-- ==== Sys2Proof/WellFormed.lean ====
section
/-! DEFINITION. Which instructions are well formed under a configuration: the operand bounds the
spec states. Encoding is meant for well-formed instructions. -/

namespace Sys2Proof

/-- The eight assigned opcodes (R95). -/
def assignedOpcodes : List Byte := [0x70, 0x71, 0x72, 0x73, 0x74, 0x75, 0x76, 0x78]

/-- Whether `op` is an opcode of R95's table under `c`: `0x78` is assigned only when
`HAS_USER_DATA` (R95, R110). -/
def Config.assigned (c : Config) (op : Byte) : Bool :=
  assignedOpcodes.contains op && (op != 0x78 || c.hasUserData)

/-- The sector count of a region (R11). -/
def Config.sectors (c : Config) : Region → Nat
  | .app => c.appSectors
  | .ud => c.udSectors

/-- Whether the block has the region: the user-data region is optional (R13). -/
def Config.hasRegion (c : Config) : Region → Bool
  | .app => true
  | .ud => c.hasUserData

/-- Whether a packet with `args` after its opcode fits the exchange buffer (R4). -/
def Config.fits (c : Config) (args : List Byte) : Bool := args.length + 1 ≤ c.cap

/-- The operand bounds of each instruction. -/
def Instr.wf (c : Config) : Instr → Bool
  | .cmdActivate args => c.fits args
  | .cmdBegin args => c.fits args
  | .cmdSend args => c.fits args
  | .cmdWrite args => c.fits args
  | .cmdEnd args => c.fits args
  | .cmdCheckCrc args => c.fits args
  | .cmdAppRun args => c.fits args
  | .cmdEraseUserData args => c.fits args && c.hasUserData
  | .cmdReserved op args => c.fits args && !c.assigned op
  | .rspOk op => c.assigned op
  | .rspFail op => c.assigned op
  | .rspEraseFail r k => c.hasRegion r && k.toNat < c.sectors r
  | .rspPrecond op => c.assigned op
  | .evtProgress r total done =>
      c.hasRegion r && total.toNat == c.sectors r && done.toNat ≤ c.sectors r
  | .wireFrame payload => payload.length ≤ c.cap
  | .wireStart => true
  | .wireEsc l => l == c.start || l == c.esc
  | .opReset => true
  | .opRxBegin => true
  | .opRxStep _ => true
  | .opTxBegin n => n ≤ c.cap
  | .opTxStep => true
  | .opVerIdentity => true
  | .opVerFirmware => true
  | .opCtlPoll => true

end Sys2Proof
end

