-- ==== Sys2Proof/Decode.lean ====
section
/-! DEFINITION. Byte order (20_memory.md R59), the checksum (00_scope.md R6), the escape code and
the wire frame (30_encoding.md R80 to R90), the packets (R94 to R108): the decoders, total on any
bytes and rejecting by name, and after them the encoder. -/

namespace Sys2Proof

/-! ### Byte order (R59, R82, R101) -/

/-- `w[7:0]`. -/
def lo8 (w : Word16) : Byte := w.extractLsb' 0 8

/-- `w[15:8]`. -/
def hi8 (w : Word16) : Byte := w.extractLsb' 8 8

/-- `zext_16(b)`. -/
def zext16 (b : Byte) : Word16 := b.setWidth 16

/-- `w[15:8] <- b`, the low byte kept. -/
def setHi8 (w : Word16) (b : Byte) : Word16 := b ++ lo8 w

/-- `le16(w)`: the low byte first. -/
def le16 (w : Word16) : List Byte := [lo8 w, hi8 w]

/-- `un_le16`: `first + 256 * second` (R82). -/
def unLe16 (first second : Byte) : Word16 := second ++ first

/-- `le32(w)`: the lowest byte first. -/
def le32 (w : Word32) : List Byte :=
  [w.extractLsb' 0 8, w.extractLsb' 8 8, w.extractLsb' 16 8, w.extractLsb' 24 8]

/-- `un_le32` of four bytes (R101). -/
def unLe32 (b0 b1 b2 b3 : Byte) : Word32 := b3 ++ (b2 ++ (b1 ++ b0))

/-! ### The checksum (R6, R84) -/

/-- One of the eight rounds of the REF checksum (95_test_vectors.md section 1). -/
def ccittRound (w : Word16) : Word16 :=
  if w.msb then (w <<< 1) ^^^ 0x1021 else w <<< 1

/-- `ck_update` of REF (95_test_vectors.md section 1). -/
def ccittUpdate (w : Word16) (b : Byte) : Word16 :=
  let w := w ^^^ (zext16 b <<< 8)
  ccittRound (ccittRound (ccittRound (ccittRound
    (ccittRound (ccittRound (ccittRound (ccittRound w)))))))

/-- `ck_update` (R6). -/
def Config.ckUpdate (c : Config) (w : Word16) (b : Byte) : Word16 :=
  match c.checksumFn with
  | .ccittFalse => ccittUpdate w b
  | .free id => Config.freeChecksum id w b

/-- `CK(bytes)`, the left fold of `ck_update` from `CK_SEED` (R6). -/
def Config.checksum (c : Config) (bytes : List Byte) : Word16 :=
  bytes.foldl c.ckUpdate c.ckSeed

/-! ### The escape code (R86 to R89) -/

/-- Whether a byte value is one of the two reserved on the wire (R86). -/
def Config.reserved (c : Config) (b : Byte) : Bool := b == c.start || b == c.esc

/-- The wire bytes of one byte of the frame's body (R87). -/
def Config.escapeByte (c : Config) (b : Byte) : List Byte :=
  if c.reserved b then [c.esc, b] else [b]

/-- The wire bytes of a frame's body (R87). -/
def Config.escape (c : Config) (bytes : List Byte) : List Byte :=
  bytes.flatMap c.escapeByte

/-- `le16(n) ‖ payload` with `n = |payload|`, the bytes the checksum covers (R84). -/
def framedBytes (payload : List Byte) : List Byte :=
  le16 (BitVec.ofNat 16 payload.length) ++ payload

/-- `BODY` of R80: length, payload, and the checksum when `CRC_ENABLE`. -/
def Config.frameBody (c : Config) (payload : List Byte) : List Byte :=
  framedBytes payload ++ (if c.crcEnable then le16 (c.checksum (framedBytes payload)) else [])

/-- `FRAME(payload)` (R80, R87, R115): the raw marker, then the escaped body. -/
def Config.frameBytes (c : Config) (payload : List Byte) : List Byte :=
  c.start :: c.escape (c.frameBody payload)

/-- Why bytes are no instruction. -/
inductive DecodeError where
  /-- a packet of no bytes is no command (R112) -/
  | emptyPacket
  /-- no response has this length (R106, R107, R108) -/
  | badResponseLength
  /-- a status byte other than the four (R97) -/
  | badStatus
  /-- an erase report for an opcode other than `0x71`, `0x78` (R107, R108) -/
  | badEraseOpcode
  /-- a wire symbol or frame that begins with neither `START` nor `ESC` -/
  | noMarker
  /-- `ESC` before a byte that is neither literal (R89) -/
  | invalidEscape
  /-- `ESC` with no byte after it -/
  | danglingEscape
  /-- a raw `START` inside a frame (R113) -/
  | unexpectedStart
  /-- a frame that ends before its length or payload does -/
  | truncated
  /-- a length above `CAP` (R113) -/
  | oversize
  /-- a checksum that does not match, is absent, or is longer than two bytes (R113) -/
  | checksum
  /-- operations are not encoded (opcode table, format OP) -/
  | notEncoded
deriving DecidableEq, Repr

/-- Undo the escape code (R88); `pending` is whether the byte before was an `ESC` prefix. -/
def Config.unescape (c : Config) (pending : Bool) : List Byte → Except DecodeError (List Byte)
  | [] => if pending then .error .danglingEscape else .ok []
  | b :: rest =>
    if pending then
      if c.reserved b then
        match c.unescape false rest with
        | .ok out => .ok (b :: out)
        | .error e => .error e
      else .error .invalidEscape
    else if b = c.esc then c.unescape true rest
    else if b = c.start then .error .unexpectedStart
    else
      match c.unescape false rest with
      | .ok out => .ok (b :: out)
      | .error e => .error e

/-- The payload of an unescaped frame body (R80, R81, R84, R113). -/
def Config.parseBody (c : Config) : List Byte → Except DecodeError (List Byte)
  | l0 :: l1 :: rest =>
    let n := (unLe16 l0 l1).toNat
    if c.cap < n then .error .oversize
    else if rest.length < n then .error .truncated
    else if rest.drop n = (if c.crcEnable then le16 (c.checksum (l0 :: l1 :: rest.take n)) else [])
    then .ok (rest.take n)
    else .error .checksum
  | [_] => .error .truncated
  | [] => .error .truncated

/-! ### Decoders -/

/-- The command a received packet stands for (R94, R95, R110, R112). -/
def decodeCommand (c : Config) : List Byte → Except DecodeError Instr
  | [] => .error .emptyPacket
  | op :: args => .ok (
      if op = 0x70 then .cmdActivate args
      else if op = 0x71 then .cmdBegin args
      else if op = 0x72 then .cmdSend args
      else if op = 0x73 then .cmdWrite args
      else if op = 0x74 then .cmdEnd args
      else if op = 0x75 then .cmdCheckCrc args
      else if op = 0x76 then .cmdAppRun args
      else if op = 0x78 ∧ c.hasUserData = true then .cmdEraseUserData args
      else .cmdReserved op args)

/-- The region an erase report's opcode names (R107, R108). -/
def regionOfOpcode (op : Byte) : Option Region :=
  if op = 0x71 then some .app else if op = 0x78 then some .ud else none

/-- The opcode an erase report carries for a region (R107, R108). -/
def opcodeOfRegion : Region → Byte
  | .app => 0x71
  | .ud => 0x78

/-- The response a packet sent by the block stands for (R96, R97, R106 to R108). -/
def decodeResponse : List Byte → Except DecodeError Instr
  | [op, st] =>
    if st = 0x00 then .ok (.rspOk op)
    else if st = 0x01 then .ok (.rspFail op)
    else if st = 0x02 then .ok (.rspPrecond op)
    else .error .badStatus
  | [op, st, k0, k1, k2, k3] =>
    if st = 0x01 then
      match regionOfOpcode op with
      | some r => .ok (.rspEraseFail r (unLe32 k0 k1 k2 k3))
      | none => .error .badEraseOpcode
    else .error .badStatus
  | [op, st, t0, t1, t2, t3, d0, d1, d2, d3] =>
    if st = 0xFF then
      match regionOfOpcode op with
      | some r => .ok (.evtProgress r (unLe32 t0 t1 t2 t3) (unLe32 d0 d1 d2 d3))
      | none => .error .badEraseOpcode
    else .error .badStatus
  | _ => .error .badResponseLength

/-- The symbol or frame that wire bytes stand for: `START` alone, `ESC` and one literal, or a whole
frame (R80, R86 to R89). -/
def decodeWire (c : Config) : List Byte → Except DecodeError Instr
  | [] => .error .truncated
  | b :: rest =>
    if b = c.start then
      match rest with
      | [] => .ok .wireStart
      | _ :: _ =>
        match c.unescape false rest with
        | .error e => .error e
        | .ok body =>
          match c.parseBody body with
          | .error e => .error e
          | .ok payload => .ok (.wireFrame payload)
    else if b = c.esc then
      match rest with
      | [l] => if c.reserved l then .ok (.wireEsc l) else .error .invalidEscape
      | [] => .error .danglingEscape
      | _ :: _ :: _ => .error .noMarker
    else .error .noMarker

/-- The instruction that bytes of a format stand for. -/
def decode (c : Config) : Format → List Byte → Except DecodeError Instr
  | .cmd, bytes => decodeCommand c bytes
  | .rsp, bytes => decodeResponse bytes
  | .wire, bytes => decodeWire c bytes
  | .op, _ => .error .notEncoded

/-! ### The encoder -/

/-- The bytes of an instruction in its format: a packet (R94 to R108), wire bytes (R80, R86, R87), or
nothing for an operation, which is "not encoded on the wire" (opcode table). -/
def encode (c : Config) : Instr → List Byte
  | .cmdActivate args => 0x70 :: args
  | .cmdBegin args => 0x71 :: args
  | .cmdSend args => 0x72 :: args
  | .cmdWrite args => 0x73 :: args
  | .cmdEnd args => 0x74 :: args
  | .cmdCheckCrc args => 0x75 :: args
  | .cmdAppRun args => 0x76 :: args
  | .cmdEraseUserData args => 0x78 :: args
  | .cmdReserved op args => op :: args
  | .rspOk op => [op, 0x00]
  | .rspFail op => [op, 0x01]
  | .rspEraseFail r k => [opcodeOfRegion r, 0x01] ++ le32 k
  | .rspPrecond op => [op, 0x02]
  | .evtProgress r total done => [opcodeOfRegion r, 0xFF] ++ le32 total ++ le32 done
  | .wireFrame payload => c.frameBytes payload
  | .wireStart => [c.start]
  | .wireEsc l => [c.esc, l]
  | .opReset => []
  | .opRxBegin => []
  | .opRxStep _ => []
  | .opTxBegin _ => []
  | .opTxStep => []
  | .opVerIdentity => []
  | .opVerFirmware => []
  | .opCtlPoll => []

/-! ### Table words

A row of format CMD gives the bits of `payload[0]`, a row of format RSP those of `payload[1]`, the
status byte, the rows `START` and `ESC` those of the symbol on the wire. The table's opcodes and its
status values are disjoint, so one byte tells their rows, but for status `0x01`, which two rows share
and only the packet's length tells apart: it is read as `RSP_FAIL` (log 16). `START` and `ESC` may be
any two distinct bytes (00_scope.md R3), so one of them may equal a status or an opcode of the table:
the order in which `Config.tableInstr` tries the readings then decides (DESIGN CHOICE, log 16). -/

/-- The bytes of a table word: bit 0 is the least significant bit of the first byte. -/
def wordBytes (nbits w : Nat) : List Byte :=
  (List.range ((nbits + 7) / 8)).map fun i => BitVec.ofNat 8 (w >>> (8 * i))

/-- How many bytes a command packet has when its operand is complete (R102, R104, R105). -/
def Config.commandLength (c : Config) (op : Byte) : Nat :=
  if op = 0x70 then 9
  else if op = 0x71 ∨ op = 0x72 then 1 + c.chunkSize
  else 1

/-- `bytes` with zero bytes after them up to length `n`. -/
def padTo (n : Nat) (bytes : List Byte) : List Byte :=
  bytes ++ List.replicate (n - bytes.length) 0

/-- The response a table word's status byte stands for, every other byte zero: opcode, sector and
counters are operands to which the table gives no bits. -/
def responseOfStatus (st : Byte) : Option Instr :=
  if st = 0x00 then some (.rspOk 0)
  else if st = 0x01 then some (.rspFail 0)
  else if st = 0x02 then some (.rspPrecond 0)
  else if st = 0xFF then some (.evtProgress .app 0 0)
  else none

/-- The instruction a table word stands for under `c`: a status byte, a symbol of the wire, or the
command whose opcode it is, its operand bytes zero. The readings are tried in this order and the first
that fits is taken, so a `START` equal to an opcode of the table is read as the marker, and one equal
to a status as the response: DESIGN CHOICE, log 16; R3 leaves both values open and the table gives no
order. Under REF4 no two readings of a row's word meet. -/
def Config.tableInstr (c : Config) (nbits w : Nat) : Option Instr :=
  match wordBytes nbits w with
  | [] => none
  | b :: rest =>
    match responseOfStatus b with
    | some i => some i
    | none =>
      match decodeWire c (b :: rest) with
      | .ok i => some i
      | .error _ =>
        match decodeCommand c (padTo (c.commandLength b) (b :: rest)) with
        | .ok i => some i
        | .error _ => none

/-- The instruction the decoder reads from a table word, under the configuration of the machine
after reset. -/
def decodeTableWord (nbits w : Nat) : Option Instr := Config.ref4.tableInstr nbits w

end Sys2Proof
end

