-- ==== Sys2Proof/Machine/State.lean ====
section
/-! DEFINITION. The state of the machine as plain data (spec/10_state.md, 20_memory.md), the reasons
it can stop, and the machine right after reset. Fields that are the model's own and not the
spec's say so. -/

namespace Sys2Proof.Machine

/-- `rx_state` (R20). -/
inductive RxPhase where
  | waitStart
  | lenLo
  | lenHi
  | body
  | crcLo
  | crcHi
deriving DecidableEq, Repr

/-- `tx_state` (R26). -/
inductive TxPhase where
  | start
  | lenLo
  | lenHi
  | body
  | crcLo
  | crcHi
  | done
deriving DecidableEq, Repr

/-- `ctl_state` (R31). -/
inductive CtlPhase where
  | init
  | main
  | rxWait
  | begin
  | flashClear
  | sendEventFlashClear
  | sendEventFlashClear1
  | userDataClear
  | sendEventUserDataClear
  | sendEventUserDataClear1
  | appRun
  | appRun1
  | appRun2
  | sendResp
  | sendResp1
  | handoff
deriving DecidableEq, Repr

/-- `ctl_sub` (R32). -/
inductive CtlSub where
  | enter
  | poll
deriving DecidableEq, Repr

/-- What `rx_step` returns (R133). -/
inductive RxResult where
  | notReceived
  | received
  | broken
deriving DecidableEq, Repr

/-- What `tx_step` returns (R160). -/
inductive TxResult where
  | notTransmitted
  | transmitted
deriving DecidableEq, Repr

/-- What `ver_identity` and `ver_firmware` return (R195, R196). -/
inductive VerResult where
  | pass
  | fail
deriving DecidableEq, Repr

/-- The value an operation returned, of whichever kind. -/
inductive OpResult where
  | none
  | rx (r : RxResult)
  | tx (r : TxResult)
  | ver (r : VerResult)
deriving DecidableEq, Repr

/-- The error classes and causes of R300. A sector's number goes with an erase error. -/
inductive ErrorClass where
  | framingUnexpectedStart
  | framingInvalidEscape
  | framingOversize
  | framingChecksum
  | authentication
  | precondition
  | flashErase (sector : Nat)
  | flashWrite
deriving DecidableEq, Repr

/-- One port call with its answer (R40), or one error raised (R300). -/
inductive Event where
  | serialGet (answer : Option Byte)
  | serialPut (b : Byte) (accepted : Bool)
  | serialTxEmpty (answer : Bool)
  | sectorErased (r : Region) (k : Nat) (answer : Bool)
  | sectorErase (r : Region) (k : Nat)
  | flashWrite (addr : Word32) (bytes : List Byte) (ok : Bool)
  | flashRead (addr : Word32) (bytes : List Byte)
  | fwCheck (answer : Bool)
  | clockMs (answer : Word32)
  | strapAsserted (answer : Bool)
  | handoff
  | raised (e : ErrorClass)
deriving DecidableEq, Repr

/-- A memory: bytes by address, addresses strictly rising. -/
abbrev Memory := List Host.Cell

/-- The receiver's registers (R20 to R25). -/
structure RxRegs where
  /-- `rx_state` (R20) -/
  state : RxPhase
  /-- `rx_esc` (R21) -/
  esc : Bool
  /-- `rx_len` (R22) -/
  len : Word16
  /-- `rx_cnt` (R23) -/
  cnt : Word16
  /-- `rx_ck` (R24) -/
  ck : Word16
  /-- `rx_ckrx` (R25) -/
  ckrx : Word16
deriving DecidableEq, Repr

/-- The transmitter's registers (R26 to R30). -/
structure TxRegs where
  /-- `tx_state` (R26) -/
  state : TxPhase
  /-- `tx_esc_sent` (R27) -/
  escSent : Bool
  /-- `tx_len` (R28) -/
  len : Word16
  /-- `tx_idx` (R29) -/
  idx : Word16
  /-- `tx_ck` (R30) -/
  ck : Word16
deriving DecidableEq, Repr

/-- The control FSM's registers, the session state (R31 to R38). -/
structure CtlRegs where
  /-- `ctl_state` (R31) -/
  state : CtlPhase
  /-- `ctl_sub` (R32) -/
  sub : CtlSub
  /-- `activated` (R33), the privilege level (R310) -/
  activated : Bool
  /-- `firmware_valid` (R34) -/
  firmwareValid : Bool
  /-- `update_in_progress` (R35) -/
  updateInProgress : Bool
  /-- `staged_valid` (R36) -/
  stagedValid : Bool
  /-- `staged_addr` (R36) -/
  stagedAddr : Word32
  /-- `staged_len` (R36) -/
  stagedLen : Byte
  /-- `erase_idx` (R37) -/
  eraseIdx : Word32
  /-- `erase_op` (R37) -/
  eraseOp : Byte
  /-- `t_resp` (R38) -/
  tResp : Word32
  /-- `t_boot` (R38) -/
  tBoot : Word32
deriving DecidableEq, Repr

/-- What lies outside the block and is seen only through ports (R41): the flash contents, the
transmit stream, and the answers the environment will give. A list holds the forthcoming answers of
one port, the next one first; a call that finds the list empty is answered by a free value. -/
structure Env where
  /-- answers of `serial_get`: a byte, or `none` for NONE -/
  serialIn : List (Option Byte)
  /-- answers of `serial_put`: `true` for ACCEPTED -/
  sinkReady : List Bool
  /-- answers of `serial_tx_empty` -/
  txEmpty : List Bool
  /-- answers of `flash_sector_erased` -/
  sectorErased : List Bool
  /-- what each `flash_sector_erase` leaves in flash: the cells it changes -/
  eraseEffect : List (List Host.Cell)
  /-- outcomes of `flash_write` -/
  writeAnswer : List WriteAnswer
  /-- answers of `clock_ms` -/
  clock : List Word32
  /-- answers of `strap_asserted` -/
  strap : List Bool
  /-- how many calls free values have answered (the model's own) -/
  drawn : Nat
  /-- flash contents (R54, R55) -/
  flash : Memory
  /-- the sectors that `flash_sector_erased` has answered true for, with no `flash_write` into their
  region since: they stay erased (20_memory.md R69) -/
  confirmed : List (Region × Nat)
  /-- bytes accepted by `serial_put`, the first one first (20_memory.md section 1) -/
  serialOut : List Byte
deriving DecidableEq, Repr

/-- The machine's state. -/
structure State where
  /-- the receiver -/
  rx : RxRegs
  /-- the transmitter -/
  tx : TxRegs
  /-- the control FSM -/
  ctl : CtlRegs
  /-- the exchange buffer (R50); an unlisted index has no value -/
  buf : Memory
  /-- the plaintext buffer (R52); an unlisted index has no value -/
  plain : Memory
  /-- what lies outside the block (R41) -/
  env : Env
  /-- the configuration the block was built with; no operation writes it (the model's own, R39) -/
  cfg : Config
  /-- operations the caller has lined up, the next one first (the model's own, R14) -/
  caller : List Instr
  /-- what the last operation that returns a result returned (the model's own, R39) -/
  result : OpResult
  /-- port calls made and errors raised since reset, the first one first (the model's own) -/
  trace : List Event
deriving DecidableEq, Repr

/-- Why the machine stops. Every one is SAFE: the model stops where the spec gives the access no
meaning, and no poll of a machine started from reset gets there. -/
inductive Fault where
  /-- a read of a byte of `buf` that nothing has written (R43): `tx_step`, the verifier operations and
  dispatch. Safe. -/
  | bufUnwritten (index : Nat)
  /-- an index of `buf` at or above `CAP` (R50): the same, and `rx_step` in `BODY`. Safe. -/
  | bufIndex (index : Nat)
  /-- a read of a byte of `plain` that nothing has written (R43): `WRITE`. Safe. -/
  | plainUnwritten (index : Nat)
  /-- an index of `plain` at or above `P` (R52): `WRITE`. Safe. -/
  | plainIndex (index : Nat)
  /-- a flash access that runs past the 32-bit address space (R54): `WRITE`. Safe. -/
  | flashAddress (addr : Nat)
  /-- a sector number outside its region (R348): the erase states. Safe. -/
  | sectorRange (region : Region) (k : Nat)
deriving DecidableEq, Repr

/-- Why the machine gives an instruction no meaning. -/
inductive Refusal where
  /-- an instruction that has no meaning yet: none. Safe. -/
  | notModelled (mnemonic : String)
  /-- `tx_begin(n)` with `n > CAP`: "the model refuses it" (R161, U5). Safe. -/
  | packetTooLong (n : Nat)
  /-- `tx_begin(n)` with a byte of `buf[0 .. n-1]` that nothing has written: "a standalone codec model
  must require the caller to have written" it, and such a read is "excluded by refusal" (R43). Safe. -/
  | packetUnwritten (n : Nat)
  /-- `step` under a configuration that breaks 00_scope.md section 4 (R9, U4). Safe. -/
  | badConfiguration
deriving DecidableEq, Repr

/-- The outcomes of this machine. -/
abbrev Outcome := Host.Outcome State Fault Refusal

/-- The receiver after reset (R42). -/
def RxRegs.reset : RxRegs :=
  { state := .waitStart, esc := false, len := 0, cnt := 0, ck := 0, ckrx := 0 }

/-- The transmitter after reset (R42). -/
def TxRegs.reset : TxRegs :=
  { state := .done, escSent := false, len := 0, idx := 0, ck := 0 }

/-- The control FSM after reset (R42). -/
def CtlRegs.reset : CtlRegs :=
  { state := .init, sub := .enter, activated := false, firmwareValid := false,
    updateInProgress := false, stagedValid := false, stagedAddr := 0, stagedLen := 0,
    eraseIdx := 0, eraseOp := 0, tResp := 0, tBoot := 0 }

/-- An environment of which nothing is known beforehand: every answer is a free value. -/
def Env.unknown : Env :=
  { serialIn := [], sinkReady := [], txEmpty := [], sectorErased := [], eraseEffect := [],
    writeAnswer := [], clock := [], strap := [], drawn := 0, flash := [],
    confirmed := [], serialOut := [] }

/-- The block after reset (R42, R340), built with `c`, in the surroundings `env` (R341), the caller
having lined up `caller`. -/
def State.resetWith (c : Config) (env : Env) (caller : List Instr) : State :=
  { rx := .reset, tx := .reset, ctl := .reset, buf := [], plain := [], env := env, cfg := c,
    caller := caller, result := .none, trace := [] }

/-- The machine right after reset: REF4, an unknown environment, nothing lined up. -/
def State.reset : State := State.resetWith Config.ref4 Env.unknown []

end Sys2Proof.Machine
end

