-- ==== Sys2Proof/Machine/Ops.lean ====
section
/-! DEFINITION. The named operations over memory, ports and registers that the meanings share:
the three memories (spec/20_memory.md), the ports (10_state.md R40), the control FSM's `go` and
`delay_done` (R32, R240), and what an error does in this block in place of a trap (R300, R308). -/

namespace Sys2Proof.Machine

/-! ### Memories -/

/-- The byte listed at an address, if one is. -/
def memGet? : Memory → Nat → Option Byte
  | [], _ => none
  | (k, b) :: m, a => if k = a then some b else memGet? m a

/-- List `b` at address `a`, in place of what was listed there. -/
def memSet : Memory → Nat → Byte → Memory
  | [], a, b => [(a, b)]
  | (k, c) :: m, a, b =>
    if a < k then (a, b) :: (k, c) :: m
    else if a = k then (a, b) :: m
    else (k, c) :: memSet m a b

/-- List nothing at address `a`. -/
def memErase : Memory → Nat → Memory
  | [], _ => []
  | (k, c) :: m, a => if k = a then m else (k, c) :: memErase m a

/-- List the bytes at `a`, `a + 1`, and so on. -/
def memSetBytes (m : Memory) (a : Nat) : List Byte → Memory
  | [] => m
  | b :: bytes => memSetBytes (memSet m a b) (a + 1) bytes

/-- The canonical form of a memory in which an unlisted address has no value: addresses strictly
rising, every one below `bound` (`buf`, `plain`). -/
abbrev Memory.wfBelow (bound : Nat) (m : Memory) : Prop :=
  m.Pairwise (fun x y => x.1 < y.1) ∧ ∀ x ∈ m, x.1 < bound

/-- What an unlisted flash address reads as: DESIGN CHOICE, unsafe (log 6), the erased value of the
spec's toy flash (95_test_vectors.md section 1). -/
def flashBlank : Byte := 0xFF

/-- The size of the flash address space (R54). -/
def flashSize : Nat := 4294967296

/-- The canonical form of flash: addresses strictly rising, inside the address space, and no entry
equal to what an unlisted address reads as. -/
abbrev Memory.wf (m : Memory) : Prop :=
  Memory.wfBelow flashSize m ∧ ∀ x ∈ m, x.2 ≠ flashBlank

/-- The flash byte at an address. -/
def flashGet (m : Memory) (a : Nat) : Byte := (memGet? m a).getD flashBlank

/-- Flash with byte `b` at address `a`. An address outside the address space (R54) does not exist
and changes nothing. -/
def flashSet (m : Memory) (a : Nat) (b : Byte) : Memory :=
  if a < flashSize then
    if b = flashBlank then memErase m a else memSet m a b
  else m

/-- Flash with the bytes at `a`, `a + 1`, and so on (R57). -/
def flashSetBytes (m : Memory) (a : Nat) : List Byte → Memory
  | [] => m
  | b :: bytes => flashSetBytes (flashSet m a b) (a + 1) bytes

/-- Flash after a failing write of `n` bytes at `a`, of which `left` says what each now holds (R57). -/
def flashSetLeft (m : Memory) (a : Nat) : Nat → List (Option Byte) → Memory
  | 0, _ => m
  | _ + 1, [] => m
  | n + 1, none :: left => flashSetLeft m (a + 1) n left
  | n + 1, some b :: left => flashSetLeft (flashSet m a b) (a + 1) n left

/-- Flash after an erase that changed the given cells (R58). -/
def flashSetCells (m : Memory) : List Host.Cell → Memory
  | [] => m
  | (a, b) :: cells => flashSetCells (flashSet m a b) cells

/-- The flash bytes at `a`, `a + 1`, ..., `n` of them (R56). -/
def flashGetBytes (m : Memory) (a : Nat) : Nat → List Byte
  | 0 => []
  | n + 1 => flashGet m a :: flashGetBytes m (a + 1) n

/-- `buf[i]` (R50, R43). -/
def State.bufGet (s : State) (i : Nat) : Except Fault Byte :=
  if i < s.cfg.cap then
    match memGet? s.buf i with
    | some b => .ok b
    | none => .error (.bufUnwritten i)
  else .error (.bufIndex i)

/-- `buf[i .. i+n-1]`. -/
def State.bufGetBytes (s : State) (i : Nat) : Nat → Except Fault (List Byte)
  | 0 => .ok []
  | n + 1 =>
    match s.bufGet i with
    | .error f => .error f
    | .ok b =>
      match s.bufGetBytes (i + 1) n with
      | .error f => .error f
      | .ok bytes => .ok (b :: bytes)

/-- `buf[0 ..] <- bytes`: a packet the block builds (R50, R230). At most ten bytes, which fit (R9). -/
def State.bufPut (s : State) (bytes : List Byte) : State :=
  { s with buf := memSetBytes s.buf 0 bytes }

/-- `plain[i]` (R52, R43). -/
def State.plainGet (s : State) (i : Nat) : Except Fault Byte :=
  if i < s.cfg.p then
    match memGet? s.plain i with
    | some b => .ok b
    | none => .error (.plainUnwritten i)
  else .error (.plainIndex i)

/-- `plain[i .. i+n-1]`. -/
def State.plainGetBytes (s : State) (i : Nat) : Nat → Except Fault (List Byte)
  | 0 => .ok []
  | n + 1 =>
    match s.plainGet i with
    | .error f => .error f
    | .ok b =>
      match s.plainGetBytes (i + 1) n with
      | .error f => .error f
      | .ok bytes => .ok (b :: bytes)

/-- `plain[0 .. P-1] <- bytes` (R192, R193). -/
def State.plainPut (s : State) (bytes : List Byte) : State :=
  { s with plain := memSetBytes s.plain 0 bytes }

/-! ### Ports (R40)

Each call takes the environment's next answer and is written to the trace. -/

/-- The next answer of a port: its value, the answers left, and the free values drawn so far. A call
beyond the listed answers is answered by a free value (R40, U9). -/
def draw {α : Type} (listed : List α) (free : Nat → α) (drawn : Nat) : α × List α × Nat :=
  match listed with
  | a :: rest => (a, rest, drawn)
  | [] => (free drawn, [], drawn + 1)

/-- Write an event to the trace. -/
def State.log (s : State) (e : Event) : State := { s with trace := s.trace ++ [e] }

/-- `source()`, one call of `serial_get`: a byte or NONE (R40). -/
def State.serialGet (s : State) : Option Byte × State :=
  let d := draw s.env.serialIn Config.freeSerialGet s.env.drawn
  (d.1, { s with env := { s.env with serialIn := d.2.1, drawn := d.2.2 } }.log (.serialGet d.1))

/-- `sink(b)`, one call of `serial_put`: whether it was ACCEPTED (R40). An accepted byte joins the
transmit stream exactly once; a refused one changes nothing (R346). -/
def State.sink (b : Byte) (s : State) : Bool × State :=
  let d := draw s.env.sinkReady Config.freeSink s.env.drawn
  (d.1, { s with env := { s.env with
            sinkReady := d.2.1
            drawn := d.2.2
            serialOut := if d.1 then s.env.serialOut ++ [b] else s.env.serialOut } }.log
          (.serialPut b d.1))

/-- `serial_tx_empty`, a port that no rule calls (R40, D34). -/
def State.serialTxEmpty (s : State) : Bool × State :=
  let d := draw s.env.txEmpty Config.freeTxEmpty s.env.drawn
  (d.1, { s with env := { s.env with txEmpty := d.2.1, drawn := d.2.2 } }.log (.serialTxEmpty d.1))

/-- What `flash_sector_erased(r, k)` answers, the answers left, and the free values drawn. A sector
confirmed erased stays so until a write (20_memory.md R69, U9); for any other sector the answer is the
environment's next. -/
def Env.erasedAnswer (env : Env) (r : Region) (k : Nat) : Bool × List Bool × Nat :=
  if env.confirmed.contains (r, k) then (true, env.sectorErased, env.drawn)
  else draw env.sectorErased Config.freeSectorErased env.drawn

/-- The confirmed sectors after sector `x` was confirmed once more. -/
def confirm (x : Region × Nat) (sectors : List (Region × Nat)) : List (Region × Nat) :=
  if sectors.contains x then sectors else x :: sectors

/-- The confirmed sectors after a `flash_write`: it reaches the application region, in which any sector
may now hold programmed bytes, and not the separate user-data region (R63, R348). DEDUCED, log 26. -/
def confirmedAfterWrite (sectors : List (Region × Nat)) : List (Region × Nat) :=
  sectors.filter fun x => x.1 == .ud

/-- `flash_sector_erased(r, k)` (R58); a true answer confirms the sector (R55, R69). -/
def State.sectorErased (r : Region) (k : Nat) (s : State) : Bool × State :=
  let d := s.env.erasedAnswer r k
  (d.1, { s with env := { s.env with
            sectorErased := d.2.1
            drawn := d.2.2
            confirmed := if d.1 then confirm (r, k) s.env.confirmed else s.env.confirmed } }.log
          (.sectorErased r k d.1))

/-- Whether an address may belong to a sector of a region: the application region is `APP_BASE` to
`APP_END`, the user-data region lies elsewhere (20_memory.md R63). DEDUCED, log 26. -/
def mayHold (c : Config) (r : Region) (a : Nat) : Bool :=
  match r with
  | .app => c.appBase ≤ a && a < c.appEnd
  | .ud => !(c.appBase ≤ a && a < c.appEnd)

/-- `flash_sector_erase(r, k)`: no answer; what it changes in flash is the environment's (R55, R58),
inside the region. -/
def State.sectorErase (r : Region) (k : Nat) (s : State) : State :=
  let d := draw s.env.eraseEffect Config.freeEraseEffect s.env.drawn
  { s with env := { s.env with
      eraseEffect := d.2.1
      drawn := d.2.2
      flash := flashSetCells s.env.flash (d.1.filter fun x => mayHold s.cfg r x.1) } }.log
        (.sectorErase r k)

/-- `flash_write(addr, bytes)`: whether it answered OK (R57). After OK flash holds the bytes (R348);
after FAIL what the addressed bytes hold is the environment's (U8). Either way no sector of the
application region counts as confirmed erased any more (U9). -/
def State.flashWrite (addr : Word32) (bytes : List Byte) (s : State) : Bool × State :=
  let d := draw s.env.writeAnswer Config.freeWriteAnswer s.env.drawn
  let env := { s.env with
    writeAnswer := d.2.1, drawn := d.2.2, confirmed := confirmedAfterWrite s.env.confirmed }
  match d.1 with
  | .ok =>
    (true, { s with env := { env with
        flash := flashSetBytes s.env.flash addr.toNat bytes } }.log (.flashWrite addr bytes true))
  | .fail left =>
    (false, { s with env := { env with
        flash := flashSetLeft s.env.flash addr.toNat bytes.length left } }.log
          (.flashWrite addr bytes false))

/-- `flash_read(addr, n)` (R56). A range that leaves the address space (R54) faults. -/
def State.flashRead (addr : Word32) (n : Nat) (s : State) : Except Fault (List Byte × State) :=
  if addr.toNat + n ≤ flashSize then
    let bytes := flashGetBytes s.env.flash addr.toNat n
    .ok (bytes, s.log (.flashRead addr bytes))
  else .error (.flashAddress (addr.toNat + n))

/-- `FW_CHECK` of the flash contents (R11). -/
def fwCheckValue (c : Config) (flash : Memory) : Bool :=
  match c.fwCheckFn with
  | .toy => flashGetBytes flash c.appBase 4 == [0xDE, 0xAD, 0xBE, 0xEF]
  | .free id => Config.freeFwCheck id flash

/-- `fw_check` (R40). -/
def State.fwCheck (s : State) : Bool × State :=
  (fwCheckValue s.cfg s.env.flash, s.log (.fwCheck (fwCheckValue s.cfg s.env.flash)))

/-- `now()`, one read of `clock_ms` (R40). -/
def State.now (s : State) : Word32 × State :=
  let d := draw s.env.clock Config.freeClock s.env.drawn
  (d.1, { s with env := { s.env with clock := d.2.1, drawn := d.2.2 } }.log (.clockMs d.1))

/-- `strap_asserted` (R40). -/
def State.strapAsserted (s : State) : Bool × State :=
  let d := draw s.env.strap Config.freeStrap s.env.drawn
  (d.1, { s with env := { s.env with strap := d.2.1, drawn := d.2.2 } }.log (.strapAsserted d.1))

/-! ### Errors (R300, R308, R309)

The block has no trap: nothing is saved, no mode or mask changes, there is no vector and no return.
An error is named, and the rule that raises it says what the step does. -/

/-- `raise E(info)`: name the error (R300, R301). -/
def State.raise (e : ErrorClass) (s : State) : State := s.log (.raised e)

/-- The abort of a frame, the receiver's "trap entry" (R127, R308). -/
def State.rxAbort (s : State) : State :=
  { s with rx := { s.rx with state := .waitStart, esc := false } }

/-! ### The control FSM's shared operations -/

/-- `ctl_state <- p`, with `ctl_sub <- ENTER` (R32). -/
def State.go (p : CtlPhase) (s : State) : State :=
  { s with ctl := { s.ctl with state := p, sub := .enter } }

/-- `elapsed(t0) = (now - t0) mod 2^32` (R12). -/
def elapsed (now t0 : Word32) : Word32 := now - t0

/-- `delay_done(T)` (R240): the first poll of a state arms `t_resp`, later polls test it. -/
def State.delayDone (t : Word32) (s : State) : Bool × State :=
  match s.ctl.sub with
  | .enter =>
    (false, { s.now.2 with ctl := { s.now.2.ctl with tResp := s.now.1, sub := .poll } })
  | .poll => (decide (t ≤ elapsed s.now.1 s.ctl.tResp), s.now.2)

/-- The `handoff` action and the terminal state after it (R214, R237, R238). -/
def State.doHandoff (s : State) : State := (s.log .handoff).go .handoff

/-- Record what an operation returned. -/
def State.returning (r : OpResult) (s : State) : State := { s with result := r }

end Sys2Proof.Machine
end

