-- ==== Sys2Proof/Machine/Transmitter.lean ====
section
/-! DEFINITION. The frame transmitter (spec/41_frame_transmitter.md): `tx_begin`, `tx_step` by state,
and their meanings as operations. -/

namespace Sys2Proof.Machine

/-- The registers `tx_begin` leaves for a packet (R161). The checksum is computed at once, and only
when `CRC_ENABLE`. -/
def txLoad (packet : List Byte) (s : State) : State :=
  { s with tx := {
      state := .start
      escSent := false
      len := BitVec.ofNat 16 packet.length
      idx := 0
      ck := if s.cfg.crcEnable then s.cfg.checksum (framedBytes packet) else s.tx.ck } }

/-- `tx_begin(n)` (R161). Outside its domain are a length above `CAP` (R161, U5) and, with checksums or
without, a packet that the caller has not written to `buf[0 .. n-1]` (R43): both are refused. -/
def txBegin (n : Nat) (s : State) : Except Refusal State :=
  if s.cfg.cap < n then .error (.packetTooLong n)
  else
    match s.bufGetBytes 0 n with
    | .error _ => .error (.packetUnwritten n)
    | .ok packet => .ok (txLoad packet s)

/-- `tx_state <- p`. -/
def State.txGo (p : TxPhase) (s : State) : State := { s with tx := { s.tx with state := p } }

/-- `after_body` (R168). -/
def Config.txAfterBody (c : Config) : TxPhase := if c.crcEnable then .crcLo else .done

/-- The advance after an accepted literal (R168), and after the accepted marker (R165). -/
def txAdvance (s : State) : State :=
  match s.tx.state with
  | .start => s.txGo .lenLo
  | .lenLo => s.txGo .lenHi
  | .lenHi => if s.tx.len = 0 then s.txGo (Config.txAfterBody s.cfg) else s.txGo .body
  | .body =>
    let s1 := { s with tx := { s.tx with idx := s.tx.idx + 1 } }
    if s1.tx.idx = s1.tx.len then s1.txGo (Config.txAfterBody s.cfg) else s1
  | .crcLo => s.txGo .crcHi
  | .crcHi => s.txGo .done
  | .done => s

/-- The result of a step that left the transmitter in `s` (R168). -/
def txResult (s : State) : TxResult :=
  if s.tx.state = .done then .transmitted else .notTransmitted

/-- `T_START` (R165): the marker goes out raw. -/
def txMarker (s : State) : TxResult × State :=
  match s.sink s.cfg.start with
  | (true, s1) => (.notTransmitted, txAdvance s1)
  | (false, s1) => (.notTransmitted, s1)

/-- Emission of the logical byte `cur` (R164, R167): its prefix if it needs one that has not been
accepted yet, else the byte itself. A refused offer changes no register. -/
def txEmit (cur : Byte) (s : State) : TxResult × State :=
  if s.cfg.reserved cur && !s.tx.escSent then
    match s.sink s.cfg.esc with
    | (true, s1) => (.notTransmitted, { s1 with tx := { s1.tx with escSent := true } })
    | (false, s1) => (.notTransmitted, s1)
  else
    match s.sink cur with
    | (true, s1) =>
      let s2 := txAdvance { s1 with tx := { s1.tx with escSent := false } }
      (txResult s2, s2)
    | (false, s1) => (.notTransmitted, s1)

/-- `tx_step` (R163 to R169), with the logical byte of each state (R166). -/
def txStep (s : State) : Except Fault (TxResult × State) :=
  match s.tx.state with
  | .start => .ok (txMarker s)
  | .lenLo => .ok (txEmit (lo8 s.tx.len) s)
  | .lenHi => .ok (txEmit (hi8 s.tx.len) s)
  | .body =>
    match s.bufGet s.tx.idx.toNat with
    | .error f => .error f
    | .ok cur => .ok (txEmit cur s)
  | .crcLo => .ok (txEmit (lo8 s.tx.ck) s)
  | .crcHi => .ok (txEmit (hi8 s.tx.ck) s)
  | .done => .ok (.transmitted, s)

/-- `tx_begin` (R161, R43). -/
def execOpTxBegin (n : Nat) (s : State) : Outcome :=
  match txBegin n s with
  | .error r => .refused r
  | .ok s1 => .next s1

/-- `tx_step` (R163 to R169); the result is recorded. -/
def execOpTxStep (s : State) : Outcome :=
  match txStep s with
  | .error f => .fault f
  | .ok (r, s1) => .next (s1.returning (.tx r))

end Sys2Proof.Machine
end

