-- ==== Sys2Proof/Machine/Responses.lean ====
section
/-! DEFINITION. The packets the block sends (spec/30_encoding.md R96, R97, R106 to R108): how one is
put into the exchange buffer and handed to the transmitter (43_control_fsm.md R223, R230), and the
meaning of each response row, which is the block's sending of it. -/

namespace Sys2Proof.Machine

/-- Build a packet at `buf[0 ..]` and `tx_begin` it: `buf[0 ..] <- packet; tx_begin(|packet|)`
(R223, R230). No byte is sent yet. -/
def State.send (packet : List Byte) (s : State) : State := txLoad packet (s.bufPut packet)

/-- `respond(op, st, extra)` (R230). -/
def State.respond (op st : Byte) (extra : List Byte) (s : State) : State :=
  (s.send (op :: st :: extra)).go .sendResp

/-- The state that sends a region's progress events (R221, R227). -/
def eventPhase : Region → CtlPhase
  | .app => .sendEventFlashClear
  | .ud => .sendEventUserDataClear

/-- The progress event `(op, 0xFF, total, done)` (R108, R223) is put out and its sending state
entered. -/
def State.sendEvent (r : Region) (op : Byte) (total done : Word32) (s : State) : State :=
  (s.send (op :: 0xFF :: (le32 total ++ le32 done))).go (eventPhase r)

/-- `RSP_OK` (R106): the block answers `op` with status `0x00`. -/
def execRspOk (op : Byte) (s : State) : Outcome := .next (s.respond op 0x00 [])

/-- `RSP_FAIL` (R106): the block answers `op` with status `0x01`. -/
def execRspFail (op : Byte) (s : State) : Outcome := .next (s.respond op 0x01 [])

/-- `RSP_ERASE_FAIL` (R107): the block reports the sector that failed to verify erased. -/
def execRspEraseFail (r : Region) (sector : Word32) (s : State) : Outcome :=
  .next (s.respond (opcodeOfRegion r) 0x01 (le32 sector))

/-- `RSP_PRECOND` (R106): the block answers `op` with status `0x02`. -/
def execRspPrecond (op : Byte) (s : State) : Outcome := .next (s.respond op 0x02 [])

/-- `EVT_PROGRESS` (R108): the block reports the progress of an erase sequence. -/
def execEvtProgress (r : Region) (total done : Word32) (s : State) : Outcome :=
  .next (s.sendEvent r (opcodeOfRegion r) total done)

end Sys2Proof.Machine
end

