-- ==== Sys2Proof/Machine/Flags.lean ====
section
/-! DEFINITION. The conditions computed from the session flags (spec/10_state.md section 3) and the
flags each event writes: the activation gate (R215, R310), the preconditions of the commands (R264,
R266, R267), the auto-boot test (43_control_fsm.md R214), and the flags that INIT, the erase sequence
and the integrity check leave (R211, R220, R226, R266). -/

namespace Sys2Proof.Machine

/-- The activation gate: a command other than `ACTIVATE` has an effect only when `activated`;
otherwise the FSM returns to `MAIN` and nothing else (R215 (3), R310). -/
def State.gated (s : State) (command : State → Outcome) : Outcome :=
  if s.ctl.activated then command s else .next (s.go .main)

/-- `WRITE` may act (R264). -/
def State.writeAllowed (s : State) : Bool := s.ctl.updateInProgress && s.ctl.stagedValid

/-- The first three conditions of the auto-boot test (R214), for which no port is called. -/
def State.autoBootArmed (s : State) : Bool :=
  s.cfg.bootPolicy == .timer && !s.ctl.activated && s.ctl.firmwareValid

/-- The auto-boot test (R214): the clock is read only when the other conditions hold. -/
def State.autoBootDue (s : State) : Bool × State :=
  if s.autoBootArmed then (decide (s.cfg.tBoot ≤ elapsed s.now.1 s.ctl.tBoot), s.now.2)
  else (false, s)

/-- INIT boots at once: strap variant, strap absent, `BOOT_IF_VALID`, firmware valid (R211 (3)). -/
def State.initBoots (s : State) : Bool :=
  s.cfg.bootPolicy == .strap && !s.ctl.activated &&
    s.cfg.strapAbsentPolicy == .bootIfValid && s.ctl.firmwareValid

/-- `activated <- 1` (R33, R261). -/
def State.activate (s : State) : State := { s with ctl := { s.ctl with activated := true } }

/-- `firmware_valid <- v` (R34). -/
def State.setFirmwareValid (v : Bool) (s : State) : State :=
  { s with ctl := { s.ctl with firmwareValid := v } }

/-- `update_in_progress <- v` (R35). -/
def State.setUpdateInProgress (v : Bool) (s : State) : State :=
  { s with ctl := { s.ctl with updateInProgress := v } }

/-- `staged_valid <- 0` (R36). -/
def State.unstage (s : State) : State := { s with ctl := { s.ctl with stagedValid := false } }

/-- The staged chunk becomes `address`, `length` with the plaintext in `plain` (R36, R195). -/
def State.stage (address : Word32) (length : Byte) (s : State) : State :=
  { s with ctl := { s.ctl with stagedAddr := address, stagedLen := length, stagedValid := true } }

/-- `erase_idx <- 0; erase_op <- op` (R220, R268). -/
def State.startErase (op : Byte) (s : State) : State :=
  { s with ctl := { s.ctl with eraseIdx := 0, eraseOp := op } }

/-- The flags a completed erase of a region leaves: only the application region changes any
(R226, R227). -/
def State.eraseCompleted (r : Region) (s : State) : State :=
  match r with
  | .app => (s.setUpdateInProgress true).unstage
  | .ud => s

end Sys2Proof.Machine
end

