-- ==== Sys2Proof/Machine/Operands.lean ====
section
/-! DEFINITION. Operands: the received packet in the exchange buffer (spec/20_memory.md R50, R53) and
the fields of a chunk at their fixed offsets (30_encoding.md R100, R101). -/

namespace Sys2Proof.Machine

/-- The received packet `buf[0 .. rx_len-1]` (R133, R260). -/
def State.packet (s : State) : Except Fault (List Byte) := s.bufGetBytes 0 s.rx.len.toNat

/-- The chunk of a `BEGIN` or `SEND` packet, `buf[1 .. CHUNK_SIZE]` (R53). -/
def State.chunk (s : State) : Except Fault (List Byte) := s.bufGetBytes 1 s.cfg.chunkSize

/-- The associated data: `chunk[0..4]` as it stands (R101, R194). -/
def chunkAd (chunk : List Byte) : List Byte := chunk.take 5

/-- `address = un_le32(chunk[0..3])` (R101). -/
def chunkAddress (chunk : List Byte) : Word32 :=
  unLe32 (chunk.getD 0 0) (chunk.getD 1 0) (chunk.getD 2 0) (chunk.getD 3 0)

/-- `length = chunk[4]` (R101). -/
def chunkLength (chunk : List Byte) : Byte := chunk.getD 4 0

/-- `chunk[5..28]` (R100). -/
def chunkNonce (chunk : List Byte) : List Byte := (chunk.drop 5).take 24

/-- `chunk[29..28+P]` (R100). -/
def chunkCiphertext (p : Nat) (chunk : List Byte) : List Byte := (chunk.drop 29).take p

/-- `chunk[29+P..44+P]` (R100). -/
def chunkTag (p : Nat) (chunk : List Byte) : List Byte := (chunk.drop (29 + p)).take 16

end Sys2Proof.Machine
end

