-- ==== Sys2Proof/Machine/Verifier.lean ====
section
/-! DEFINITION. The authenticated chunk verifier (spec/42_chunk_verifier.md): the checks around the
supplied primitive, and the two operations. -/

namespace Sys2Proof.Machine

/-- AEAD_TOY of 95_test_vectors.md section 1. -/
def aeadToy (nonce ad ct tag : List Byte) : Option (List Byte) :=
  let sum : Byte := (ad ++ nonce ++ ct).foldl (· + ·) 0
  if tag = (List.range 16).map (fun i => sum + BitVec.ofNat 8 i)
  then some (ct.map (· ^^^ 0x5A))
  else none

/-- `AEAD_OPEN` (R191): failure, or a plaintext of `P` bytes. -/
def aeadOpen (c : Config) (nonce ad ct tag : List Byte) : Option (List Byte) :=
  match c.aeadFn with
  | .toy => aeadToy nonce ad ct tag
  | .free id =>
    match Config.freeAead id c.key nonce ad ct tag with
    | some byteAt => some ((List.range c.p).map byteAt)
    | none => none

/-- What `AEAD_OPEN` makes of a chunk under a configuration (R192, R194). -/
def openChunk (c : Config) (chunk : List Byte) : Option (List Byte) :=
  aeadOpen c (chunkNonce chunk) (chunkAd chunk) (chunkCiphertext c.p chunk) (chunkTag c.p chunk)

/-- `ver_open` (R192): the staged chunk is discarded first; on failure `plain` is wiped (R193), on
success it holds the plaintext. Whether the tag matched. -/
def verOpen (chunk : List Byte) (s : State) : Bool × State :=
  match openChunk s.cfg chunk with
  | none => (false, (s.unstage.plainPut (List.replicate s.cfg.p 0)).raise .authentication)
  | some plaintext => (true, s.unstage.plainPut plaintext)

/-- The field checks of the identity chunk (R196). -/
def identityFieldsOk (c : Config) (chunk plaintext : List Byte) : Bool :=
  (chunkLength chunk).toNat == c.p && chunkAddress chunk == c.fwTotalSize && plaintext == c.ident

/-- The field checks of a firmware chunk (R195), in unbounded integers (R15 (d)). -/
def firmwareFieldsOk (c : Config) (chunk : List Byte) : Bool :=
  let address := (chunkAddress chunk).toNat
  let length := (chunkLength chunk).toNat
  0 < length && length ≤ c.p && c.appBase ≤ address && address + length ≤ c.appEnd

/-- `ver_identity` of a chunk (R196): nothing is ever staged. -/
def verIdentity (chunk : List Byte) (s : State) : VerResult × State :=
  match openChunk s.cfg chunk with
  | none => (.fail, (verOpen chunk s).2)
  | some plaintext =>
    if identityFieldsOk s.cfg chunk plaintext then (.pass, (verOpen chunk s).2)
    else (.fail, (verOpen chunk s).2)

/-- `ver_firmware` of a chunk (R195): on success the chunk is staged. -/
def verFirmware (chunk : List Byte) (s : State) : VerResult × State :=
  match verOpen chunk s with
  | (false, s1) => (.fail, s1)
  | (true, s1) =>
    if firmwareFieldsOk s.cfg chunk then
      (.pass, s1.stage (chunkAddress chunk) (chunkLength chunk))
    else (.fail, s1)

/-- `ver_identity` (R196) on the chunk in `buf`; the result is recorded. -/
def execOpVerIdentity (s : State) : Outcome :=
  match s.chunk with
  | .error f => .fault f
  | .ok chunk => .next ((verIdentity chunk s).2.returning (.ver (verIdentity chunk s).1))

/-- `ver_firmware` (R195) on the chunk in `buf`; the result is recorded. -/
def execOpVerFirmware (s : State) : Outcome :=
  match s.chunk with
  | .error f => .fault f
  | .ok chunk => .next ((verFirmware chunk s).2.returning (.ver (verFirmware chunk s).1))

end Sys2Proof.Machine
end

