-- ==== Sys2Proof/Machine/Commands.lean ====
section
/-! DEFINITION. The host commands (spec/44_commands.md R260 to R268). `args` are the received
packet's bytes after the opcode, so the packet's length is `n = 1 + |args|`. -/

namespace Sys2Proof.Machine

/-- The packet length `n` (R260). -/
def packetLength (args : List Byte) : Nat := 1 + args.length

/-- `ACTIVATE` (R261). -/
def execCmdActivate (args : List Byte) (s : State) : Outcome :=
  if packetLength args = 9 ∧ args = s.cfg.signature then .next (s.activate.respond 0x70 0x00 [])
  else .next (s.go .main)

/-- `BEGIN` (R262). -/
def execCmdBegin (args : List Byte) (s : State) : Outcome :=
  s.gated fun s =>
    if packetLength args ≠ 1 + s.cfg.chunkSize then .next (s.respond 0x71 0x02 [])
    else
      match verIdentity args s with
      | (.fail, s1) => .next ((s1.raise .precondition).respond 0x71 0x02 [])
      | (.pass, s1) => .next (s1.go .begin)

/-- `SEND` (R263). -/
def execCmdSend (args : List Byte) (s : State) : Outcome :=
  s.gated fun s =>
    if packetLength args ≠ 1 + s.cfg.chunkSize then .next (s.unstage.respond 0x72 0x01 [])
    else
      match verFirmware args s with
      | (.pass, s1) => .next (s1.respond 0x72 0x00 [])
      | (.fail, s1) => .next (s1.respond 0x72 0x01 [])

/-- The physical write of `WRITE` and its response (R264). -/
def writeStaged (addr : Word32) (bytes : List Byte) (s : State) : State :=
  match s.flashWrite addr bytes with
  | (true, s1) => s1.respond 0x73 0x00 []
  | (false, s1) => (s1.raise .flashWrite).respond 0x73 0x01 []

/-- `WRITE` (R264). -/
def execCmdWrite (_args : List Byte) (s : State) : Outcome :=
  s.gated fun s =>
    if s.writeAllowed then
      let s1 := s.unstage
      match s1.flashRead s1.ctl.stagedAddr s1.ctl.stagedLen.toNat with
      | .error f => .fault f
      | .ok (inFlash, s2) =>
        match s2.plainGetBytes 0 s2.ctl.stagedLen.toNat with
        | .error f => .fault f
        | .ok staged =>
          if inFlash = staged then .next (s2.respond 0x73 0x00 [])
          else .next (writeStaged s2.ctl.stagedAddr staged s2)
    else .next ((s.raise .precondition).respond 0x73 0x02 [])

/-- `END` (R265). -/
def execCmdEnd (_args : List Byte) (s : State) : Outcome :=
  s.gated fun s => .next ((s.setUpdateInProgress false).respond 0x74 0x00 [])

/-- `CHECK_CRC` (R266). -/
def execCmdCheckCrc (_args : List Byte) (s : State) : Outcome :=
  s.gated fun s =>
    if s.ctl.updateInProgress then .next ((s.raise .precondition).respond 0x75 0x02 [])
    else
      match s.fwCheck with
      | (v, s1) =>
        .next ((s1.setFirmwareValid v).respond 0x75 (if v then 0x00 else 0x01) [])

/-- `APP_RUN` (R267). -/
def execCmdAppRun (_args : List Byte) (s : State) : Outcome :=
  s.gated fun s =>
    if s.ctl.updateInProgress then .next ((s.raise .precondition).respond 0x76 0x02 [])
    else
      match s.fwCheck with
      | (true, s1) => .next (((s1.setFirmwareValid true).send [0x76, 0x00]).go .appRun)
      | (false, s1) => .next ((s1.setFirmwareValid false).respond 0x76 0x01 [])

/-- `ERASE_USER_DATA` (R268); without the feature `0x78` is an unknown opcode (R110). -/
def execCmdEraseUserData (_args : List Byte) (s : State) : Outcome :=
  s.gated fun s =>
    if s.cfg.hasUserData then .next ((s.startErase 0x78).go .userDataClear)
    else .next (s.go .main)

/-- An unassigned opcode (R110, R215 (5)): back to `MAIN`, nothing else. -/
def execCmdReserved (_op : Byte) (_args : List Byte) (s : State) : Outcome := .next (s.go .main)

end Sys2Proof.Machine
end

