-- ==== Sys2Proof/Machine/Receiver.lean ====
section
/-! DEFINITION. The frame receiver (spec/40_frame_receiver.md): `rx_begin`, `rx_step` by state, and
their meanings as operations. -/

namespace Sys2Proof.Machine

/-- `rx_begin` (R120): the receiver is armed; nothing else changes. -/
def rxBegin (s : State) : State := s.rxAbort

/-- How a byte is seen outside `WAIT_START` (R123). -/
inductive RxClass where
  | literal
  | escapePrefix
  | invalidEscape
  | unexpectedStart
deriving DecidableEq, Repr

/-- The classification of R123, in its fixed order. -/
def rxClassify (c : Config) (esc : Bool) (b : Byte) : RxClass :=
  if esc then
    if b = c.start ∨ b = c.esc then .literal else .invalidEscape
  else if b = c.esc then .escapePrefix
  else if b = c.start then .unexpectedStart
  else .literal

/-- `rx_state <- p`. -/
def State.rxGo (p : RxPhase) (s : State) : State := { s with rx := { s.rx with state := p } }

/-- Payload complete (R131). -/
def rxPayloadComplete (s : State) : RxResult × State :=
  if s.cfg.crcEnable then (.notReceived, s.rxGo .crcLo) else (.received, s.rxGo .waitStart)

/-- `buf[rx_cnt] <- lit; rx_cnt <- rx_cnt + 1; rx_ck <- ck_update(rx_ck, lit)` (R130). -/
def State.rxStore (lit : Byte) (s : State) : State :=
  { s with
    buf := memSet s.buf s.rx.cnt.toNat lit
    rx := { s.rx with cnt := s.rx.cnt + 1, ck := s.cfg.ckUpdate s.rx.ck lit } }

/-- What a literal does in each state (R128 to R132). In `WAIT_START` nothing is classified (R121), so
no literal reaches it. -/
def rxLiteral (lit : Byte) (s : State) : Except Fault (RxResult × State) :=
  match s.rx.state with
  | .waitStart => .ok (.notReceived, s)
  | .lenLo =>
    .ok (.notReceived, { s with rx := { s.rx with
      len := zext16 lit, ck := s.cfg.ckUpdate s.rx.ck lit, state := .lenHi } })
  | .lenHi =>
    let s1 := { s with rx := { s.rx with
      len := setHi8 s.rx.len lit, ck := s.cfg.ckUpdate s.rx.ck lit } }
    if s.cfg.cap < s1.rx.len.toNat then .ok (.broken, s1.rxAbort.raise .framingOversize)
    else if s1.rx.len = 0 then .ok (rxPayloadComplete s1)
    else .ok (.notReceived, s1.rxGo .body)
  | .body =>
    if s.rx.cnt.toNat < s.cfg.cap then
      let s1 := s.rxStore lit
      if s1.rx.cnt = s1.rx.len then .ok (rxPayloadComplete s1) else .ok (.notReceived, s1)
    else .error (.bufIndex s.rx.cnt.toNat)
  | .crcLo =>
    .ok (.notReceived, { s with rx := { s.rx with ckrx := zext16 lit, state := .crcHi } })
  | .crcHi =>
    let s1 := { s with rx := { s.rx with ckrx := setHi8 s.rx.ckrx lit, state := .waitStart } }
    if s1.rx.ckrx = s1.rx.ck then .ok (.received, s1)
    else .ok (.broken, s1.raise .framingChecksum)

/-- A byte in `WAIT_START` (R121): `START` opens a frame, any other byte is discarded. -/
def rxIdle (b : Byte) (s : State) : State :=
  if b = s.cfg.start then
    { s with rx := { s.rx with state := .lenLo, esc := false, cnt := 0, ck := s.cfg.ckSeed } }
  else s

/-- `rx_step(in)` (R121 to R133). -/
def rxStep (input : Option Byte) (s : State) : Except Fault (RxResult × State) :=
  match input with
  | none => .ok (.notReceived, s)
  | some b =>
    if s.rx.state = .waitStart then .ok (.notReceived, rxIdle b s)
    else
      match rxClassify s.cfg s.rx.esc b with
      | .literal => rxLiteral b { s with rx := { s.rx with esc := false } }
      | .escapePrefix => .ok (.notReceived, { s with rx := { s.rx with esc := true } })
      | .invalidEscape => .ok (.broken, s.rxAbort.raise .framingInvalidEscape)
      | .unexpectedStart => .ok (.broken, s.rxAbort.raise .framingUnexpectedStart)

/-- `rx_step` invoked by the caller: the result is recorded. -/
def rxStepOp (input : Option Byte) (s : State) : Outcome :=
  match rxStep input s with
  | .error f => .fault f
  | .ok (r, s1) => .next (s1.returning (.rx r))

/-- One `rx_step` for each byte, in order. -/
def rxFeed : List Byte → State → Outcome
  | [], s => .next s
  | b :: bytes, s =>
    match rxStepOp (some b) s with
    | .next s1 => rxFeed bytes s1
    | .fault f => .fault f
    | .refused r => .refused r

/-- `rx_begin` (R120). -/
def execOpRxBegin (s : State) : Outcome := .next (rxBegin s)

/-- `rx_step` (R121 to R133). -/
def execOpRxStep (input : Option Byte) (s : State) : Outcome := rxStepOp input s

end Sys2Proof.Machine
end

