-- ==== Sys2Proof/Machine/Control.lean ====
section
/-! DEFINITION. The control state machine (spec/43_control_fsm.md): what one poll does in each of its
sixteen states, dispatch, and `ctl_poll`. -/

namespace Sys2Proof.Machine

/-- `firmware_valid` at initialization: the integrity check, which a debug build skips (R211 (1)). -/
def initCheck (s : State) : State :=
  if s.cfg.debugSkipCheck then s.setFirmwareValid true
  else s.fwCheck.2.setFirmwareValid s.fwCheck.1

/-- What initialization samples: the strap, or the clock for the auto-boot timer (R211 (2)). -/
def initSample (s : State) : State :=
  match s.cfg.bootPolicy with
  | .strap => { s.strapAsserted.2 with ctl := { s.ctl with activated := s.strapAsserted.1 } }
  | .timer => { s.now.2 with ctl := { s.ctl with tBoot := s.now.1 } }

/-- `INIT` (R211). -/
def pollInit (s : State) : State :=
  let s1 := initSample (initCheck s)
  if s1.initBoots then s1.doHandoff else s1.go .main

/-- `MAIN` (R212). -/
def pollMain (s : State) : State := (rxBegin s).go .rxWait

/-- What the receiving part of an `RX_WAIT` poll ends in (R213 (1) to (3)). -/
inductive Pull where
  | autoBoot (s : State)
  | stepped (r : RxResult) (s : State)
deriving Repr

/-- The receiving part of an `RX_WAIT` poll: the auto-boot test, then one byte through the receiver
(R213, R214). -/
def rxWaitPull (s : State) : Except Fault Pull :=
  match s.autoBootDue with
  | (true, s1) => .ok (.autoBoot s1)
  | (false, s1) =>
    match s1.serialGet with
    | (input, s2) =>
      match rxStep input s2 with
      | .error f => .error f
      | .ok (r, s3) => .ok (.stepped r s3)

/-- Dispatch of a packet that is not empty (R215 (2) to (5)). -/
def dispatchOpcode (op : Byte) (args : List Byte) (s : State) : Outcome :=
  if op = 0x70 then execCmdActivate args s
  else if s.ctl.activated = false then .next (s.go .main)
  else if op = 0x71 then execCmdBegin args s
  else if op = 0x72 then execCmdSend args s
  else if op = 0x73 then execCmdWrite args s
  else if op = 0x74 then execCmdEnd args s
  else if op = 0x75 then execCmdCheckCrc args s
  else if op = 0x76 then execCmdAppRun args s
  else if op = 0x78 then execCmdEraseUserData args s
  else execCmdReserved op args s

/-- Dispatch of the received packet `buf[0 .. rx_len-1]` (R215). -/
def dispatch (s : State) : Outcome :=
  match s.packet with
  | .error f => .fault f
  | .ok [] => .next (s.go .main)
  | .ok (op :: args) => dispatchOpcode op args s

/-- `RX_WAIT` (R213). -/
def pollRxWait (s : State) : Outcome :=
  match rxWaitPull s with
  | .error f => .fault f
  | .ok (.autoBoot s1) => .next s1.doHandoff
  | .ok (.stepped .received s1) => dispatch s1
  | .ok (.stepped .broken s1) => .next (s1.go .main)
  | .ok (.stepped .notReceived s1) => .next s1

/-- `BEGIN` (R220). -/
def pollBegin (s : State) : State :=
  (((s.setFirmwareValid false).setUpdateInProgress false).startErase 0x71).go .flashClear

/-- Whether sector `k` verifies erased: a sector that already reads erased is skipped, any other is
erased and queried again (R221 (2)). -/
def eraseSector (r : Region) (k : Nat) (s : State) : Bool × State :=
  match s.sectorErased r k with
  | (true, s1) => (true, s1)
  | (false, s1) => (s1.sectorErase r k).sectorErased r k

/-- `FLASH_CLEAR` and `USER_DATA_CLEAR`, one pass (R221, R222, R223, R226, R227). -/
def pollErase (r : Region) (s : State) : Outcome :=
  let n := s.cfg.sectors r
  let k := s.ctl.eraseIdx.toNat
  if k = n then .next ((s.eraseCompleted r).respond s.ctl.eraseOp 0x00 [])
  else if k < n then
    match eraseSector r k s with
    | (false, s1) =>
      .next ((s1.raise (.flashErase k)).respond s.ctl.eraseOp 0x01 (le32 s.ctl.eraseIdx))
    | (true, s1) =>
      .next (s1.sendEvent r s.ctl.eraseOp (BitVec.ofNat 32 n)
        (s.ctl.eraseIdx + BitVec.ofNat 32 s.cfg.progressDoneBias))
  else .fault (.sectorRange r k)

/-- A delaying state: when the delay is over, `andThen` (R231, R224, R235, R237). -/
def pollDelay (t : Word32) (andThen : State → State) (s : State) : State :=
  match s.delayDone t with
  | (true, s1) => andThen s1
  | (false, s1) => s1

/-- A transmitting state: when the frame has gone out, `andThen` (R232, R225, R236). -/
def pollTransmit (andThen : State → State) (s : State) : Outcome :=
  match txStep s with
  | .error f => .fault f
  | .ok (.transmitted, s1) => .next (andThen s1)
  | .ok (.notTransmitted, s1) => .next s1

/-- `erase_idx <- erase_idx + 1` and back to the erase state (R225, R227). -/
def nextSector (p : CtlPhase) (s : State) : State :=
  { s with ctl := { s.ctl with eraseIdx := s.ctl.eraseIdx + 1 } }.go p

/-- One poll (R210): the action of exactly one state. -/
def ctlPoll (s : State) : Outcome :=
  match s.ctl.state with
  | .init => .next (pollInit s)
  | .main => .next (pollMain s)
  | .rxWait => pollRxWait s
  | .begin => .next (pollBegin s)
  | .flashClear => pollErase .app s
  | .sendEventFlashClear => .next (pollDelay s.cfg.tRespDelay (State.go .sendEventFlashClear1) s)
  | .sendEventFlashClear1 => pollTransmit (nextSector .flashClear) s
  | .userDataClear => pollErase .ud s
  | .sendEventUserDataClear =>
    .next (pollDelay s.cfg.tRespDelay (State.go .sendEventUserDataClear1) s)
  | .sendEventUserDataClear1 => pollTransmit (nextSector .userDataClear) s
  | .appRun => .next (pollDelay s.cfg.tRespDelay (State.go .appRun1) s)
  | .appRun1 => pollTransmit (State.go .appRun2) s
  | .appRun2 => .next (pollDelay s.cfg.tSettle State.doHandoff s)
  | .sendResp => .next (pollDelay s.cfg.tRespDelay (State.go .sendResp1) s)
  | .sendResp1 => pollTransmit (State.go .main) s
  | .handoff => .next s

/-- `ctl_poll` (R210). -/
def execOpCtlPoll (s : State) : Outcome := ctlPoll s

end Sys2Proof.Machine
end

