-- ==== Sys2Proof/Machine/Reset.lean ====
section
/-! DEFINITION. The operation `reset` (spec/70_reset_and_hazards.md R340, R341). -/

namespace Sys2Proof.Machine

/-- `reset` (R340): every register as after power-on, both buffers without values. What lies outside
the block is untouched (R341), and so is the configuration (R350). -/
def execOpReset (s : State) : Outcome := .next (State.resetWith s.cfg s.env s.caller)

end Sys2Proof.Machine
end

