-- ==== Sys2Proof/Machine/Wire.lean ====
section
/-! DEFINITION. The symbols of the wire (spec/30_encoding.md R80, R86, R87): the meaning of each is
what its bytes do to the receiver, one `rx_step` each (40_frame_receiver.md R121 to R132). -/

namespace Sys2Proof.Machine

/-- `FRAME` (R80): the receiver takes the frame's wire bytes, the marker first. -/
def execWireFrame (payload : List Byte) (s : State) : Outcome := rxFeed (s.cfg.frameBytes payload) s

/-- `START` (R86): the receiver takes the raw marker (R121, R123, R126). -/
def execWireStart (s : State) : Outcome := rxFeed [s.cfg.start] s

/-- `ESC` (R87): the receiver takes the prefix and the byte after it (R123 to R125). -/
def execWireEsc (literal : Byte) (s : State) : Outcome := rxFeed [s.cfg.esc, literal] s

end Sys2Proof.Machine
end

