-- ==== Sys2Proof/Machine/Dispatch.lean ====
section
/-! DEFINITION. The one match over the instructions. -/

namespace Sys2Proof.Machine

def exec (i : Instr) (s : State) : Host.Outcome State Fault Refusal :=
  match i with
  | .cmdActivate args => Sys2Proof.Machine.execCmdActivate args s
  | .cmdBegin args => Sys2Proof.Machine.execCmdBegin args s
  | .cmdSend args => Sys2Proof.Machine.execCmdSend args s
  | .cmdWrite args => Sys2Proof.Machine.execCmdWrite args s
  | .cmdEnd args => Sys2Proof.Machine.execCmdEnd args s
  | .cmdCheckCrc args => Sys2Proof.Machine.execCmdCheckCrc args s
  | .cmdAppRun args => Sys2Proof.Machine.execCmdAppRun args s
  | .cmdEraseUserData args => Sys2Proof.Machine.execCmdEraseUserData args s
  | .cmdReserved op args => Sys2Proof.Machine.execCmdReserved op args s
  | .rspOk op => Sys2Proof.Machine.execRspOk op s
  | .rspFail op => Sys2Proof.Machine.execRspFail op s
  | .rspEraseFail region sector => Sys2Proof.Machine.execRspEraseFail region sector s
  | .rspPrecond op => Sys2Proof.Machine.execRspPrecond op s
  | .evtProgress region total done => Sys2Proof.Machine.execEvtProgress region total done s
  | .wireFrame payload => Sys2Proof.Machine.execWireFrame payload s
  | .wireStart => Sys2Proof.Machine.execWireStart s
  | .wireEsc literal => Sys2Proof.Machine.execWireEsc literal s
  | .opReset => Sys2Proof.Machine.execOpReset s
  | .opRxBegin => Sys2Proof.Machine.execOpRxBegin s
  | .opRxStep input => Sys2Proof.Machine.execOpRxStep input s
  | .opTxBegin n => Sys2Proof.Machine.execOpTxBegin n s
  | .opTxStep => Sys2Proof.Machine.execOpTxStep s
  | .opVerIdentity => Sys2Proof.Machine.execOpVerIdentity s
  | .opVerFirmware => Sys2Proof.Machine.execOpVerFirmware s
  | .opCtlPoll => Sys2Proof.Machine.execOpCtlPoll s

end Sys2Proof.Machine
end

