-- ==== Sys2Proof/Machine/Fetch.lean ====
section
/-! DEFINITION. Where the next instruction comes from. An operation the caller has lined up is next
(spec/00_scope.md R14). With nothing lined up the loop polls (R345): a poll in `RX_WAIT` whose byte
completes a packet runs the command the packet decodes to (43_control_fsm.md R213, R215), any other
poll is `ctl_poll` itself. -/

namespace Sys2Proof.Machine

/-- The command that an `RX_WAIT` poll completes, and the state in which it is dispatched (R213). -/
def fetchCommand (s : State) : Option (Instr × State) :=
  if s.ctl.state = .rxWait then
    match rxWaitPull s with
    | .ok (.stepped .received s1) =>
      match s1.packet with
      | .ok bytes =>
        match decodeCommand s1.cfg bytes with
        | .ok i => some (i, s1)
        | .error _ => none
      | .error _ => none
    | .ok (.stepped .broken _) => none
    | .ok (.stepped .notReceived _) => none
    | .ok (.autoBoot _) => none
    | .error _ => none
  else none

/-- The next instruction and the state in which it runs. -/
def fetch (s : State) : Instr × State :=
  match s.caller with
  | i :: rest => (i, { s with caller := rest })
  | [] =>
    match fetchCommand s with
    | some next => next
    | none => (.opCtlPoll, s)

/-- The receiver waiting for the last byte of the frame of `packet`, every earlier byte taken
(R128 to R132), and that byte next on the line, its escape prefix taken too if it has one. -/
def rxAwaitLast (packet : List Byte) (s : State) : State :=
  let n := BitVec.ofNat 16 packet.length
  let body := s.cfg.frameBody packet
  let last := body.getLastD 0
  let ck := s.cfg.checksum (framedBytes packet)
  { s with
    buf := memSetBytes s.buf 0 packet
    rx := {
      state := if s.cfg.crcEnable then .crcHi else .body
      esc := s.cfg.reserved last
      len := n
      cnt := if s.cfg.crcEnable then n else n - 1
      ck := ck
      ckrx := zext16 (lo8 ck) }
    env := { s.env with serialIn := some last :: s.env.serialIn } }

/-- The machine about to receive `packet` in its next poll: `RX_WAIT` with the frame's last byte next
on the line, nothing lined up by the caller, and no auto-boot due (R214). -/
def awaitPacket (packet : List Byte) (s : State) : State :=
  let s1 := rxAwaitLast packet s
  { s1 with
    caller := []
    ctl := { s1.ctl with
      state := .rxWait
      firmwareValid := s1.ctl.firmwareValid && !s1.autoBootArmed } }

/-- `s` with the instruction next: a command is put on the serial line, which is where commands are
fetched from; any other instruction is lined up by the caller. -/
def State.withNext (i : Instr) (s : State) : State :=
  match i.format with
  | .cmd => awaitPacket (encode s.cfg i) s
  | .rsp => { s with caller := i :: s.caller }
  | .wire => { s with caller := i :: s.caller }
  | .op => { s with caller := i :: s.caller }

end Sys2Proof.Machine
end

