-- ==== Sys2Proof/Machine/Step.lean ====
section
/-! DEFINITION. One step: one invocation of exactly one operation (spec/00_scope.md R14). -/

namespace Sys2Proof.Machine

/-- One step of the machine. A configuration that breaks 00_scope.md section 4 is refused (R9, U4). -/
def step (s : State) : Host.Outcome State Fault Refusal :=
  if s.cfg.WF then exec (fetch s).1 (fetch s).2 else .refused .badConfiguration

/-- `s` with the instruction of a table word where `step` fetches its next one (log 9, log 16). -/
def State.withFetchWord (s : State) (nbits w : Nat) : State :=
  match s.cfg.tableInstr nbits w with
  | some i => s.withNext i
  | none => s

end Sys2Proof.Machine
end

