-- ==== Sys2Proof/Safety.lean ====
section
/-! DEFINITION. The terms that claims about the machine use: runs of operations, what it means for a
packet to stand in the exchange buffer or to be queued for sending, the transition relation of
spec/43_control_fsm.md R250, and the invariant that every poll keeps (R252, with R21, R23, R24, R27
and R29 of 10_state.md). -/

namespace Sys2Proof.Machine

/-- The operations, one after the other (00_scope.md R14), up to the first that stops. -/
def runOps : List Instr → State → Outcome
  | [], s => .next s
  | i :: rest, s =>
    match exec i s with
    | .next t => runOps rest t
    | .fault f => .fault f
    | .refused r => .refused r

/-- One `rx_step` for each input, `none` being "no byte" (R122). -/
def rxRun (inputs : List (Option Byte)) (s : State) : Outcome :=
  runOps (inputs.map Instr.opRxStep) s

/-- `n` invocations of `tx_step`. -/
def txRun (n : Nat) (s : State) : Outcome := runOps (List.replicate n .opTxStep) s

/-! ### Packets -/

/-- `ctl_state <- p` with `ctl_sub <- ENTER` (R32), the other registers kept. -/
def CtlRegs.enters (p : CtlPhase) (c : CtlRegs) : CtlRegs := { c with state := p, sub := .enter }

/-- `buf[0 .. |packet|-1] = packet`. -/
def State.holds (packet : List Byte) (s : State) : Prop := s.bufGetBytes 0 packet.length = .ok packet

/-- The contents of a memory after `bytes` were written from index 0 on, and nothing else. -/
def Memory.Written (bytes : List Byte) (m m' : Memory) : Prop :=
  ∀ i, memGet? m' i = if i < bytes.length then bytes[i]? else memGet? m i

/-- What `tx_begin` leaves in the transmitter for a packet (R161). -/
def TxRegs.Loaded (c : Config) (packet : List Byte) (old new : TxRegs) : Prop :=
  new.state = .start ∧ new.escSent = false ∧ new.len.toNat = packet.length ∧ new.idx = 0 ∧
  new.ck = if c.crcEnable then c.checksum (framedBytes packet) else old.ck

/-- `t` is `s` with `packet` built at `buf[0 ..]` and handed to the transmitter, the control FSM's
registers now `ctl` (R223, R230). The rest of `buf`, the receiver, the configuration, the caller and
the recorded result are as they were; of `plain`, `env` and `trace` it says nothing. -/
def Queued (packet : List Byte) (ctl : CtlRegs) (s t : State) : Prop :=
  Memory.Written packet s.buf t.buf ∧ TxRegs.Loaded s.cfg packet s.tx t.tx ∧ t.ctl = ctl ∧
  t.rx = s.rx ∧ t.cfg = s.cfg ∧ t.caller = s.caller ∧ t.result = s.result

/-- Neither `plain` nor anything outside the block changed, no port was called and no error raised. -/
def Quiet (s t : State) : Prop := t.plain = s.plain ∧ t.env = s.env ∧ t.trace = s.trace

/-- A byte that the classification of R123 delivers as a literal outside `WAIT_START`: with an escape
pending only `START` and `ESC` are literals, otherwise every other byte is. -/
def State.Literal (b : Byte) (s : State) : Prop :=
  s.rx.state ≠ .waitStart ∧ s.cfg.reserved b = s.rx.esc

/-- Nothing but the receiver, `buf`, the recorded result and the trace differs. -/
def RxOnly (s t : State) : Prop :=
  t.tx = s.tx ∧ t.ctl = s.ctl ∧ t.plain = s.plain ∧ t.env = s.env ∧ t.cfg = s.cfg ∧
    t.caller = s.caller

/-- The receiver delivered `payload` (R133, R145): it is what `buf` holds, `rx_len` its length, the
receiver is armed again, and nothing but the receiver, the recorded result and those bytes of `buf`
differs from `s`. -/
def Received (payload : List Byte) (s t : State) : Prop :=
  t.result = .rx .received ∧ t.rx.state = .waitStart ∧ t.rx.esc = false ∧
    t.rx.len.toNat = payload.length ∧ t.holds payload ∧ Memory.Written payload s.buf t.buf ∧
    RxOnly s t

/-- The logical byte the transmitter is to send (R166), where it has one. -/
def State.logicalByte (s : State) : Option Byte :=
  match s.tx.state with
  | .start => none
  | .lenLo => some (lo8 s.tx.len)
  | .lenHi => some (hi8 s.tx.len)
  | .body => if s.tx.idx.toNat < s.cfg.cap then memGet? s.buf s.tx.idx.toNat else none
  | .crcLo => some (lo8 s.tx.ck)
  | .crcHi => some (hi8 s.tx.ck)
  | .done => none

/-- `s` after `sink(b)` was answered by the first of the listed answers `accepted :: rest`, with the
transmitter's registers `tx` and the result `r` (R163, R346). -/
def State.offered (b : Byte) (accepted : Bool) (rest : List Bool) (tx : TxRegs) (r : TxResult)
    (s : State) : State :=
  { s with
    tx := tx
    env := { s.env with
      sinkReady := rest
      serialOut := if accepted then s.env.serialOut ++ [b] else s.env.serialOut }
    result := .tx r
    trace := s.trace ++ [.serialPut b accepted] }

/-! ### The verifier -/

/-- What `ver_open` leaves in `plain` and which error it raises (R192, R193). -/
def Opened (chunk : List Byte) (s : State) (plain : Memory) (raised : List Event) : Prop :=
  match openChunk s.cfg chunk with
  | none =>
    Memory.Written (List.replicate s.cfg.p 0) s.plain plain ∧ raised = [.raised .authentication]
  | some plaintext =>
    plaintext.length = s.cfg.p ∧ Memory.Written plaintext s.plain plain ∧ raised = []

/-- `ver_identity` passes the chunk (R196). -/
def IdentityPasses (c : Config) (chunk : List Byte) : Prop :=
  ∃ plaintext, openChunk c chunk = some plaintext ∧ (chunkLength chunk).toNat = c.p ∧
    chunkAddress chunk = c.fwTotalSize ∧ plaintext = c.ident

/-- `ver_firmware` passes the chunk (R195); the range test is in unbounded integers (R15 (d)). -/
def FirmwarePasses (c : Config) (chunk : List Byte) : Prop :=
  (∃ plaintext, openChunk c chunk = some plaintext) ∧
    0 < (chunkLength chunk).toNat ∧ (chunkLength chunk).toNat ≤ c.p ∧
    c.appBase ≤ (chunkAddress chunk).toNat ∧
    (chunkAddress chunk).toNat + (chunkLength chunk).toNat ≤ c.appEnd

/-! ### The control FSM's transition relation -/

/-- The targets R250 lists for each state, `reset` apart. -/
def CtlPhase.targets : CtlPhase → List CtlPhase
  | .init => [.handoff, .main]
  | .main => [.rxWait]
  | .rxWait => [.handoff, .rxWait, .main, .sendResp, .begin, .appRun, .userDataClear]
  | .begin => [.flashClear]
  | .flashClear => [.sendResp, .sendEventFlashClear]
  | .sendEventFlashClear => [.sendEventFlashClear, .sendEventFlashClear1]
  | .sendEventFlashClear1 => [.sendEventFlashClear1, .flashClear]
  | .userDataClear => [.sendResp, .sendEventUserDataClear]
  | .sendEventUserDataClear => [.sendEventUserDataClear, .sendEventUserDataClear1]
  | .sendEventUserDataClear1 => [.sendEventUserDataClear1, .userDataClear]
  | .sendResp => [.sendResp, .sendResp1]
  | .sendResp1 => [.sendResp1, .main]
  | .appRun => [.appRun, .appRun1]
  | .appRun1 => [.appRun1, .appRun2]
  | .appRun2 => [.appRun2, .handoff]
  | .handoff => [.handoff]

/-- The states a session that is not activated can be in (R252 (a)). -/
def CtlPhase.ungated : CtlPhase → Bool
  | .init | .main | .rxWait | .handoff => true
  | .begin | .flashClear | .sendEventFlashClear | .sendEventFlashClear1 | .userDataClear
  | .sendEventUserDataClear | .sendEventUserDataClear1 | .appRun | .appRun1 | .appRun2 | .sendResp
  | .sendResp1 => false

/-- The states in which a transmission may be pending (R252 (c)). -/
def CtlPhase.sending : CtlPhase → Bool
  | .sendResp | .sendResp1 | .appRun | .appRun1 | .sendEventFlashClear | .sendEventFlashClear1
  | .sendEventUserDataClear | .sendEventUserDataClear1 => true
  | .init | .main | .rxWait | .begin | .flashClear | .userDataClear | .appRun2 | .handoff => false

/-- The states of an accepted `APP_RUN` (R235 to R237). -/
def CtlPhase.running : CtlPhase → Bool
  | .appRun | .appRun1 | .appRun2 => true
  | .init | .main | .rxWait | .begin | .flashClear | .sendEventFlashClear | .sendEventFlashClear1
  | .userDataClear | .sendEventUserDataClear | .sendEventUserDataClear1 | .sendResp | .sendResp1
  | .handoff => false

/-- The region an erase state treats, and whether the state sends that region's event: the cursor
is then still at the sector reported (R225). -/
def CtlPhase.erasing : CtlPhase → Option (Region × Bool)
  | .flashClear => some (.app, false)
  | .sendEventFlashClear | .sendEventFlashClear1 => some (.app, true)
  | .userDataClear => some (.ud, false)
  | .sendEventUserDataClear | .sendEventUserDataClear1 => some (.ud, true)
  | .init | .main | .rxWait | .begin | .appRun | .appRun1 | .appRun2 | .sendResp | .sendResp1
  | .handoff => none

/-! ### The invariant -/

/-- The receiver's registers mean what 10_state.md says: R21 (no escape pending when idle), R23 (the
count of stored literals), R24 (the running checksum), R20 (no checksum states without
`CRC_ENABLE`). -/
def State.RxOk (s : State) : Prop :=
  match s.rx.state with
  | .waitStart => s.rx.esc = false
  | .lenLo => s.rx.cnt = 0 ∧ s.rx.ck = s.cfg.ckSeed
  | .lenHi => s.rx.cnt = 0 ∧ ∃ b, s.rx.len = zext16 b ∧ s.rx.ck = s.cfg.checksum [b]
  | .body => s.rx.cnt.toNat < s.rx.len.toNat ∧ s.rx.len.toNat ≤ s.cfg.cap ∧
      ∃ stored, stored.length = s.rx.cnt.toNat ∧ s.holds stored ∧
        s.rx.ck = s.cfg.checksum (le16 s.rx.len ++ stored)
  | .crcLo => s.cfg.crcEnable = true ∧ s.rx.len.toNat ≤ s.cfg.cap ∧
      ∃ packet, packet.length = s.rx.len.toNat ∧ s.holds packet ∧
        s.rx.ck = s.cfg.checksum (framedBytes packet)
  | .crcHi => s.cfg.crcEnable = true ∧ s.rx.len.toNat ≤ s.cfg.cap ∧ (∃ b, s.rx.ckrx = zext16 b) ∧
      ∃ packet, packet.length = s.rx.len.toNat ∧ s.holds packet ∧
        s.rx.ck = s.cfg.checksum (framedBytes packet)

/-- The packet being sent stands in `buf`, is `tx_len` long and has the checksum `tx_ck` (R28, R30,
R162). -/
def State.TxPacket (s : State) : Prop :=
  s.tx.len.toNat ≤ s.cfg.cap ∧
    ∃ packet, packet.length = s.tx.len.toNat ∧ s.holds packet ∧
      (s.cfg.crcEnable = true → s.tx.ck = s.cfg.checksum (framedBytes packet))

/-- The transmitter's registers mean what 10_state.md says: R27 (no prefix sent in `T_START` and
`T_DONE`), R28, R29 (the index), R30, R26 (no checksum states without `CRC_ENABLE`). -/
def State.TxOk (s : State) : Prop :=
  match s.tx.state with
  | .start => s.TxPacket ∧ s.tx.escSent = false ∧ s.tx.idx = 0
  | .lenLo => s.TxPacket ∧ s.tx.idx = 0
  | .lenHi => s.TxPacket ∧ s.tx.idx = 0
  | .body => s.TxPacket ∧ s.tx.idx.toNat < s.tx.len.toNat
  | .crcLo => s.TxPacket ∧ s.cfg.crcEnable = true
  | .crcHi => s.TxPacket ∧ s.cfg.crcEnable = true
  | .done => s.tx.escSent = false

/-- What holds after every poll from reset (R252 and the register rules it rests on). -/
structure Invariant (s : State) : Prop where
  /-- the configuration is legal (00_scope.md section 4) -/
  cfg : s.cfg.WF
  /-- only the polling loop invokes operations (R345) -/
  caller : s.caller = []
  /-- R20, R21, R23, R24 -/
  rx : s.RxOk
  /-- R26 to R30 -/
  tx : s.TxOk
  /-- `buf` is canonical and inside its capacity (R50) -/
  buf : Memory.wfBelow s.cfg.cap s.buf
  /-- `plain` is canonical and inside its size (R52) -/
  plain : Memory.wfBelow s.cfg.p s.plain
  /-- flash is canonical (R54) -/
  flash : Memory.wf s.env.flash
  /-- R252 (a) -/
  gate : s.ctl.activated = false → s.ctl.state.ungated = true
  /-- R252 (b) -/
  update : s.ctl.updateInProgress = true → s.ctl.firmwareValid = false
  /-- R252 (c) -/
  sending : s.tx.state ≠ .done → s.ctl.state.sending = true
  /-- R252 (d) -/
  receiving : s.rx.state ≠ .waitStart → s.ctl.state = .rxWait ∨ s.ctl.state = .handoff
  /-- R252 (e), and the staged plaintext stands in `plain` (R36) -/
  staged : s.ctl.stagedValid = true →
    s.cfg.appBase ≤ s.ctl.stagedAddr.toNat ∧
    s.ctl.stagedAddr.toNat + s.ctl.stagedLen.toNat ≤ s.cfg.appEnd ∧
    1 ≤ s.ctl.stagedLen.toNat ∧ s.ctl.stagedLen.toNat ≤ s.cfg.p ∧
    ∃ bytes, s.plainGetBytes 0 s.ctl.stagedLen.toNat = .ok bytes
  /-- R252 (f) -/
  handoff : s.trace.count .handoff = if s.ctl.state = .handoff then 1 else 0
  /-- before the first poll no update is in progress (R42) -/
  init : s.ctl.state = .init → s.ctl.updateInProgress = false
  /-- the erase cursor (R37) and, for the application, the flags BEGIN cleared (R220, R222) -/
  erasing : ∀ r sends, s.ctl.state.erasing = some (r, sends) →
    s.ctl.eraseOp = opcodeOfRegion r ∧ s.cfg.hasRegion r = true ∧
    (if sends then s.ctl.eraseIdx.toNat < s.cfg.sectors r
      else s.ctl.eraseIdx.toNat ≤ s.cfg.sectors r) ∧
    (r = .app → s.ctl.firmwareValid = false ∧ s.ctl.updateInProgress = false)
  /-- an accepted `APP_RUN` found the flash valid as it is (R267, R238) -/
  running : s.ctl.state.running = true →
    s.ctl.firmwareValid = true ∧ fwCheckValue s.cfg s.env.flash = true
  /-- the application is entered only with `firmware_valid` (R211, R214, R267) -/
  entered : s.ctl.state = .handoff → s.ctl.firmwareValid = true

end Sys2Proof.Machine
end

