-- ==== Sys2Proof/Certificates/Slice0/Obligations.lean ====
section
/-! DEFINITION. The statements for the provers. Each docstring names the rules of spec/ it
formalises. But for the second clause of `InvAtReset` no statement rests on a value the model chose
for a register at reset or on the configuration of `State.reset`, and none on what an unlisted
flash address reads as. "Log n" is notes/assumptions/n.md: a clause so marked is the model's
choice. -/

section

open Sys2Proof Sys2Proof.Machine

/-! ### Encoding -/

/-- Decoding undoes encoding, for every well-formed instruction that has an encoding, under every
legal configuration (30_encoding.md). -/
def Obligations.DecodeEncode : Prop :=
  ∀ (c : Config) (i : Instr), c.WF → i.wf c = true → i.format ≠ .op →
    decode c i.format (encode c i) = .ok i

/-- Encoding undoes decoding: bytes that decode are the one encoding of what they decode to. -/
def Obligations.EncodeDecode : Prop :=
  ∀ (c : Config) (fmt : Format) (bytes : List Byte) (i : Instr), c.WF →
    decode c fmt bytes = .ok i → i.format = fmt ∧ encode c i = bytes

/-- The escape code is lossless and is decoded byte by byte as R88 says; a pair `ESC, x` with `x`
no reserved value is rejected (R89). -/
def Obligations.EscapeLossless : Prop :=
  ∀ c : Config, c.start ≠ c.esc →
    (∀ bytes, c.unescape false (c.escape bytes) = .ok bytes) ∧
    (∀ b rest, c.reserved b = true →
      c.unescape false (c.esc :: b :: rest) = (c.unescape false rest).map (b :: ·)) ∧
    (∀ b rest, c.reserved b = false →
      c.unescape false (b :: rest) = (c.unescape false rest).map (b :: ·)) ∧
    (∀ b rest, c.reserved b = false →
      c.unescape false (c.esc :: b :: rest) = .error .invalidEscape)

/-- R90: how many bytes a frame takes on the wire. -/
def Obligations.FrameSize : Prop :=
  ∀ (c : Config) (payload : List Byte),
    let n := payload.length
    let ck := if c.crcEnable then 2 else 0
    (c.frameBytes payload).length = 1 + (2 + n + ck) + (c.frameBody payload).countP c.reserved ∧
    3 + n + ck ≤ (c.frameBytes payload).length ∧
    (c.frameBytes payload).length ≤ 1 + 2 * (2 + n + ck)

/-- Words written out from the spec's encodings decode to the instructions they stand for: a
response frame (R116), the packets of R106 to R108, commands (R95, R102, R105, R110), the symbols
(R86, R87). -/
def Obligations.DecodedWords : Prop :=
  decode Config.ref4 .wire [0x7E, 0x02, 0x00, 0x70, 0x00, 0xF1, 0x61] =
    .ok (.wireFrame [0x70, 0x00]) ∧
  decode Config.ref4 .wire [0x7E, 0x02, 0x00, 0x7D, 0x7E, 0x7D, 0x7D, 0xC4, 0xED] =
    .ok (.wireFrame [0x7E, 0x7D]) ∧
  decode Config.ref4 .wire [0x7E] = .ok .wireStart ∧
  decode Config.ref4 .wire [0x7D, 0x7E] = .ok (.wireEsc 0x7E) ∧
  decode Config.ref4 .cmd [0x70, 0x41, 0x43, 0x54, 0x49, 0x56, 0x41, 0x54, 0x45] =
    .ok (.cmdActivate [0x41, 0x43, 0x54, 0x49, 0x56, 0x41, 0x54, 0x45]) ∧
  decode Config.ref4 .cmd [0x74] = .ok (.cmdEnd []) ∧
  decode Config.ref4 .cmd [0x77] = .ok (.cmdReserved 0x77 []) ∧
  decode Config.ref4 .rsp [0x70, 0x00] = .ok (.rspOk 0x70) ∧
  decode Config.ref4 .rsp [0x73, 0x02] = .ok (.rspPrecond 0x73) ∧
  decode Config.ref4 .rsp [0x71, 0x01, 0x02, 0x00, 0x00, 0x00] = .ok (.rspEraseFail .app 2) ∧
  decode Config.ref4 .rsp [0x71, 0xFF, 0x03, 0x00, 0x00, 0x00, 0x01, 0x00, 0x00, 0x00] =
    .ok (.evtProgress .app 3 1)

/-! ### Steps -/

/-- A step runs the next instruction: an operation the caller has lined up (R14), or the command
that the received packet decodes to, in the state that the receiving part of the poll leaves (R213,
R215). Where the next instruction is found is the model's choice: log 9, log 23. -/
def Obligations.StepRunsNext : Prop :=
  (∀ (s : State) (i : Instr) (rest : List Instr), s.cfg.WF → s.caller = i :: rest →
    step s = exec i { s with caller := rest }) ∧
  (∀ (s s1 : State) (bytes : List Byte) (i : Instr), s.cfg.WF → s.caller = [] →
    s.ctl.state = .rxWait → rxWaitPull s = .ok (.stepped .received s1) →
    s1.bufGetBytes 0 s1.rx.len.toNat = .ok bytes → decode s1.cfg .cmd bytes = .ok i →
    step s = exec i s1)

/-- With nothing lined up by the caller, a step is one poll (R210, R345), also where it runs the
command of a received packet: decoding the packet and dispatching it agree (R215; log 23). -/
def Obligations.StepPolls : Prop :=
  ∀ s : State, s.cfg.WF → s.caller = [] → step s = exec .opCtlPoll s

/-- R9: a configuration whose buffer is too small for the protocol is refused. -/
def Obligations.SmallBufferRefused : Prop :=
  ∀ s : State, (s.cfg.cap < 46 + s.cfg.p ∨ s.cfg.cap < 10) → step s = .refused .badConfiguration

/-! ### Reset -/

/-- What `reset` leaves (R42, R340, R341): the registers that have a reset value have it, no byte
of `buf` or `plain` can be read (R43; log 4), everything outside the block, the configuration and
what the caller has lined up are as they were (log 21). -/
def Obligations.ResetLeaves : Prop :=
  ∀ s : State, ∃ t, exec .opReset s = .next t ∧
    t.rx.state = .waitStart ∧ t.rx.esc = false ∧ t.tx.state = .done ∧ t.tx.escSent = false ∧
    t.ctl.state = .init ∧ t.ctl.sub = .enter ∧ t.ctl.activated = false ∧
    t.ctl.firmwareValid = false ∧ t.ctl.updateInProgress = false ∧ t.ctl.stagedValid = false ∧
    (∀ i, i < t.cfg.cap → t.bufGet i = .error (.bufUnwritten i)) ∧
    (∀ i, i < t.cfg.p → t.plainGet i = .error (.plainUnwritten i)) ∧
    t.env = s.env ∧ t.cfg = s.cfg ∧ t.caller = s.caller

/-- The invariant holds after reset, under every legal configuration and in all surroundings whose
flash is in canonical form; so it holds of `State.reset`, whose configuration and blank flash are
the model's choice (log 1, log 6). -/
def Obligations.InvAtReset : Prop :=
  (∀ (c : Config) (env : Env), c.WF → Memory.wf env.flash → Invariant (State.resetWith c env [])) ∧
  Invariant State.reset

/-! ### The receiver -/

/-- R120: `rx_begin` arms the receiver and writes nothing else; on an armed receiver, so after
`RECEIVED` and after `BROKEN`, it changes nothing. -/
def Obligations.RxBegin : Prop :=
  (∀ s : State, exec .opRxBegin s =
    .next { s with rx := { s.rx with state := .waitStart, esc := false } }) ∧
  (∀ s : State, s.rx.state = .waitStart → s.rx.esc = false → exec .opRxBegin s = .next s) ∧
  (∀ (s t : State) (input : Option Byte), exec (.opRxStep input) s = .next t →
    t.result = .rx .received ∨ t.result = .rx .broken → exec .opRxBegin t = .next t)

/-- R122: no byte is a no-op in every state. -/
def Obligations.RxNone : Prop :=
  ∀ s : State, exec (.opRxStep none) s = .next { s with result := .rx .notReceived }

/-- R121: in `WAIT_START` only `START` does anything, and nothing is classified. -/
def Obligations.RxIdle : Prop :=
  ∀ (s : State) (b : Byte), s.rx.state = .waitStart →
    exec (.opRxStep (some b)) s = .next { s with
      rx := if b = s.cfg.start
        then { s.rx with state := .lenLo, esc := false, cnt := 0, ck := s.cfg.ckSeed }
        else s.rx
      result := .rx .notReceived }

/-- R123 to R126: outside `WAIT_START` an `ESC` arms the escape and is consumed; a raw `START`, and
an escape pair whose second byte is no reserved value, abort the frame. -/
def Obligations.RxClassified : Prop :=
  ∀ s : State, s.cfg.start ≠ s.cfg.esc → s.rx.state ≠ .waitStart →
    (s.rx.esc = false →
      exec (.opRxStep (some s.cfg.esc)) s = .next { s with
        rx := { s.rx with esc := true }
        result := .rx .notReceived } ∧
      exec (.opRxStep (some s.cfg.start)) s = .next { s with
        rx := { s.rx with state := .waitStart, esc := false }
        result := .rx .broken
        trace := s.trace ++ [Event.raised .framingUnexpectedStart] }) ∧
    (s.rx.esc = true → ∀ b, b ≠ s.cfg.start → b ≠ s.cfg.esc →
      exec (.opRxStep (some b)) s = .next { s with
        rx := { s.rx with state := .waitStart, esc := false }
        result := .rx .broken
        trace := s.trace ++ [Event.raised .framingInvalidEscape] })

/-- R128, R129, R131: the two length literals. After the second the frame is too long, empty, or
goes on to its payload. -/
def Obligations.RxLength : Prop :=
  (∀ (s : State) (b : Byte), s.rx.state = .lenLo → s.Literal b →
    exec (.opRxStep (some b)) s = .next { s with
      rx := { s.rx with
        len := zext16 b, ck := s.cfg.ckUpdate s.rx.ck b, state := .lenHi, esc := false }
      result := .rx .notReceived }) ∧
  (∀ (s : State) (b : Byte), s.rx.state = .lenHi → s.Literal b →
    let len := unLe16 (lo8 s.rx.len) b
    let rx := { s.rx with len := len, ck := s.cfg.ckUpdate s.rx.ck b, esc := false }
    (s.cfg.cap < len.toNat →
      exec (.opRxStep (some b)) s = .next { s with
        rx := { rx with state := .waitStart }
        result := .rx .broken
        trace := s.trace ++ [Event.raised .framingOversize] }) ∧
    (0 < len.toNat → len.toNat ≤ s.cfg.cap →
      exec (.opRxStep (some b)) s = .next { s with
        rx := { rx with state := .body }, result := .rx .notReceived }) ∧
    (len.toNat = 0 → s.cfg.crcEnable = true →
      exec (.opRxStep (some b)) s = .next { s with
        rx := { rx with state := .crcLo }, result := .rx .notReceived }) ∧
    (len.toNat = 0 → s.cfg.crcEnable = false →
      exec (.opRxStep (some b)) s = .next { s with
        rx := { rx with state := .waitStart }, result := .rx .received }))

/-- R130, R131: a payload literal is stored at `buf[rx_cnt]` and nowhere else; the last one
completes the payload. -/
def Obligations.RxBody : Prop :=
  ∀ (s : State) (b : Byte), s.rx.state = .body → s.Literal b → s.rx.cnt.toNat < s.rx.len.toNat →
    s.rx.len.toNat ≤ s.cfg.cap →
    ∃ t, exec (.opRxStep (some b)) s = .next t ∧
      (∀ i, t.bufGet i = if i = s.rx.cnt.toNat then .ok b else s.bufGet i) ∧
      t.rx = { s.rx with
        cnt := s.rx.cnt + 1, ck := s.cfg.ckUpdate s.rx.ck b, esc := false
        state := if s.rx.cnt.toNat + 1 < s.rx.len.toNat then .body
          else if s.cfg.crcEnable then .crcLo else .waitStart } ∧
      t.result = .rx (if s.rx.cnt.toNat + 1 < s.rx.len.toNat ∨ s.cfg.crcEnable = true
        then .notReceived else .received) ∧
      t.trace = s.trace ∧ RxOnly s t

/-- R132: the two checksum literals; the frame is delivered exactly when the checksum received is
the running one. -/
def Obligations.RxChecksum : Prop :=
  (∀ (s : State) (b : Byte), s.rx.state = .crcLo → s.Literal b →
    exec (.opRxStep (some b)) s = .next { s with
      rx := { s.rx with ckrx := zext16 b, state := .crcHi, esc := false }
      result := .rx .notReceived }) ∧
  (∀ (s : State) (b : Byte), s.rx.state = .crcHi → s.Literal b →
    let ckrx := unLe16 (lo8 s.rx.ckrx) b
    let rx := { s.rx with ckrx := ckrx, state := .waitStart, esc := false }
    (ckrx = s.rx.ck →
      exec (.opRxStep (some b)) s = .next { s with rx := rx, result := .rx .received }) ∧
    (ckrx ≠ s.rx.ck →
      exec (.opRxStep (some b)) s = .next { s with
        rx := rx
        result := .rx .broken
        trace := s.trace ++ [Event.raised .framingChecksum] }))

/-- What an `rx_step` never touches, and that it raises at most one error (R306): outside `BODY` it
stores nothing, in `BODY` at most `buf[rx_cnt]`. -/
def Obligations.RxFrame : Prop :=
  ∀ (s t : State) (input : Option Byte), exec (.opRxStep input) s = .next t →
    RxOnly s t ∧
    (s.rx.state ≠ .body → t.buf = s.buf) ∧
    (∀ i, i ≠ s.rx.cnt.toNat → t.bufGet i = s.bufGet i) ∧
    (t.trace = s.trace ∨
      ∃ e, t.trace = s.trace ++ [Event.raised e] ∧ t.result = .rx .broken ∧
        e ∈ [ErrorClass.framingUnexpectedStart, .framingInvalidEscape, .framingOversize,
          .framingChecksum])

/-- `rx_step` always answers, with one of its three results, and a result other than `NOT_RECEIVED`
leaves the receiver armed (R133); only a literal in `BODY` with `rx_cnt` outside the buffer, which
the invariant R23 excludes, stops the model (the model's choice, log 17). -/
def Obligations.RxCompletes : Prop :=
  ∀ (s : State) (input : Option Byte),
    ((s.rx.state = .body → s.rx.cnt.toNat < s.cfg.cap) →
      ∃ t r, exec (.opRxStep input) s = .next t ∧ t.result = .rx r ∧
        (r ≠ .notReceived → t.rx.state = .waitStart ∧ t.rx.esc = false)) ∧
    (∀ b, input = some b → s.rx.state = .body → s.Literal b → s.cfg.cap ≤ s.rx.cnt.toNat →
      exec (.opRxStep input) s = .fault (.bufIndex s.rx.cnt.toNat))

/-- R145, the receiving half of the round trip: the bytes of a frame, with any number of "no byte"
between them, deliver its payload with the last byte and nothing before. -/
def Obligations.RxReceivesFrame : Prop :=
  ∀ (s : State) (payload : List Byte) (inputs : List (Option Byte)),
    s.cfg.start ≠ s.cfg.esc → s.cfg.cap ≤ 65535 → payload.length ≤ s.cfg.cap →
    s.rx.state = .waitStart → inputs.reduceOption = s.cfg.frameBytes payload →
    inputs.getLast? ≠ some none →
    (∃ t, rxRun inputs s = .next t ∧ Received payload s t ∧ t.trace = s.trace) ∧
    (∀ k, 0 < k → k < inputs.length →
      ∃ u, rxRun (inputs.take k) s = .next u ∧ u.result = .rx .notReceived)

/-- A whole frame on the wire (R80): in every state it is the reception of its bytes one after the
other, and an idle receiver delivers its payload. That the row means its reception is the model's
choice (log 11). -/
def Obligations.WireFrame : Prop :=
  (∀ (s : State) (payload : List Byte),
    exec (.wireFrame payload) s = rxRun ((s.cfg.frameBytes payload).map some) s) ∧
  (∀ (s : State) (payload : List Byte), s.cfg.start ≠ s.cfg.esc → s.cfg.cap ≤ 65535 →
    payload.length ≤ s.cfg.cap → s.rx.state = .waitStart →
    ∃ t, exec (.wireFrame payload) s = .next t ∧ Received payload s t ∧ t.trace = s.trace)

/-- The raw marker (R86): it opens a frame when the receiver is idle (R121) and breaks the frame in
progress otherwise (R126), unless an `ESC` before it made it a literal (R123). That the row means
its reception is the model's choice (log 11). -/
def Obligations.WireStart : Prop :=
  ∀ s : State,
    (s.rx.state = .waitStart → exec .wireStart s = .next { s with
      rx := { s.rx with state := .lenLo, esc := false, cnt := 0, ck := s.cfg.ckSeed }
      result := .rx .notReceived }) ∧
    (s.rx.state ≠ .waitStart → s.rx.esc = false → s.cfg.start ≠ s.cfg.esc →
      exec .wireStart s = .next { s with
        rx := { s.rx with state := .waitStart, esc := false }
        result := .rx .broken
        trace := s.trace ++ [Event.raised .framingUnexpectedStart] }) ∧
    (s.rx.esc = true → exec .wireStart s = exec (.opRxStep (some s.cfg.start)) s)

/-- The escape pair (R87): in every state it is the reception of its two bytes. It completes, changing
only the receiver, `buf`, the recorded result and the trace; inside a frame it is the literal after
the prefix (R125, R123 (1)), unless an `ESC` before it made the prefix itself the literal (R123), and
an idle receiver drops the prefix and takes a `START` after it as a marker (R121). That the row means
its reception is the model's choice (log 11). -/
def Obligations.WireEsc : Prop :=
  (∀ (s : State) (b : Byte), exec (.wireEsc b) s = rxRun [some s.cfg.esc, some b] s) ∧
  ∀ (s : State) (b : Byte), s.cfg.start ≠ s.cfg.esc → s.cfg.reserved b = true →
    (s.rx.state = .body → s.rx.cnt.toNat < s.cfg.cap) →
    ∃ t, exec (.wireEsc b) s = .next t ∧ RxOnly s t ∧
      (s.rx.state ≠ .waitStart → s.rx.esc = false →
        exec (.opRxStep (some b)) { s with rx := { s.rx with esc := true } } = .next t) ∧
      (s.rx.esc = true → ∃ u, exec (.opRxStep (some s.cfg.esc)) s = .next u ∧
        exec (.opRxStep (some b)) u = .next t) ∧
      (s.rx.state = .waitStart → exec (.opRxStep (some b)) s = .next t)

/-- R147: a raw `START` inside a frame breaks it, and the next complete frame is received, whatever
bytes but `START` come between. -/
def Obligations.RxResynchronizes : Prop :=
  ∀ (s : State) (noise payload : List Byte), s.cfg.start ≠ s.cfg.esc → s.cfg.cap ≤ 65535 →
    payload.length ≤ s.cfg.cap → s.rx.state ≠ .waitStart → s.rx.esc = false →
    s.cfg.start ∉ noise →
    (∃ u, exec .wireStart s = .next u ∧ u.result = .rx .broken ∧ u.rx.state = .waitStart) ∧
    ∃ t, rxRun ((s.cfg.start :: noise ++ s.cfg.frameBytes payload).map some) s = .next t ∧
      Received payload s t

/-- R24, R148: the receiver's registers keep their meaning, and a frame is delivered only if the
checksum assembled from its last two literals is `CK` of the length and payload delivered. -/
def Obligations.RxSound : Prop :=
  ∀ (s t : State) (input : Option Byte), s.cfg.cap ≤ 65535 → s.RxOk →
    exec (.opRxStep input) s = .next t →
    t.RxOk ∧
    (t.result = .rx .received → ∃ payload,
      payload.length = t.rx.len.toNat ∧ t.holds payload ∧
      (s.cfg.crcEnable = true → t.rx.ckrx = s.cfg.checksum (framedBytes payload)))

/-! ### The transmitter -/

/-- R161: `tx_begin(n)` of bytes that have been written (R43) loads the transmitter, computes the
checksum of what `buf` holds and offers nothing. -/
def Obligations.TxBegin : Prop :=
  ∀ (s : State) (n : Nat) (packet : List Byte), n ≤ s.cfg.cap → s.cfg.cap ≤ 65535 →
    packet.length = n → s.holds packet →
    ∃ tx, exec (.opTxBegin n) s = .next { s with tx := tx } ∧ TxRegs.Loaded s.cfg packet s.tx tx

/-- Where operations and polls stop, in states that no poll from reset reaches: `tx_begin` refuses a
packet longer than `CAP` (R161; the refusal's name: log 18) and, with or without `CRC_ENABLE`, one
with a byte that nothing has written (R43; log 18); by the model's choice a poll faults where its
`tx_step` does (log 4) and at an erase cursor beyond its region (log 17). -/
def Obligations.ModelStops : Prop :=
  (∀ (s : State) (n : Nat), s.cfg.cap < n → exec (.opTxBegin n) s = .refused (.packetTooLong n)) ∧
  (∀ (s : State) (n : Nat), n ≤ s.cfg.cap →
    (∃ i, i < n ∧ memGet? s.buf i = none) →
    exec (.opTxBegin n) s = .refused (.packetUnwritten n)) ∧
  (∀ (s : State) (f : Fault), exec .opTxStep s = .fault f →
    s.ctl.state ∈ [CtlPhase.sendResp1, .appRun1, .sendEventFlashClear1, .sendEventUserDataClear1] →
    exec .opCtlPoll s = .fault f) ∧
  (∀ (s : State) (r : Region),
    s.ctl.state = (match r with | .app => .flashClear | .ud => .userDataClear) →
    s.cfg.sectors r < s.ctl.eraseIdx.toNat →
    exec .opCtlPoll s = .fault (.sectorRange r s.ctl.eraseIdx.toNat))

/-- R165, R169: the marker goes out raw; in `T_DONE` nothing is offered and nothing changes. -/
def Obligations.TxMarkerAndDone : Prop :=
  (∀ (s : State) (accepted : Bool) (rest : List Bool), s.tx.state = .start →
    s.env.sinkReady = accepted :: rest →
    exec .opTxStep s = .next (s.offered s.cfg.start accepted rest
      (if accepted then { s.tx with state := .lenLo } else s.tx) .notTransmitted)) ∧
  (∀ s : State, s.tx.state = .done → exec .opTxStep s = .next { s with result := .tx .transmitted })

/-- R164: a refused offer changes no register, in whatever state; what was offered is offered
again. -/
def Obligations.TxBusy : Prop :=
  (∀ (s : State) (cur : Byte) (rest : List Bool), s.logicalByte = some cur →
    s.env.sinkReady = false :: rest →
    exec .opTxStep s = .next (s.offered
      (if s.cfg.reserved cur ∧ s.tx.escSent = false then s.cfg.esc else cur) false rest s.tx
      .notTransmitted)) ∧
  (∀ (s t : State) (rest : List Bool), s.tx.state ≠ .done → s.env.sinkReady = false :: rest →
    exec .opTxStep s = .next t →
    t.tx = s.tx ∧ t.result = .tx .notTransmitted ∧ t.env.serialOut = s.env.serialOut)

/-- R166 to R168: an accepted offer of the logical byte of a state: its prefix first where it needs
one, then itself, whereupon the transmitter advances. -/
def Obligations.TxAccepted : Prop :=
  ∀ (s : State) (cur : Byte) (rest : List Bool), s.logicalByte = some cur →
    s.env.sinkReady = true :: rest →
    let after : TxPhase := if s.cfg.crcEnable then .crcLo else .done
    (s.cfg.reserved cur = true → s.tx.escSent = false →
      exec .opTxStep s =
        .next (s.offered s.cfg.esc true rest { s.tx with escSent := true } .notTransmitted)) ∧
    ((s.cfg.reserved cur = false ∨ s.tx.escSent = true) →
      ∃ tx, exec .opTxStep s = .next (s.offered cur true rest tx
          (if tx.state = .done then .transmitted else .notTransmitted)) ∧
        tx.escSent = false ∧ tx.len = s.tx.len ∧ tx.ck = s.tx.ck ∧
        tx.idx = (if s.tx.state = .body then s.tx.idx + 1 else s.tx.idx) ∧
        (s.tx.state = .lenLo → tx.state = .lenHi) ∧
        (s.tx.state = .lenHi → tx.state = if s.tx.len = 0 then after else .body) ∧
        (s.tx.state = .body → tx.state = if s.tx.idx + 1 = s.tx.len then after else .body) ∧
        (s.tx.state = .crcLo → tx.state = .crcHi) ∧
        (s.tx.state = .crcHi → tx.state = .done))

/-- R160, R163: a `tx_step` answers whenever the byte to send can be read; it makes one offer, none
in `T_DONE`; it returns `TRANSMITTED` exactly when it leaves `T_DONE` behind it; and it touches
nothing but the transmitter and the transmit stream. A payload byte that nothing has written stops
the model (R43; log 4). -/
def Obligations.TxCompletes : Prop :=
  (∀ (s : State) (f : Fault), s.tx.state = .body → s.bufGet s.tx.idx.toNat = .error f →
    exec .opTxStep s = .fault f) ∧
  (∀ s : State, (s.tx.state = .body → ∃ b, s.bufGet s.tx.idx.toNat = .ok b) →
    ∃ t, exec .opTxStep s = .next t ∧
      (t.result = .tx .transmitted ↔ t.tx.state = .done) ∧
      (t.result = .tx .transmitted ∨ t.result = .tx .notTransmitted) ∧
      (s.tx.state = .done → t.trace = s.trace) ∧
      (s.tx.state ≠ .done → ∃ b accepted, t.trace = s.trace ++ [Event.serialPut b accepted] ∧
        t.env.serialOut = if accepted then s.env.serialOut ++ [b] else s.env.serialOut) ∧
      t.rx = s.rx ∧ t.ctl = s.ctl ∧ t.buf = s.buf ∧ t.plain = s.plain ∧
      t.env.flash = s.env.flash ∧ t.env.serialIn = s.env.serialIn ∧ t.cfg = s.cfg ∧
      t.caller = s.caller)

/-- R180: whatever pattern of refusals the sink answers with, the bytes it accepts between
`tx_begin(n)` and the first `TRANSMITTED` are exactly the frame of the packet, one acceptance for
each byte. -/
def Obligations.TxSendsFrame : Prop :=
  ∀ (s : State) (packet : List Byte) (answers rest : List Bool),
    s.cfg.cap ≤ 65535 → packet.length ≤ s.cfg.cap → s.holds packet →
    s.env.sinkReady = answers ++ rest → answers.count true = (s.cfg.frameBytes packet).length →
    answers.getLast? = some true →
    (∃ t, runOps (.opTxBegin packet.length :: List.replicate answers.length .opTxStep) s = .next t ∧
      t.result = .tx .transmitted ∧ t.tx.state = .done ∧
      t.env.serialOut = s.env.serialOut ++ s.cfg.frameBytes packet ∧
      t.env.sinkReady = rest ∧ t.buf = s.buf) ∧
    (∀ k, 0 < k → k < answers.length →
      ∃ u, runOps (.opTxBegin packet.length :: List.replicate k .opTxStep) s = .next u ∧
        u.result = .tx .notTransmitted)

/-! ### The verifier -/

/-- R192, R193, R196: `ver_identity` of the chunk in `buf`: the staged chunk is discarded whatever
happens, and of the session nothing else changes (R198). A chunk with a byte that nothing has
written stops the model (R43; log 4). -/
def Obligations.VerIdentity : Prop :=
  (∀ (s : State) (f : Fault), s.bufGetBytes 1 (45 + s.cfg.p) = .error f →
    exec .opVerIdentity s = .fault f) ∧
  (∀ (s : State) (chunk : List Byte), s.bufGetBytes 1 (45 + s.cfg.p) = .ok chunk →
    ∃ t raised, exec .opVerIdentity s = .next t ∧ Opened chunk s t.plain raised ∧
      t.trace = s.trace ++ raised ∧
      (IdentityPasses s.cfg chunk → t.result = .ver .pass) ∧
      (¬IdentityPasses s.cfg chunk → t.result = .ver .fail) ∧
      t.ctl = { s.ctl with stagedValid := false } ∧
      t.rx = s.rx ∧ t.tx = s.tx ∧ t.buf = s.buf ∧ t.env = s.env ∧ t.cfg = s.cfg ∧
      t.caller = s.caller)

/-- R192, R193, R195: `ver_firmware` of the chunk in `buf`: a chunk that passes is staged, any
other leaves nothing staged, and of the session nothing else changes (R198). A chunk with a byte
that nothing has written stops the model (R43; log 4). -/
def Obligations.VerFirmware : Prop :=
  (∀ (s : State) (f : Fault), s.bufGetBytes 1 (45 + s.cfg.p) = .error f →
    exec .opVerFirmware s = .fault f) ∧
  (∀ (s : State) (chunk : List Byte), s.bufGetBytes 1 (45 + s.cfg.p) = .ok chunk →
    ∃ t raised, exec .opVerFirmware s = .next t ∧ Opened chunk s t.plain raised ∧
      t.trace = s.trace ++ raised ∧
      (FirmwarePasses s.cfg chunk → t.result = .ver .pass ∧
        t.ctl = { s.ctl with
          stagedAddr := chunkAddress chunk, stagedLen := chunkLength chunk, stagedValid := true }) ∧
      (¬FirmwarePasses s.cfg chunk → t.result = .ver .fail ∧
        t.ctl = { s.ctl with stagedValid := false }) ∧
      t.rx = s.rx ∧ t.tx = s.tx ∧ t.buf = s.buf ∧ t.env = s.env ∧ t.cfg = s.cfg ∧
      t.caller = s.caller)

/-! ### The commands -/

/-- R215 (3), R310: to a session that is not activated every command but `ACTIVATE` is dropped:
back to `MAIN`, nothing else. -/
def Obligations.GateDrops : Prop :=
  ∀ (s : State) (i : Instr), s.ctl.activated = false → i.format = .cmd →
    (∀ args, i ≠ .cmdActivate args) →
    exec i s = .next { s with ctl := s.ctl.enters .main }

/-- R261: `ACTIVATE`: the exact signature activates and is answered, anything else is silent. -/
def Obligations.Activate : Prop :=
  ∀ (s : State) (args : List Byte), s.cfg.signature.length = 8 →
    (args = s.cfg.signature →
      ∃ t, exec (.cmdActivate args) s = .next t ∧ Quiet s t ∧
        Queued [0x70, 0x00] ({ s.ctl with activated := true }.enters .sendResp) s t) ∧
    (args ≠ s.cfg.signature →
      exec (.cmdActivate args) s = .next { s with ctl := s.ctl.enters .main })

/-- R262: `BEGIN`: one identity chunk that passes starts the erase sequence without an answer; a
wrong length is answered with `0x02` without opening the chunk; a chunk that fails is answered with
`0x02`. -/
def Obligations.Begin : Prop :=
  ∀ (s : State) (args : List Byte), s.ctl.activated = true →
    (args.length = 45 + s.cfg.p → IdentityPasses s.cfg args →
      ∃ t, exec (.cmdBegin args) s = .next t ∧ Opened args s t.plain [] ∧ t.trace = s.trace ∧
        t.ctl = { s.ctl with stagedValid := false }.enters .begin ∧
        t.rx = s.rx ∧ t.tx = s.tx ∧ t.buf = s.buf ∧ t.env = s.env ∧ t.cfg = s.cfg ∧
        t.caller = s.caller ∧ t.result = s.result) ∧
    (args.length = 45 + s.cfg.p → ¬IdentityPasses s.cfg args →
      ∃ t raised, exec (.cmdBegin args) s = .next t ∧ Opened args s t.plain raised ∧
        t.trace = s.trace ++ raised ++ [Event.raised .precondition] ∧ t.env = s.env ∧
        Queued [0x71, 0x02] ({ s.ctl with stagedValid := false }.enters .sendResp) s t) ∧
    (args.length ≠ 45 + s.cfg.p →
      ∃ t, exec (.cmdBegin args) s = .next t ∧ Quiet s t ∧
        Queued [0x71, 0x02] (s.ctl.enters .sendResp) s t)

/-- R263: `SEND`: one firmware chunk that passes is staged and answered `0x00`; any other packet is
answered `0x01` and leaves nothing staged. -/
def Obligations.Send : Prop :=
  ∀ (s : State) (args : List Byte), s.ctl.activated = true →
    (args.length = 45 + s.cfg.p → FirmwarePasses s.cfg args →
      ∃ t, exec (.cmdSend args) s = .next t ∧ Opened args s t.plain [] ∧ t.trace = s.trace ∧
        t.env = s.env ∧
        Queued [0x72, 0x00] ({ s.ctl with
          stagedAddr := chunkAddress args, stagedLen := chunkLength args,
          stagedValid := true }.enters .sendResp) s t) ∧
    (args.length = 45 + s.cfg.p → ¬FirmwarePasses s.cfg args →
      ∃ t raised, exec (.cmdSend args) s = .next t ∧ Opened args s t.plain raised ∧
        t.trace = s.trace ++ raised ∧ t.env = s.env ∧
        Queued [0x72, 0x01] ({ s.ctl with stagedValid := false }.enters .sendResp) s t) ∧
    (args.length ≠ 45 + s.cfg.p →
      ∃ t, exec (.cmdSend args) s = .next t ∧ Quiet s t ∧
        Queued [0x72, 0x01] ({ s.ctl with stagedValid := false }.enters .sendResp) s t)

/-- R264: `WRITE` that may act on flash: the staged chunk is used up; equal flash is left alone and
answered `0x00`; otherwise one `flash_write`, which uses up one listed answer (log 5), decides the
answer, after `OK` the addressed bytes are the staged ones (R69), no byte outside them changes either
way (log 7) and no sector of the application region counts as confirmed erased any more (U9; log
26). The model stops where the range leaves the address space (R54; log 17) or a staged byte was never
written (R43; log 4), which R252 (e) excludes. -/
def Obligations.Write : Prop :=
  ∀ (s : State) (args : List Byte), s.ctl.activated = true →
    s.ctl.updateInProgress = true → s.ctl.stagedValid = true →
    let a := s.ctl.stagedAddr.toNat
    let n := s.ctl.stagedLen.toNat
    let ctl := { s.ctl with stagedValid := false }.enters .sendResp
    (flashSize < a + n → exec (.cmdWrite args) s = .fault (.flashAddress (a + n))) ∧
    (a + n ≤ flashSize → ∀ f, s.plainGetBytes 0 n = .error f →
      exec (.cmdWrite args) s = .fault f) ∧
    (∀ staged, Memory.wf s.env.flash → a + n ≤ flashSize → s.plainGetBytes 0 n = .ok staged →
      (flashGetBytes s.env.flash a n = staged →
        ∃ t, exec (.cmdWrite args) s = .next t ∧ Queued [0x73, 0x00] ctl s t ∧
          t.plain = s.plain ∧ t.env = s.env ∧
          t.trace = s.trace ++ [Event.flashRead s.ctl.stagedAddr staged]) ∧
      (flashGetBytes s.env.flash a n ≠ staged →
        ∃ t ok, exec (.cmdWrite args) s = .next t ∧
          Queued [0x73, if ok then 0x00 else 0x01] ctl s t ∧ t.plain = s.plain ∧
          t.env = { s.env with
            writeAnswer := t.env.writeAnswer, drawn := t.env.drawn, flash := t.env.flash
            confirmed := confirmedAfterWrite s.env.confirmed } ∧
          (∀ answer rest, s.env.writeAnswer = answer :: rest →
            (ok = true ↔ answer = .ok) ∧ t.env.writeAnswer = rest ∧ t.env.drawn = s.env.drawn) ∧
          (ok = true → flashGetBytes t.env.flash a n = staged) ∧
          (∀ i, ¬(a ≤ i ∧ i < a + n) → flashGet t.env.flash i = flashGet s.env.flash i) ∧
          t.trace = s.trace ++ [Event.flashRead s.ctl.stagedAddr (flashGetBytes s.env.flash a n),
            Event.flashWrite s.ctl.stagedAddr staged ok] ++
              (if ok then [] else [Event.raised .flashWrite])))

/-- R264, R307: `WRITE` without an update in progress or without a staged chunk touches no flash,
keeps the staged chunk and is answered `0x02`. -/
def Obligations.WriteRefused : Prop :=
  ∀ (s : State) (args : List Byte), s.ctl.activated = true →
    (s.ctl.updateInProgress = false ∨ s.ctl.stagedValid = false) →
    ∃ t, exec (.cmdWrite args) s = .next t ∧ Queued [0x73, 0x02] (s.ctl.enters .sendResp) s t ∧
      t.plain = s.plain ∧ t.env = s.env ∧ t.trace = s.trace ++ [Event.raised .precondition]

/-- R265: `END` clears `update_in_progress` and is always answered `0x00`. -/
def Obligations.EndCommand : Prop :=
  ∀ (s : State) (args : List Byte), s.ctl.activated = true →
    ∃ t, exec (.cmdEnd args) s = .next t ∧ Quiet s t ∧
      Queued [0x74, 0x00] ({ s.ctl with updateInProgress := false }.enters .sendResp) s t

/-- R266: `CHECK_CRC`: refused while an update is in progress, without running the check; otherwise
the check decides `firmware_valid` and the answer. -/
def Obligations.CheckCrc : Prop :=
  ∀ (s : State) (args : List Byte), s.ctl.activated = true →
    let v := fwCheckValue s.cfg s.env.flash
    (s.ctl.updateInProgress = true →
      ∃ t, exec (.cmdCheckCrc args) s = .next t ∧
        Queued [0x75, 0x02] (s.ctl.enters .sendResp) s t ∧ t.plain = s.plain ∧ t.env = s.env ∧
        t.trace = s.trace ++ [Event.raised .precondition]) ∧
    (s.ctl.updateInProgress = false →
      ∃ t, exec (.cmdCheckCrc args) s = .next t ∧
        Queued [0x75, if v then 0x00 else 0x01]
          ({ s.ctl with firmwareValid := v }.enters .sendResp) s t ∧
        t.plain = s.plain ∧ t.env = s.env ∧ t.trace = s.trace ++ [Event.fwCheck v])

/-- R267: `APP_RUN`: refused while an update is in progress, without running the check; refused if
the check fails; otherwise the answer is queued and the block is on its way to the application. -/
def Obligations.AppRun : Prop :=
  ∀ (s : State) (args : List Byte), s.ctl.activated = true →
    let v := fwCheckValue s.cfg s.env.flash
    (s.ctl.updateInProgress = true →
      ∃ t, exec (.cmdAppRun args) s = .next t ∧
        Queued [0x76, 0x02] (s.ctl.enters .sendResp) s t ∧ t.plain = s.plain ∧ t.env = s.env ∧
        t.trace = s.trace ++ [Event.raised .precondition]) ∧
    (s.ctl.updateInProgress = false →
      ∃ t, exec (.cmdAppRun args) s = .next t ∧
        Queued [0x76, if v then 0x00 else 0x01]
          ({ s.ctl with firmwareValid := v }.enters (if v then .appRun else .sendResp)) s t ∧
        t.plain = s.plain ∧ t.env = s.env ∧ t.trace = s.trace ++ [Event.fwCheck v])

/-- R268: `ERASE_USER_DATA` starts the erase sequence of the user-data region and changes no
session flag; without the region it is an unknown opcode (R110; log 22). -/
def Obligations.EraseUserData : Prop :=
  ∀ (s : State) (args : List Byte), s.ctl.activated = true →
    (s.cfg.hasUserData = true → exec (.cmdEraseUserData args) s =
      .next { s with ctl := { s.ctl with eraseIdx := 0, eraseOp := 0x78 }.enters .userDataClear }) ∧
    (s.cfg.hasUserData = false → exec (.cmdEraseUserData args) s =
      .next { s with ctl := s.ctl.enters .main })

/-- R110, R112, R215: an unknown opcode and a packet of no bytes are dropped silently: back to
`MAIN`, nothing else. -/
def Obligations.UnknownDropped : Prop :=
  (∀ (s : State) (op : Byte) (args : List Byte),
    exec (.cmdReserved op args) s = .next { s with ctl := s.ctl.enters .main }) ∧
  (∀ s s1 : State, s.ctl.state = .rxWait → rxWaitPull s = .ok (.stepped .received s1) →
    s1.rx.len = 0 → exec .opCtlPoll s = .next { s1 with ctl := s1.ctl.enters .main })

/-! ### The packets the block sends -/

/-- R106, R107, R230: the block's answers: the packet is built at `buf[0 ..]`, its checksum is
fixed, no byte is sent yet, and the control FSM enters `SEND_RESP`. That a row means the block's
sending of it is the model's choice (log 10). -/
def Obligations.Responses : Prop :=
  ∀ (s : State) (op : Byte) (r : Region) (k : Word32),
    (∃ t, exec (.rspOk op) s = .next t ∧ Quiet s t ∧
      Queued [op, 0x00] (s.ctl.enters .sendResp) s t) ∧
    (∃ t, exec (.rspFail op) s = .next t ∧ Quiet s t ∧
      Queued [op, 0x01] (s.ctl.enters .sendResp) s t) ∧
    (∃ t, exec (.rspPrecond op) s = .next t ∧ Quiet s t ∧
      Queued [op, 0x02] (s.ctl.enters .sendResp) s t) ∧
    (∃ t, exec (.rspEraseFail r k) s = .next t ∧ Quiet s t ∧
      Queued ([if r = .app then 0x71 else 0x78, 0x01] ++ le32 k) (s.ctl.enters .sendResp) s t)

/-- R108, R223: a progress event carries the region's opcode, `0xFF` and the two counters, and its
sending state is entered. That the row means the block's sending of it is the model's choice (log
10). -/
def Obligations.ProgressEvent : Prop :=
  ∀ (s : State) (total done : Word32),
    (∃ t, exec (.evtProgress .app total done) s = .next t ∧ Quiet s t ∧
      Queued ([0x71, 0xFF] ++ le32 total ++ le32 done)
        (s.ctl.enters .sendEventFlashClear) s t) ∧
    (∃ t, exec (.evtProgress .ud total done) s = .next t ∧ Quiet s t ∧
      Queued ([0x78, 0xFF] ++ le32 total ++ le32 done)
        (s.ctl.enters .sendEventUserDataClear) s t)

/-! ### The control FSM, state by state -/

/-- R40, R66, R346: the ports that answer from a list take the environment's next answer, each call
one, and change nothing else of the environment but what the call does there: a byte joins the
transmit stream exactly once if it was accepted and not at all if it was refused; `flash_write`
changes the addressed bytes of flash, all of them after `OK`; an erase changes only its own region
(log 26); a sector confirmed erased answers true without an answer from the list until a `flash_write`
into its region (R69; log 26). `flash_read` and `fw_check` answer the flash contents and change nothing. That the
answers stand in lists is the model's choice (log 5); so is the form in which a confirmed erase is
kept (log 8). -/
def Obligations.PortAnswers : Prop :=
  (∀ (s : State) (x : Option Byte) (rest : List (Option Byte)), s.env.serialIn = x :: rest →
    s.serialGet.1 = x ∧ s.serialGet.2.env = { s.env with serialIn := rest }) ∧
  (∀ (s : State) (b : Byte) (ok : Bool) (rest : List Bool), s.env.sinkReady = ok :: rest →
    (s.sink b).1 = ok ∧ (s.sink b).2.env = { s.env with
      sinkReady := rest
      serialOut := if ok then s.env.serialOut ++ [b] else s.env.serialOut }) ∧
  (∀ (s : State) (x : Bool) (rest : List Bool), s.env.txEmpty = x :: rest →
    s.serialTxEmpty.1 = x ∧ s.serialTxEmpty.2.env = { s.env with txEmpty := rest }) ∧
  (∀ (s : State) (x : Word32) (rest : List Word32), s.env.clock = x :: rest →
    s.now.1 = x ∧ s.now.2.env = { s.env with clock := rest }) ∧
  (∀ (s : State) (x : Bool) (rest : List Bool), s.env.strap = x :: rest →
    s.strapAsserted.1 = x ∧ s.strapAsserted.2.env = { s.env with strap := rest }) ∧
  (∀ (s : State) (addr : Word32) (bytes : List Byte) (x : WriteAnswer) (rest : List WriteAnswer),
    s.env.writeAnswer = x :: rest →
    (s.flashWrite addr bytes).1 = (x == .ok) ∧
      (s.flashWrite addr bytes).2.env = { s.env with
        writeAnswer := rest
        confirmed := s.env.confirmed.filter fun sector => sector.1 == .ud
        flash := match x with
          | .ok => flashSetBytes s.env.flash addr.toNat bytes
          | .fail left => flashSetLeft s.env.flash addr.toNat bytes.length left }) ∧
  (∀ (s : State) (addr : Word32) (n : Nat), addr.toNat + n ≤ flashSize →
    ∃ t, s.flashRead addr n = .ok (flashGetBytes s.env.flash addr.toNat n, t) ∧ t.env = s.env) ∧
  (∀ s : State, s.fwCheck.1 = fwCheckValue s.cfg s.env.flash ∧ s.fwCheck.2.env = s.env) ∧
  (∀ (s : State) (r : Region) (k : Nat), (r, k) ∈ s.env.confirmed →
    (s.sectorErased r k).1 = true ∧ (s.sectorErased r k).2.env = s.env) ∧
  (∀ (s : State) (r : Region) (k : Nat) (x : Bool) (rest : List Bool),
    (r, k) ∉ s.env.confirmed → s.env.sectorErased = x :: rest →
    (s.sectorErased r k).1 = x ∧
      (s.sectorErased r k).2.env = { s.env with
        sectorErased := rest
        confirmed := if x then (r, k) :: s.env.confirmed else s.env.confirmed }) ∧
  (∀ (s : State) (r : Region) (k : Nat) (x : List Host.Cell) (rest : List (List Host.Cell)),
    s.env.eraseEffect = x :: rest →
    (s.sectorErase r k).env = { s.env with
      eraseEffect := rest
      flash := flashSetCells s.env.flash (x.filter fun cell => mayHold s.cfg r cell.1) })

/-- R211: `INIT` checks the firmware (a debug build assumes it valid), then samples the strap or
the clock, and boots at once only in the strap variant that asks for it. -/
def Obligations.PollInit : Prop :=
  ∀ s : State, s.ctl.state = .init →
    let v := s.cfg.debugSkipCheck || fwCheckValue s.cfg s.env.flash
    let checked : List Event := if s.cfg.debugSkipCheck then [] else [Event.fwCheck v]
    (s.cfg.bootPolicy = .timer → exec .opCtlPoll s = .next { s with
      ctl := { s.ctl with firmwareValid := v, tBoot := s.now.1 }.enters .main
      env := s.now.2.env
      trace := s.trace ++ checked ++ [Event.clockMs s.now.1] }) ∧
    (s.cfg.bootPolicy = .strap →
      let strap := s.strapAsserted.1
      let boots := !strap && v && s.cfg.strapAbsentPolicy == .bootIfValid
      exec .opCtlPoll s = .next { s with
        ctl := { s.ctl with firmwareValid := v, activated := strap }.enters
          (if boots then .handoff else .main)
        env := s.strapAsserted.2.env
        trace := s.trace ++ checked ++ [Event.strapAsserted strap] ++
          (if boots then [Event.handoff] else []) })

/-- R212, R220, R238: the polls that call no port: `MAIN` arms the receiver, `BEGIN` clears the
flags and starts the erase, `HANDOFF` does nothing at all. -/
def Obligations.PollQuiet : Prop :=
  (∀ s : State, s.ctl.state = .main → exec .opCtlPoll s = .next { s with
    rx := { s.rx with state := .waitStart, esc := false }
    ctl := s.ctl.enters .rxWait }) ∧
  (∀ s : State, s.ctl.state = .begin → exec .opCtlPoll s = .next { s with
    ctl := { s.ctl with
      firmwareValid := false, updateInProgress := false,
      eraseIdx := 0, eraseOp := 0x71 }.enters .flashClear }) ∧
  (∀ s : State, s.ctl.state = .handoff → exec .opCtlPoll s = .next s)

/-- R213, R214: `RX_WAIT`: the auto-boot test comes first and ends the poll; otherwise one byte
goes through the receiver, nothing follows `NOT_RECEIVED`, and `BROKEN` leads back to `MAIN`. The
clock is read only where the other conditions of the test hold (log 14). A byte of `buf` that
nothing has written stops the model (R43; log 4), as `rx_step` itself does (log 17). -/
def Obligations.PollRxWait : Prop :=
  ∀ s : State, s.ctl.state = .rxWait →
    let armed := s.cfg.bootPolicy = .timer ∧ s.ctl.activated = false ∧ s.ctl.firmwareValid = true
    (armed → s.cfg.tBoot ≤ s.now.1 - s.ctl.tBoot →
      exec .opCtlPoll s = .next { s with
        ctl := s.ctl.enters .handoff
        env := s.now.2.env
        trace := s.trace ++ [Event.clockMs s.now.1, Event.handoff] }) ∧
    (∀ s0 s1 r, (if armed then s0 = s.now.2 ∧ s.now.1 - s.ctl.tBoot < s.cfg.tBoot else s0 = s) →
      rxStep s0.serialGet.1 s0.serialGet.2 = .ok (r, s1) →
      (r = .notReceived → exec .opCtlPoll s = .next s1) ∧
      (r = .broken → exec .opCtlPoll s = .next { s1 with ctl := s1.ctl.enters .main }) ∧
      (r = .received → ∀ f, s1.bufGetBytes 0 s1.rx.len.toNat = .error f →
        exec .opCtlPoll s = .fault f)) ∧
    (∀ s0 f, (if armed then s0 = s.now.2 ∧ s.now.1 - s.ctl.tBoot < s.cfg.tBoot else s0 = s) →
      rxStep s0.serialGet.1 s0.serialGet.2 = .error f → exec .opCtlPoll s = .fault f)

/-- R221, R222, R223, R226, R227: one pass of an erase state: past the last sector the sequence is
complete; a sector that reads erased is skipped, any other is erased and queried again; a good
sector is reported, a bad one ends the sequence. -/
def Obligations.PollErase : Prop :=
  ∀ (s : State) (r : Region),
    s.ctl.state = (match r with | .app => .flashClear | .ud => .userDataClear) →
    let n := s.cfg.sectors r
    let k := s.ctl.eraseIdx.toNat
    let event : List Byte := [s.ctl.eraseOp, 0xFF] ++ le32 (BitVec.ofNat 32 n) ++
      le32 (s.ctl.eraseIdx + BitVec.ofNat 32 s.cfg.progressDoneBias)
    let sends : CtlPhase := match r with
      | .app => CtlPhase.sendEventFlashClear
      | .ud => CtlPhase.sendEventUserDataClear
    let first := (s.sectorErased r k).1
    let erased := (s.sectorErased r k).2.sectorErase r k
    let second := (erased.sectorErased r k).1
    (k = n → ∃ t, exec .opCtlPoll s = .next t ∧ Quiet s t ∧
      Queued [s.ctl.eraseOp, 0x00] ((match r with
        | .app => { s.ctl with updateInProgress := true, stagedValid := false }
        | .ud => s.ctl).enters .sendResp) s t) ∧
    (k < n → first = true → ∃ t, exec .opCtlPoll s = .next t ∧
      Queued event (s.ctl.enters sends) s t ∧ t.plain = s.plain ∧
      t.env = (s.sectorErased r k).2.env ∧
      t.trace = s.trace ++ [Event.sectorErased r k true]) ∧
    (k < n → first = false → second = true → ∃ t, exec .opCtlPoll s = .next t ∧
      Queued event (s.ctl.enters sends) s t ∧ t.plain = s.plain ∧
      t.env = (erased.sectorErased r k).2.env ∧
      t.trace = s.trace ++
        [Event.sectorErased r k false, Event.sectorErase r k, Event.sectorErased r k true]) ∧
    (k < n → first = false → second = false → ∃ t, exec .opCtlPoll s = .next t ∧
      Queued ([s.ctl.eraseOp, 0x01] ++ le32 s.ctl.eraseIdx) (s.ctl.enters .sendResp) s t ∧
      t.plain = s.plain ∧ t.env = (erased.sectorErased r k).2.env ∧
      t.trace = s.trace ++ [Event.sectorErased r k false, Event.sectorErase r k,
        Event.sectorErased r k false, Event.raised (.flashErase k)])

/-- R240 with R224, R227, R231, R235, R237: a delaying state: the first poll samples the clock, a
later one moves on once the delay is over. -/
def Obligations.PollDelays : Prop :=
  ∀ (s : State) (t : Word32) (next : CtlPhase),
    ((s.ctl.state = .sendResp ∧ t = s.cfg.tRespDelay ∧ next = .sendResp1) ∨
     (s.ctl.state = .sendEventFlashClear ∧ t = s.cfg.tRespDelay ∧ next = .sendEventFlashClear1) ∨
     (s.ctl.state = .sendEventUserDataClear ∧ t = s.cfg.tRespDelay ∧
       next = .sendEventUserDataClear1) ∨
     (s.ctl.state = .appRun ∧ t = s.cfg.tRespDelay ∧ next = .appRun1) ∨
     (s.ctl.state = .appRun2 ∧ t = s.cfg.tSettle ∧ next = .handoff)) →
    (s.ctl.sub = .enter → exec .opCtlPoll s = .next { s with
      ctl := { s.ctl with tResp := s.now.1, sub := .poll }
      env := s.now.2.env
      trace := s.trace ++ [Event.clockMs s.now.1] }) ∧
    (s.ctl.sub = .poll → s.now.1 - s.ctl.tResp < t → exec .opCtlPoll s = .next { s with
      env := s.now.2.env
      trace := s.trace ++ [Event.clockMs s.now.1] }) ∧
    (s.ctl.sub = .poll → t ≤ s.now.1 - s.ctl.tResp → exec .opCtlPoll s = .next { s with
      ctl := s.ctl.enters next
      env := s.now.2.env
      trace := s.trace ++ [Event.clockMs s.now.1] ++
        (if next = .handoff then [Event.handoff] else []) })

/-- R225, R227, R232, R236: a transmitting state: one `tx_step` for each poll; when the frame has
gone out the block moves on, and only then does the erase cursor advance. -/
def Obligations.PollTransmits : Prop :=
  ∀ (s u : State), exec .opTxStep s = .next u →
    let stays := { u with result := s.result }
    (s.ctl.state = .sendResp1 → exec .opCtlPoll s = .next (if u.tx.state = .done
      then { stays with ctl := u.ctl.enters .main } else stays)) ∧
    (s.ctl.state = .appRun1 → exec .opCtlPoll s = .next (if u.tx.state = .done
      then { stays with ctl := u.ctl.enters .appRun2 } else stays)) ∧
    (s.ctl.state = .sendEventFlashClear1 → exec .opCtlPoll s = .next (if u.tx.state = .done
      then { stays with ctl :=
        { u.ctl with eraseIdx := u.ctl.eraseIdx + 1 }.enters .flashClear } else stays)) ∧
    (s.ctl.state = .sendEventUserDataClear1 → exec .opCtlPoll s = .next (if u.tx.state = .done
      then { stays with ctl :=
        { u.ctl with eraseIdx := u.ctl.eraseIdx + 1 }.enters .userDataClear } else stays))

/-! ### The whole machine -/

/-- R250: a step of the polled machine moves the control FSM only along the table's transitions. -/
def Obligations.Transitions : Prop :=
  ∀ s t : State, s.caller = [] → step s = .next t → t.ctl.state ∈ s.ctl.state.targets

/-- R252: the invariant is kept by every step. -/
def Obligations.InvKept : Prop :=
  ∀ s t : State, Invariant s → step s = .next t → Invariant t

/-- R302: under the invariant no error stops the block: every step answers a next state. -/
def Obligations.InvProgress : Prop :=
  ∀ s : State, Invariant s → ∃ t, step s = .next t

/-- R33, R310: `activated` is never cleared, and is set only by the strap at initialization or by a
received `ACTIVATE` with the signature. -/
def Obligations.Activation : Prop :=
  ∀ s t : State, s.caller = [] → step s = .next t →
    (s.ctl.state ≠ .init → s.ctl.activated = true → t.ctl.activated = true) ∧
    (s.ctl.activated = false → t.ctl.activated = true →
      (s.ctl.state = .init ∧ s.cfg.bootPolicy = .strap) ∨
      (s.ctl.state = .rxWait ∧ ∃ s1, rxWaitPull s = .ok (.stepped .received s1) ∧
        s1.bufGetBytes 0 s1.rx.len.toNat = .ok (0x70 :: s.cfg.signature)))

/-- R252 (g): flash is written only by a poll that dispatches `WRITE` (a received packet whose first
byte is `0x73`, R264) in an activated session with an update in progress and a chunk staged, and only
with the staged address; it is erased only in the two erase states of an activated session. A sector
confirmed erased stays so, one of the application region until flash is written (R69, U9; log 26).
-/
def Obligations.FlashAccess : Prop :=
  ∀ s t : State, Invariant s → step s = .next t →
    ∃ events, t.trace = s.trace ++ events ∧
      (∀ addr bytes ok, Event.flashWrite addr bytes ok ∈ events →
        s.ctl.state = .rxWait ∧ s.ctl.activated = true ∧ s.ctl.updateInProgress = true ∧
        s.ctl.stagedValid = true ∧ addr = s.ctl.stagedAddr ∧
        s.cfg.appBase ≤ addr.toNat ∧ addr.toNat + bytes.length ≤ s.cfg.appEnd ∧
        ∃ s1 args, rxWaitPull s = .ok (.stepped .received s1) ∧
          s1.bufGetBytes 0 s1.rx.len.toNat = .ok (0x73 :: args)) ∧
      (∀ r k, Event.sectorErase r k ∈ events →
        s.ctl.activated = true ∧ k < s.cfg.sectors r ∧
        s.ctl.state = match r with | .app => .flashClear | .ud => .userDataClear) ∧
      (t.env.flash ≠ s.env.flash →
        ∃ e ∈ events, (∃ addr bytes ok, e = Event.flashWrite addr bytes ok) ∨
          ∃ r k, e = Event.sectorErase r k) ∧
      (∀ r k, (r, k) ∈ s.env.confirmed → (r, k) ∈ t.env.confirmed ∨
        (r = .app ∧ ∃ addr bytes ok, Event.flashWrite addr bytes ok ∈ events))

/-- R35: `update_in_progress` is set only by completing the application's erase sequence, and
`firmware_valid` only by an integrity check of the flash as it then is, or at initialization. -/
def Obligations.FlagsSet : Prop :=
  ∀ s t : State, s.caller = [] → step s = .next t →
    (s.ctl.updateInProgress = false → t.ctl.updateInProgress = true →
      s.ctl.state = .flashClear ∧ s.ctl.eraseIdx.toNat = s.cfg.appSectors) ∧
    (s.ctl.firmwareValid = false → t.ctl.firmwareValid = true →
      s.ctl.state = .init ∨ (s.ctl.state = .rxWait ∧ fwCheckValue s.cfg t.env.flash = true))

end
end

