-- ==== Sys2Proof/Laws/Codec.lean ====
section
/-! SUPPORT. Byte order as numbers (20_memory.md R59, 30_encoding.md R82, R101), the checksum as a fold
(00_scope.md R6) and the escape code byte by byte (30_encoding.md R87). -/

namespace Sys2Proof

/-! ### Byte order -/

theorem toNat_append_low {n m : Nat} (x : BitVec n) (y : BitVec m) :
    (x ++ y).toNat = y.toNat + 2 ^ m * x.toNat := by
  rw [BitVec.toNat_append, ← Nat.shiftLeft_add_eq_or_of_lt y.isLt, Nat.shiftLeft_eq]
  ring

theorem unLe16_toNat (a b : Byte) : (unLe16 a b).toNat = a.toNat + 256 * b.toNat :=
  toNat_append_low b a

theorem lo8_toNat (w : Word16) : (lo8 w).toNat = w.toNat % 256 := by
  simp [lo8]

theorem hi8_toNat (w : Word16) : (hi8 w).toNat = w.toNat / 256 := by
  have : w.toNat < 65536 := w.isLt
  simp [hi8, Nat.shiftRight_eq_div_pow]; omega

theorem zext16_toNat (a : Byte) : (zext16 a).toNat = a.toNat := by
  have : a.toNat < 256 := a.isLt
  simp [zext16]; omega

@[simp] theorem lo8_unLe16 (a b : Byte) : lo8 (unLe16 a b) = a := by
  apply BitVec.eq_of_toNat_eq; rw [lo8_toNat, unLe16_toNat]; have := a.isLt; omega

@[simp] theorem hi8_unLe16 (a b : Byte) : hi8 (unLe16 a b) = b := by
  apply BitVec.eq_of_toNat_eq; rw [hi8_toNat, unLe16_toNat]; have := a.isLt; omega

@[simp] theorem unLe16_lo8_hi8 (w : Word16) : unLe16 (lo8 w) (hi8 w) = w := by
  apply BitVec.eq_of_toNat_eq; rw [unLe16_toNat, lo8_toNat, hi8_toNat]; omega

@[simp] theorem lo8_zext16 (a : Byte) : lo8 (zext16 a) = a := by
  apply BitVec.eq_of_toNat_eq; rw [lo8_toNat, zext16_toNat]; have := a.isLt; omega

theorem setHi8_zext16 (a b : Byte) : setHi8 (zext16 a) b = unLe16 a b := by
  show unLe16 (lo8 (zext16 a)) b = unLe16 a b
  rw [lo8_zext16]

theorem le16_unLe16 (a b : Byte) : le16 (unLe16 a b) = [a, b] := by simp [le16]

theorem unLe32_toNat (a b c d : Byte) : (unLe32 a b c d).toNat =
    a.toNat + 256 * b.toNat + 65536 * c.toNat + 16777216 * d.toNat := by
  have h : (unLe32 a b c d).toNat =
      (a.toNat + 2 ^ 8 * b.toNat + 2 ^ 16 * c.toNat) + 2 ^ 24 * d.toNat := by
    unfold unLe32
    refine (toNat_append_low d (c ++ (b ++ a))).trans ?_
    congr 1
    refine (toNat_append_low c (b ++ a)).trans ?_
    congr 1
    exact toNat_append_low b a
  omega

theorem extract_byte_toNat (w : Word32) (k : Nat) :
    (w.extractLsb' k 8).toNat = w.toNat / 2 ^ k % 256 := by
  simp [Nat.shiftRight_eq_div_pow]

theorem unLe32_le32 (w : Word32) :
    unLe32 (w.extractLsb' 0 8) (w.extractLsb' 8 8) (w.extractLsb' 16 8) (w.extractLsb' 24 8) = w := by
  apply BitVec.eq_of_toNat_eq
  have := w.isLt
  rw [unLe32_toNat]; simp only [extract_byte_toNat]; omega

theorem le32_unLe32 (a b c d : Byte) : le32 (unLe32 a b c d) = [a, b, c, d] := by
  have ha := a.isLt
  have hb := b.isLt
  have hc := c.isLt
  have hd := d.isLt
  simp only [le32, List.cons.injEq, and_true]
  refine ⟨?_, ?_, ?_, ?_⟩ <;> apply BitVec.eq_of_toNat_eq <;>
    rw [extract_byte_toNat, unLe32_toNat] <;> omega

@[simp] theorem le16_length (w : Word16) : (le16 w).length = 2 := rfl

@[simp] theorem le32_length (w : Word32) : (le32 w).length = 4 := rfl

/-! ### The checksum -/

@[simp] theorem checksum_nil (c : Config) : c.checksum [] = c.ckSeed := rfl

theorem checksum_append (c : Config) (xs ys : List Byte) :
    c.checksum (xs ++ ys) = ys.foldl c.ckUpdate (c.checksum xs) := by
  simp [Config.checksum, List.foldl_append]

theorem checksum_concat (c : Config) (xs : List Byte) (b : Byte) :
    c.checksum (xs ++ [b]) = c.ckUpdate (c.checksum xs) b := by
  simp [checksum_append]

@[simp] theorem framedBytes_length (payload : List Byte) :
    (framedBytes payload).length = 2 + payload.length := by
  simp [framedBytes]

theorem framedBytes_of_length {payload : List Byte} {w : Word16} (h : payload.length = w.toNat) :
    framedBytes payload = le16 w ++ payload := by
  have : BitVec.ofNat 16 payload.length = w := by
    apply BitVec.eq_of_toNat_eq; rw [h]; simp
  rw [framedBytes, this]

/-! ### The escape code -/

theorem reserved_iff {c : Config} {b : Byte} : c.reserved b = true ↔ b = c.start ∨ b = c.esc := by
  simp [Config.reserved]

theorem not_reserved_iff {c : Config} {b : Byte} :
    c.reserved b = false ↔ b ≠ c.start ∧ b ≠ c.esc := by
  simp [Config.reserved]

@[simp] theorem escape_nil (c : Config) : c.escape [] = [] := rfl

theorem escape_cons (c : Config) (b : Byte) (bytes : List Byte) :
    c.escape (b :: bytes) = c.escapeByte b ++ c.escape bytes := by
  simp [Config.escape]

theorem escape_append (c : Config) (xs ys : List Byte) :
    c.escape (xs ++ ys) = c.escape xs ++ c.escape ys := by
  simp [Config.escape]

theorem escapeByte_reserved {c : Config} {b : Byte} (h : c.reserved b = true) :
    c.escapeByte b = [c.esc, b] := by simp [Config.escapeByte, h]

theorem escapeByte_literal {c : Config} {b : Byte} (h : c.reserved b = false) :
    c.escapeByte b = [b] := by simp [Config.escapeByte, h]

end Sys2Proof
end

