-- ==== Sys2Proof/Laws/State.lean ====
section
/-! SUPPORT. What each update of the state writes, field by field, so that later proofs unfold none
of them. -/

namespace Sys2Proof.Machine

variable (s : State)

@[simp] theorem log_rx (e : Event) : (s.log e).rx = s.rx := rfl
@[simp] theorem log_tx (e : Event) : (s.log e).tx = s.tx := rfl
@[simp] theorem log_ctl (e : Event) : (s.log e).ctl = s.ctl := rfl
@[simp] theorem log_buf (e : Event) : (s.log e).buf = s.buf := rfl
@[simp] theorem log_plain (e : Event) : (s.log e).plain = s.plain := rfl
@[simp] theorem log_env (e : Event) : (s.log e).env = s.env := rfl
@[simp] theorem log_cfg (e : Event) : (s.log e).cfg = s.cfg := rfl
@[simp] theorem log_caller (e : Event) : (s.log e).caller = s.caller := rfl
@[simp] theorem log_result (e : Event) : (s.log e).result = s.result := rfl
@[simp] theorem log_trace (e : Event) : (s.log e).trace = s.trace ++ [e] := rfl

@[simp] theorem raise_rx (e : ErrorClass) : (s.raise e).rx = s.rx := rfl
@[simp] theorem raise_tx (e : ErrorClass) : (s.raise e).tx = s.tx := rfl
@[simp] theorem raise_ctl (e : ErrorClass) : (s.raise e).ctl = s.ctl := rfl
@[simp] theorem raise_buf (e : ErrorClass) : (s.raise e).buf = s.buf := rfl
@[simp] theorem raise_plain (e : ErrorClass) : (s.raise e).plain = s.plain := rfl
@[simp] theorem raise_env (e : ErrorClass) : (s.raise e).env = s.env := rfl
@[simp] theorem raise_cfg (e : ErrorClass) : (s.raise e).cfg = s.cfg := rfl
@[simp] theorem raise_caller (e : ErrorClass) : (s.raise e).caller = s.caller := rfl
@[simp] theorem raise_result (e : ErrorClass) : (s.raise e).result = s.result := rfl
@[simp] theorem raise_trace (e : ErrorClass) : (s.raise e).trace = s.trace ++ [.raised e] := rfl

@[simp] theorem rxAbort_rx : (s.rxAbort).rx = { s.rx with state := .waitStart, esc := false } := rfl
@[simp] theorem rxAbort_tx : (s.rxAbort).tx = s.tx := rfl
@[simp] theorem rxAbort_ctl : (s.rxAbort).ctl = s.ctl := rfl
@[simp] theorem rxAbort_buf : (s.rxAbort).buf = s.buf := rfl
@[simp] theorem rxAbort_plain : (s.rxAbort).plain = s.plain := rfl
@[simp] theorem rxAbort_env : (s.rxAbort).env = s.env := rfl
@[simp] theorem rxAbort_cfg : (s.rxAbort).cfg = s.cfg := rfl
@[simp] theorem rxAbort_caller : (s.rxAbort).caller = s.caller := rfl
@[simp] theorem rxAbort_result : (s.rxAbort).result = s.result := rfl
@[simp] theorem rxAbort_trace : (s.rxAbort).trace = s.trace := rfl

@[simp] theorem rxGo_rx (p : RxPhase) : (s.rxGo p).rx = { s.rx with state := p } := rfl
@[simp] theorem rxGo_tx (p : RxPhase) : (s.rxGo p).tx = s.tx := rfl
@[simp] theorem rxGo_ctl (p : RxPhase) : (s.rxGo p).ctl = s.ctl := rfl
@[simp] theorem rxGo_buf (p : RxPhase) : (s.rxGo p).buf = s.buf := rfl
@[simp] theorem rxGo_plain (p : RxPhase) : (s.rxGo p).plain = s.plain := rfl
@[simp] theorem rxGo_env (p : RxPhase) : (s.rxGo p).env = s.env := rfl
@[simp] theorem rxGo_cfg (p : RxPhase) : (s.rxGo p).cfg = s.cfg := rfl
@[simp] theorem rxGo_caller (p : RxPhase) : (s.rxGo p).caller = s.caller := rfl
@[simp] theorem rxGo_result (p : RxPhase) : (s.rxGo p).result = s.result := rfl
@[simp] theorem rxGo_trace (p : RxPhase) : (s.rxGo p).trace = s.trace := rfl

@[simp] theorem txGo_rx (p : TxPhase) : (s.txGo p).rx = s.rx := rfl
@[simp] theorem txGo_tx (p : TxPhase) : (s.txGo p).tx = { s.tx with state := p } := rfl
@[simp] theorem txGo_ctl (p : TxPhase) : (s.txGo p).ctl = s.ctl := rfl
@[simp] theorem txGo_buf (p : TxPhase) : (s.txGo p).buf = s.buf := rfl
@[simp] theorem txGo_plain (p : TxPhase) : (s.txGo p).plain = s.plain := rfl
@[simp] theorem txGo_env (p : TxPhase) : (s.txGo p).env = s.env := rfl
@[simp] theorem txGo_cfg (p : TxPhase) : (s.txGo p).cfg = s.cfg := rfl
@[simp] theorem txGo_caller (p : TxPhase) : (s.txGo p).caller = s.caller := rfl
@[simp] theorem txGo_result (p : TxPhase) : (s.txGo p).result = s.result := rfl
@[simp] theorem txGo_trace (p : TxPhase) : (s.txGo p).trace = s.trace := rfl

@[simp] theorem go_rx (p : CtlPhase) : (s.go p).rx = s.rx := rfl
@[simp] theorem go_tx (p : CtlPhase) : (s.go p).tx = s.tx := rfl
@[simp] theorem go_ctl (p : CtlPhase) : (s.go p).ctl = { s.ctl with state := p, sub := .enter } := rfl
@[simp] theorem go_buf (p : CtlPhase) : (s.go p).buf = s.buf := rfl
@[simp] theorem go_plain (p : CtlPhase) : (s.go p).plain = s.plain := rfl
@[simp] theorem go_env (p : CtlPhase) : (s.go p).env = s.env := rfl
@[simp] theorem go_cfg (p : CtlPhase) : (s.go p).cfg = s.cfg := rfl
@[simp] theorem go_caller (p : CtlPhase) : (s.go p).caller = s.caller := rfl
@[simp] theorem go_result (p : CtlPhase) : (s.go p).result = s.result := rfl
@[simp] theorem go_trace (p : CtlPhase) : (s.go p).trace = s.trace := rfl

@[simp] theorem doHandoff_rx : (s.doHandoff).rx = s.rx := rfl
@[simp] theorem doHandoff_tx : (s.doHandoff).tx = s.tx := rfl
@[simp] theorem doHandoff_ctl : (s.doHandoff).ctl = { s.ctl with state := .handoff, sub := .enter } := rfl
@[simp] theorem doHandoff_buf : (s.doHandoff).buf = s.buf := rfl
@[simp] theorem doHandoff_plain : (s.doHandoff).plain = s.plain := rfl
@[simp] theorem doHandoff_env : (s.doHandoff).env = s.env := rfl
@[simp] theorem doHandoff_cfg : (s.doHandoff).cfg = s.cfg := rfl
@[simp] theorem doHandoff_caller : (s.doHandoff).caller = s.caller := rfl
@[simp] theorem doHandoff_result : (s.doHandoff).result = s.result := rfl
@[simp] theorem doHandoff_trace : (s.doHandoff).trace = s.trace ++ [.handoff] := rfl

@[simp] theorem returning_rx (r : OpResult) : (s.returning r).rx = s.rx := rfl
@[simp] theorem returning_tx (r : OpResult) : (s.returning r).tx = s.tx := rfl
@[simp] theorem returning_ctl (r : OpResult) : (s.returning r).ctl = s.ctl := rfl
@[simp] theorem returning_buf (r : OpResult) : (s.returning r).buf = s.buf := rfl
@[simp] theorem returning_plain (r : OpResult) : (s.returning r).plain = s.plain := rfl
@[simp] theorem returning_env (r : OpResult) : (s.returning r).env = s.env := rfl
@[simp] theorem returning_cfg (r : OpResult) : (s.returning r).cfg = s.cfg := rfl
@[simp] theorem returning_caller (r : OpResult) : (s.returning r).caller = s.caller := rfl
@[simp] theorem returning_result (r : OpResult) : (s.returning r).result = r := rfl
@[simp] theorem returning_trace (r : OpResult) : (s.returning r).trace = s.trace := rfl

@[simp] theorem activate_rx : (s.activate).rx = s.rx := rfl
@[simp] theorem activate_tx : (s.activate).tx = s.tx := rfl
@[simp] theorem activate_ctl : (s.activate).ctl = { s.ctl with activated := true } := rfl
@[simp] theorem activate_buf : (s.activate).buf = s.buf := rfl
@[simp] theorem activate_plain : (s.activate).plain = s.plain := rfl
@[simp] theorem activate_env : (s.activate).env = s.env := rfl
@[simp] theorem activate_cfg : (s.activate).cfg = s.cfg := rfl
@[simp] theorem activate_caller : (s.activate).caller = s.caller := rfl
@[simp] theorem activate_result : (s.activate).result = s.result := rfl
@[simp] theorem activate_trace : (s.activate).trace = s.trace := rfl

@[simp] theorem setFirmwareValid_rx (v : Bool) : (s.setFirmwareValid v).rx = s.rx := rfl
@[simp] theorem setFirmwareValid_tx (v : Bool) : (s.setFirmwareValid v).tx = s.tx := rfl
@[simp] theorem setFirmwareValid_ctl (v : Bool) : (s.setFirmwareValid v).ctl = { s.ctl with firmwareValid := v } := rfl
@[simp] theorem setFirmwareValid_buf (v : Bool) : (s.setFirmwareValid v).buf = s.buf := rfl
@[simp] theorem setFirmwareValid_plain (v : Bool) : (s.setFirmwareValid v).plain = s.plain := rfl
@[simp] theorem setFirmwareValid_env (v : Bool) : (s.setFirmwareValid v).env = s.env := rfl
@[simp] theorem setFirmwareValid_cfg (v : Bool) : (s.setFirmwareValid v).cfg = s.cfg := rfl
@[simp] theorem setFirmwareValid_caller (v : Bool) : (s.setFirmwareValid v).caller = s.caller := rfl
@[simp] theorem setFirmwareValid_result (v : Bool) : (s.setFirmwareValid v).result = s.result := rfl
@[simp] theorem setFirmwareValid_trace (v : Bool) : (s.setFirmwareValid v).trace = s.trace := rfl

@[simp] theorem setUpdateInProgress_rx (v : Bool) : (s.setUpdateInProgress v).rx = s.rx := rfl
@[simp] theorem setUpdateInProgress_tx (v : Bool) : (s.setUpdateInProgress v).tx = s.tx := rfl
@[simp] theorem setUpdateInProgress_ctl (v : Bool) : (s.setUpdateInProgress v).ctl = { s.ctl with updateInProgress := v } := rfl
@[simp] theorem setUpdateInProgress_buf (v : Bool) : (s.setUpdateInProgress v).buf = s.buf := rfl
@[simp] theorem setUpdateInProgress_plain (v : Bool) : (s.setUpdateInProgress v).plain = s.plain := rfl
@[simp] theorem setUpdateInProgress_env (v : Bool) : (s.setUpdateInProgress v).env = s.env := rfl
@[simp] theorem setUpdateInProgress_cfg (v : Bool) : (s.setUpdateInProgress v).cfg = s.cfg := rfl
@[simp] theorem setUpdateInProgress_caller (v : Bool) : (s.setUpdateInProgress v).caller = s.caller := rfl
@[simp] theorem setUpdateInProgress_result (v : Bool) : (s.setUpdateInProgress v).result = s.result := rfl
@[simp] theorem setUpdateInProgress_trace (v : Bool) : (s.setUpdateInProgress v).trace = s.trace := rfl

@[simp] theorem unstage_rx : (s.unstage).rx = s.rx := rfl
@[simp] theorem unstage_tx : (s.unstage).tx = s.tx := rfl
@[simp] theorem unstage_ctl : (s.unstage).ctl = { s.ctl with stagedValid := false } := rfl
@[simp] theorem unstage_buf : (s.unstage).buf = s.buf := rfl
@[simp] theorem unstage_plain : (s.unstage).plain = s.plain := rfl
@[simp] theorem unstage_env : (s.unstage).env = s.env := rfl
@[simp] theorem unstage_cfg : (s.unstage).cfg = s.cfg := rfl
@[simp] theorem unstage_caller : (s.unstage).caller = s.caller := rfl
@[simp] theorem unstage_result : (s.unstage).result = s.result := rfl
@[simp] theorem unstage_trace : (s.unstage).trace = s.trace := rfl

@[simp] theorem stage_rx (a : Word32) (l : Byte) : (s.stage a l).rx = s.rx := rfl
@[simp] theorem stage_tx (a : Word32) (l : Byte) : (s.stage a l).tx = s.tx := rfl
@[simp] theorem stage_ctl (a : Word32) (l : Byte) : (s.stage a l).ctl = { s.ctl with stagedAddr := a, stagedLen := l, stagedValid := true } := rfl
@[simp] theorem stage_buf (a : Word32) (l : Byte) : (s.stage a l).buf = s.buf := rfl
@[simp] theorem stage_plain (a : Word32) (l : Byte) : (s.stage a l).plain = s.plain := rfl
@[simp] theorem stage_env (a : Word32) (l : Byte) : (s.stage a l).env = s.env := rfl
@[simp] theorem stage_cfg (a : Word32) (l : Byte) : (s.stage a l).cfg = s.cfg := rfl
@[simp] theorem stage_caller (a : Word32) (l : Byte) : (s.stage a l).caller = s.caller := rfl
@[simp] theorem stage_result (a : Word32) (l : Byte) : (s.stage a l).result = s.result := rfl
@[simp] theorem stage_trace (a : Word32) (l : Byte) : (s.stage a l).trace = s.trace := rfl

@[simp] theorem startErase_rx (op : Byte) : (s.startErase op).rx = s.rx := rfl
@[simp] theorem startErase_tx (op : Byte) : (s.startErase op).tx = s.tx := rfl
@[simp] theorem startErase_ctl (op : Byte) : (s.startErase op).ctl = { s.ctl with eraseIdx := 0, eraseOp := op } := rfl
@[simp] theorem startErase_buf (op : Byte) : (s.startErase op).buf = s.buf := rfl
@[simp] theorem startErase_plain (op : Byte) : (s.startErase op).plain = s.plain := rfl
@[simp] theorem startErase_env (op : Byte) : (s.startErase op).env = s.env := rfl
@[simp] theorem startErase_cfg (op : Byte) : (s.startErase op).cfg = s.cfg := rfl
@[simp] theorem startErase_caller (op : Byte) : (s.startErase op).caller = s.caller := rfl
@[simp] theorem startErase_result (op : Byte) : (s.startErase op).result = s.result := rfl
@[simp] theorem startErase_trace (op : Byte) : (s.startErase op).trace = s.trace := rfl

@[simp] theorem rxStore_rx (b : Byte) : (s.rxStore b).rx = { s.rx with cnt := s.rx.cnt + 1, ck := s.cfg.ckUpdate s.rx.ck b } := rfl
@[simp] theorem rxStore_tx (b : Byte) : (s.rxStore b).tx = s.tx := rfl
@[simp] theorem rxStore_ctl (b : Byte) : (s.rxStore b).ctl = s.ctl := rfl
@[simp] theorem rxStore_buf (b : Byte) : (s.rxStore b).buf = memSet s.buf s.rx.cnt.toNat b := rfl
@[simp] theorem rxStore_plain (b : Byte) : (s.rxStore b).plain = s.plain := rfl
@[simp] theorem rxStore_env (b : Byte) : (s.rxStore b).env = s.env := rfl
@[simp] theorem rxStore_cfg (b : Byte) : (s.rxStore b).cfg = s.cfg := rfl
@[simp] theorem rxStore_caller (b : Byte) : (s.rxStore b).caller = s.caller := rfl
@[simp] theorem rxStore_result (b : Byte) : (s.rxStore b).result = s.result := rfl
@[simp] theorem rxStore_trace (b : Byte) : (s.rxStore b).trace = s.trace := rfl

@[simp] theorem bufPut_rx (bytes : List Byte) : (s.bufPut bytes).rx = s.rx := rfl
@[simp] theorem bufPut_tx (bytes : List Byte) : (s.bufPut bytes).tx = s.tx := rfl
@[simp] theorem bufPut_ctl (bytes : List Byte) : (s.bufPut bytes).ctl = s.ctl := rfl
@[simp] theorem bufPut_buf (bytes : List Byte) : (s.bufPut bytes).buf = memSetBytes s.buf 0 bytes := rfl
@[simp] theorem bufPut_plain (bytes : List Byte) : (s.bufPut bytes).plain = s.plain := rfl
@[simp] theorem bufPut_env (bytes : List Byte) : (s.bufPut bytes).env = s.env := rfl
@[simp] theorem bufPut_cfg (bytes : List Byte) : (s.bufPut bytes).cfg = s.cfg := rfl
@[simp] theorem bufPut_caller (bytes : List Byte) : (s.bufPut bytes).caller = s.caller := rfl
@[simp] theorem bufPut_result (bytes : List Byte) : (s.bufPut bytes).result = s.result := rfl
@[simp] theorem bufPut_trace (bytes : List Byte) : (s.bufPut bytes).trace = s.trace := rfl

@[simp] theorem plainPut_rx (bytes : List Byte) : (s.plainPut bytes).rx = s.rx := rfl
@[simp] theorem plainPut_tx (bytes : List Byte) : (s.plainPut bytes).tx = s.tx := rfl
@[simp] theorem plainPut_ctl (bytes : List Byte) : (s.plainPut bytes).ctl = s.ctl := rfl
@[simp] theorem plainPut_buf (bytes : List Byte) : (s.plainPut bytes).buf = s.buf := rfl
@[simp] theorem plainPut_plain (bytes : List Byte) : (s.plainPut bytes).plain = memSetBytes s.plain 0 bytes := rfl
@[simp] theorem plainPut_env (bytes : List Byte) : (s.plainPut bytes).env = s.env := rfl
@[simp] theorem plainPut_cfg (bytes : List Byte) : (s.plainPut bytes).cfg = s.cfg := rfl
@[simp] theorem plainPut_caller (bytes : List Byte) : (s.plainPut bytes).caller = s.caller := rfl
@[simp] theorem plainPut_result (bytes : List Byte) : (s.plainPut bytes).result = s.result := rfl
@[simp] theorem plainPut_trace (bytes : List Byte) : (s.plainPut bytes).trace = s.trace := rfl

@[simp] theorem serialGet_rx : (s.serialGet).2.rx = s.rx := rfl
@[simp] theorem serialGet_tx : (s.serialGet).2.tx = s.tx := rfl
@[simp] theorem serialGet_ctl : (s.serialGet).2.ctl = s.ctl := rfl
@[simp] theorem serialGet_buf : (s.serialGet).2.buf = s.buf := rfl
@[simp] theorem serialGet_plain : (s.serialGet).2.plain = s.plain := rfl
@[simp] theorem serialGet_cfg : (s.serialGet).2.cfg = s.cfg := rfl
@[simp] theorem serialGet_caller : (s.serialGet).2.caller = s.caller := rfl
@[simp] theorem serialGet_result : (s.serialGet).2.result = s.result := rfl
@[simp] theorem serialGet_trace : (s.serialGet).2.trace = s.trace ++ [.serialGet s.serialGet.1] := rfl
@[simp] theorem serialGet_flash : (s.serialGet).2.env.flash = s.env.flash := rfl
@[simp] theorem serialGet_serialOut : (s.serialGet).2.env.serialOut = s.env.serialOut := rfl

@[simp] theorem sink_rx (b : Byte) : (s.sink b).2.rx = s.rx := rfl
@[simp] theorem sink_tx (b : Byte) : (s.sink b).2.tx = s.tx := rfl
@[simp] theorem sink_ctl (b : Byte) : (s.sink b).2.ctl = s.ctl := rfl
@[simp] theorem sink_buf (b : Byte) : (s.sink b).2.buf = s.buf := rfl
@[simp] theorem sink_plain (b : Byte) : (s.sink b).2.plain = s.plain := rfl
@[simp] theorem sink_cfg (b : Byte) : (s.sink b).2.cfg = s.cfg := rfl
@[simp] theorem sink_caller (b : Byte) : (s.sink b).2.caller = s.caller := rfl
@[simp] theorem sink_result (b : Byte) : (s.sink b).2.result = s.result := rfl
@[simp] theorem sink_trace (b : Byte) : (s.sink b).2.trace = s.trace ++ [.serialPut b (s.sink b).1] := rfl
@[simp] theorem sink_flash (b : Byte) : (s.sink b).2.env.flash = s.env.flash := rfl

@[simp] theorem sectorErased_rx (r : Region) (k : Nat) : (s.sectorErased r k).2.rx = s.rx := rfl
@[simp] theorem sectorErased_tx (r : Region) (k : Nat) : (s.sectorErased r k).2.tx = s.tx := rfl
@[simp] theorem sectorErased_ctl (r : Region) (k : Nat) : (s.sectorErased r k).2.ctl = s.ctl := rfl
@[simp] theorem sectorErased_buf (r : Region) (k : Nat) : (s.sectorErased r k).2.buf = s.buf := rfl
@[simp] theorem sectorErased_plain (r : Region) (k : Nat) : (s.sectorErased r k).2.plain = s.plain := rfl
@[simp] theorem sectorErased_cfg (r : Region) (k : Nat) : (s.sectorErased r k).2.cfg = s.cfg := rfl
@[simp] theorem sectorErased_caller (r : Region) (k : Nat) : (s.sectorErased r k).2.caller = s.caller := rfl
@[simp] theorem sectorErased_result (r : Region) (k : Nat) : (s.sectorErased r k).2.result = s.result := rfl
@[simp] theorem sectorErased_trace (r : Region) (k : Nat) : (s.sectorErased r k).2.trace = s.trace ++ [.sectorErased r k (s.sectorErased r k).1] := rfl
@[simp] theorem sectorErased_flash (r : Region) (k : Nat) : (s.sectorErased r k).2.env.flash = s.env.flash := rfl
@[simp] theorem sectorErased_serialOut (r : Region) (k : Nat) : (s.sectorErased r k).2.env.serialOut = s.env.serialOut := rfl

@[simp] theorem fwCheck_rx : (s.fwCheck).2.rx = s.rx := rfl
@[simp] theorem fwCheck_tx : (s.fwCheck).2.tx = s.tx := rfl
@[simp] theorem fwCheck_ctl : (s.fwCheck).2.ctl = s.ctl := rfl
@[simp] theorem fwCheck_buf : (s.fwCheck).2.buf = s.buf := rfl
@[simp] theorem fwCheck_plain : (s.fwCheck).2.plain = s.plain := rfl
@[simp] theorem fwCheck_env : (s.fwCheck).2.env = s.env := rfl
@[simp] theorem fwCheck_cfg : (s.fwCheck).2.cfg = s.cfg := rfl
@[simp] theorem fwCheck_caller : (s.fwCheck).2.caller = s.caller := rfl
@[simp] theorem fwCheck_result : (s.fwCheck).2.result = s.result := rfl
@[simp] theorem fwCheck_trace : (s.fwCheck).2.trace = s.trace ++ [.fwCheck s.fwCheck.1] := rfl

@[simp] theorem now_rx : (s.now).2.rx = s.rx := rfl
@[simp] theorem now_tx : (s.now).2.tx = s.tx := rfl
@[simp] theorem now_ctl : (s.now).2.ctl = s.ctl := rfl
@[simp] theorem now_buf : (s.now).2.buf = s.buf := rfl
@[simp] theorem now_plain : (s.now).2.plain = s.plain := rfl
@[simp] theorem now_cfg : (s.now).2.cfg = s.cfg := rfl
@[simp] theorem now_caller : (s.now).2.caller = s.caller := rfl
@[simp] theorem now_result : (s.now).2.result = s.result := rfl
@[simp] theorem now_trace : (s.now).2.trace = s.trace ++ [.clockMs s.now.1] := rfl
@[simp] theorem now_flash : (s.now).2.env.flash = s.env.flash := rfl
@[simp] theorem now_serialOut : (s.now).2.env.serialOut = s.env.serialOut := rfl

@[simp] theorem strapAsserted_rx : (s.strapAsserted).2.rx = s.rx := rfl
@[simp] theorem strapAsserted_tx : (s.strapAsserted).2.tx = s.tx := rfl
@[simp] theorem strapAsserted_ctl : (s.strapAsserted).2.ctl = s.ctl := rfl
@[simp] theorem strapAsserted_buf : (s.strapAsserted).2.buf = s.buf := rfl
@[simp] theorem strapAsserted_plain : (s.strapAsserted).2.plain = s.plain := rfl
@[simp] theorem strapAsserted_cfg : (s.strapAsserted).2.cfg = s.cfg := rfl
@[simp] theorem strapAsserted_caller : (s.strapAsserted).2.caller = s.caller := rfl
@[simp] theorem strapAsserted_result : (s.strapAsserted).2.result = s.result := rfl
@[simp] theorem strapAsserted_trace : (s.strapAsserted).2.trace = s.trace ++ [.strapAsserted s.strapAsserted.1] := rfl
@[simp] theorem strapAsserted_flash : (s.strapAsserted).2.env.flash = s.env.flash := rfl
@[simp] theorem strapAsserted_serialOut : (s.strapAsserted).2.env.serialOut = s.env.serialOut := rfl

@[simp] theorem sectorErase_rx (r : Region) (k : Nat) : (s.sectorErase r k).rx = s.rx := rfl
@[simp] theorem sectorErase_tx (r : Region) (k : Nat) : (s.sectorErase r k).tx = s.tx := rfl
@[simp] theorem sectorErase_ctl (r : Region) (k : Nat) : (s.sectorErase r k).ctl = s.ctl := rfl
@[simp] theorem sectorErase_buf (r : Region) (k : Nat) : (s.sectorErase r k).buf = s.buf := rfl
@[simp] theorem sectorErase_plain (r : Region) (k : Nat) : (s.sectorErase r k).plain = s.plain := rfl
@[simp] theorem sectorErase_cfg (r : Region) (k : Nat) : (s.sectorErase r k).cfg = s.cfg := rfl
@[simp] theorem sectorErase_caller (r : Region) (k : Nat) : (s.sectorErase r k).caller = s.caller := rfl
@[simp] theorem sectorErase_result (r : Region) (k : Nat) : (s.sectorErase r k).result = s.result := rfl
@[simp] theorem sectorErase_trace (r : Region) (k : Nat) : (s.sectorErase r k).trace = s.trace ++ [.sectorErase r k] := rfl

@[simp] theorem flashWrite_rx (a : Word32) (bytes : List Byte) :
    (s.flashWrite a bytes).2.rx = s.rx := by
  unfold State.flashWrite; dsimp only; split <;> rfl
@[simp] theorem flashWrite_tx (a : Word32) (bytes : List Byte) :
    (s.flashWrite a bytes).2.tx = s.tx := by
  unfold State.flashWrite; dsimp only; split <;> rfl
@[simp] theorem flashWrite_ctl (a : Word32) (bytes : List Byte) :
    (s.flashWrite a bytes).2.ctl = s.ctl := by
  unfold State.flashWrite; dsimp only; split <;> rfl
@[simp] theorem flashWrite_buf (a : Word32) (bytes : List Byte) :
    (s.flashWrite a bytes).2.buf = s.buf := by
  unfold State.flashWrite; dsimp only; split <;> rfl
@[simp] theorem flashWrite_plain (a : Word32) (bytes : List Byte) :
    (s.flashWrite a bytes).2.plain = s.plain := by
  unfold State.flashWrite; dsimp only; split <;> rfl
@[simp] theorem flashWrite_cfg (a : Word32) (bytes : List Byte) :
    (s.flashWrite a bytes).2.cfg = s.cfg := by
  unfold State.flashWrite; dsimp only; split <;> rfl
@[simp] theorem flashWrite_caller (a : Word32) (bytes : List Byte) :
    (s.flashWrite a bytes).2.caller = s.caller := by
  unfold State.flashWrite; dsimp only; split <;> rfl
@[simp] theorem flashWrite_result (a : Word32) (bytes : List Byte) :
    (s.flashWrite a bytes).2.result = s.result := by
  unfold State.flashWrite; dsimp only; split <;> rfl
@[simp] theorem flashWrite_trace (a : Word32) (bytes : List Byte) :
    (s.flashWrite a bytes).2.trace = s.trace ++ [.flashWrite a bytes (s.flashWrite a bytes).1] := by
  unfold State.flashWrite
  cases h : (draw s.env.writeAnswer Config.freeWriteAnswer s.env.drawn).1 <;> simp only [h] <;> rfl

@[simp] theorem eraseCompleted_rx (r : Region) : (s.eraseCompleted r).rx = s.rx := by
  cases r <;> rfl
@[simp] theorem eraseCompleted_tx (r : Region) : (s.eraseCompleted r).tx = s.tx := by
  cases r <;> rfl
@[simp] theorem eraseCompleted_ctl (r : Region) : (s.eraseCompleted r).ctl = match r with
      | .app => { s.ctl with updateInProgress := true, stagedValid := false }
      | .ud => s.ctl := by
  cases r <;> rfl
@[simp] theorem eraseCompleted_buf (r : Region) : (s.eraseCompleted r).buf = s.buf := by
  cases r <;> rfl
@[simp] theorem eraseCompleted_plain (r : Region) : (s.eraseCompleted r).plain = s.plain := by
  cases r <;> rfl
@[simp] theorem eraseCompleted_env (r : Region) : (s.eraseCompleted r).env = s.env := by
  cases r <;> rfl
@[simp] theorem eraseCompleted_cfg (r : Region) : (s.eraseCompleted r).cfg = s.cfg := by
  cases r <;> rfl
@[simp] theorem eraseCompleted_caller (r : Region) : (s.eraseCompleted r).caller = s.caller := by
  cases r <;> rfl
@[simp] theorem eraseCompleted_result (r : Region) : (s.eraseCompleted r).result = s.result := by
  cases r <;> rfl
@[simp] theorem eraseCompleted_trace (r : Region) : (s.eraseCompleted r).trace = s.trace := by
  cases r <;> rfl

@[simp] theorem txLoad_rx (packet : List Byte) : (txLoad packet s).rx = s.rx := rfl
@[simp] theorem txLoad_ctl (packet : List Byte) : (txLoad packet s).ctl = s.ctl := rfl
@[simp] theorem txLoad_buf (packet : List Byte) : (txLoad packet s).buf = s.buf := rfl
@[simp] theorem txLoad_plain (packet : List Byte) : (txLoad packet s).plain = s.plain := rfl
@[simp] theorem txLoad_env (packet : List Byte) : (txLoad packet s).env = s.env := rfl
@[simp] theorem txLoad_cfg (packet : List Byte) : (txLoad packet s).cfg = s.cfg := rfl
@[simp] theorem txLoad_caller (packet : List Byte) : (txLoad packet s).caller = s.caller := rfl
@[simp] theorem txLoad_result (packet : List Byte) : (txLoad packet s).result = s.result := rfl
@[simp] theorem txLoad_trace (packet : List Byte) : (txLoad packet s).trace = s.trace := rfl

end Sys2Proof.Machine
end

