-- ==== Sys2Proof/Laws/Memory.lean ====
section
/-! SUPPORT. The laws of the three memories: a read after a write, and that every operation keeps the
canonical form. -/

namespace Sys2Proof.Machine

/-! ### Reads after writes -/

theorem memGet?_memSet (m : Memory) (a : Nat) (b : Byte) (i : Nat) :
    memGet? (memSet m a b) i = if i = a then some b else memGet? m i := by
  induction m with
  | nil => simp [memSet, memGet?, eq_comm]
  | cons x m ih =>
    obtain ⟨k, c⟩ := x
    simp only [memSet]
    split
    · simp [memGet?, eq_comm]
    · split
      · subst a; by_cases h : i = k <;> simp [memGet?, h, eq_comm]
      · by_cases h : k = i
        · subst h; simp [memGet?]; omega
        · simp [memGet?, h, ih]

theorem memGet?_memSetBytes (bytes : List Byte) (m : Memory) (a i : Nat) :
    memGet? (memSetBytes m a bytes) i =
      if a ≤ i ∧ i < a + bytes.length then bytes[i - a]? else memGet? m i := by
  induction bytes generalizing m a with
  | nil => simp [memSetBytes]
  | cons b bytes ih =>
    rw [memSetBytes, ih, memGet?_memSet]
    by_cases h1 : i = a
    · subst h1; simp
    · by_cases h2 : a + 1 ≤ i ∧ i < a + 1 + bytes.length
      · have h3 : a ≤ i ∧ i < a + (b :: bytes).length := by simp; omega
        rw [if_pos h2, if_pos h3, show i - a = (i - (a + 1)) + 1 by omega, List.getElem?_cons_succ]
      · have h3 : ¬(a ≤ i ∧ i < a + (b :: bytes).length) := by simp; omega
        rw [if_neg h2, if_neg h3, if_neg h1]

/-- A packet or plaintext written from index 0 on. -/
theorem written_memSetBytes (m : Memory) (bytes : List Byte) :
    memGet? (memSetBytes m 0 bytes) = fun i =>
      if i < bytes.length then bytes[i]? else memGet? m i := by
  funext i; simp [memGet?_memSetBytes]

theorem memErase_sublist (m : Memory) (a : Nat) : (memErase m a).Sublist m := by
  induction m with
  | nil => exact .slnil
  | cons x m ih =>
    obtain ⟨k, c⟩ := x
    simp only [memErase]
    split
    · exact List.sublist_cons_self _ _
    · exact ih.cons_cons _

theorem memGet?_none_of_lt {m : Memory} {a : Nat} (h : ∀ x ∈ m, a < x.1) : memGet? m a = none := by
  induction m with
  | nil => rfl
  | cons x m ih =>
    obtain ⟨k, c⟩ := x
    have := h (k, c) (by simp)
    rw [memGet?, if_neg (by simp at this; omega)]
    exact ih fun y hy => h y (by simp [hy])

theorem memGet?_memErase {m : Memory} (h : m.Pairwise (fun x y => x.1 < y.1)) (a i : Nat) :
    memGet? (memErase m a) i = if i = a then none else memGet? m i := by
  induction m with
  | nil => simp [memErase, memGet?]
  | cons x m ih =>
    obtain ⟨k, c⟩ := x
    rw [List.pairwise_cons] at h
    simp only [memErase]
    split
    · subst a
      by_cases hi : i = k
      · subst hi; simp [memGet?_none_of_lt h.1]
      · simp [memGet?, hi, eq_comm]
    · by_cases hi : k = i
      · subst hi; simp [memGet?]; omega
      · simp [memGet?, hi, ih h.2]

theorem memGet?_mem {m : Memory} {a : Nat} {b : Byte} (h : memGet? m a = some b) : (a, b) ∈ m := by
  induction m with
  | nil => simp [memGet?] at h
  | cons x m ih =>
    obtain ⟨k, c⟩ := x
    rw [memGet?] at h
    split at h
    · next hk => cases h; subst hk; simp
    · exact List.mem_cons_of_mem _ (ih h)

/-! ### The canonical form -/

theorem mem_memSet {m : Memory} {a : Nat} {b : Byte} {x : Host.Cell} (h : x ∈ memSet m a b) :
    x = (a, b) ∨ x ∈ m := by
  induction m with
  | nil => simpa [memSet] using h
  | cons y m ih =>
    obtain ⟨k, c⟩ := y
    simp only [memSet] at h
    split at h
    · simpa using h
    · split at h
      · rcases List.mem_cons.1 h with h | h <;> simp [h]
      · rcases List.mem_cons.1 h with h | h
        · simp [h]
        · rcases ih h with h | h <;> simp [h]

theorem pairwise_memSet {m : Memory} (h : m.Pairwise (fun x y => x.1 < y.1)) (a : Nat) (b : Byte) :
    (memSet m a b).Pairwise (fun x y => x.1 < y.1) := by
  induction m with
  | nil => simp [memSet]
  | cons y m ih =>
    obtain ⟨k, c⟩ := y
    rw [List.pairwise_cons] at h
    simp only [memSet]
    split
    · next hak =>
      refine List.pairwise_cons.2 ⟨?_, List.pairwise_cons.2 h⟩
      intro x hx
      rcases List.mem_cons.1 hx with rfl | hx
      · exact hak
      · exact hak.trans (h.1 x hx)
    · split
      · next hak => subst hak; exact List.pairwise_cons.2 h
      · refine List.pairwise_cons.2 ⟨?_, ih h.2⟩
        intro x hx
        rcases mem_memSet hx with rfl | hx
        · simp; omega
        · exact h.1 x hx

theorem wfBelow_memSet {m : Memory} {bound a : Nat} (h : Memory.wfBelow bound m) (ha : a < bound)
    (b : Byte) : Memory.wfBelow bound (memSet m a b) := by
  refine ⟨pairwise_memSet h.1 a b, fun x hx => ?_⟩
  rcases mem_memSet hx with rfl | hx
  · exact ha
  · exact h.2 x hx

theorem wfBelow_memSetBytes {bytes : List Byte} {m : Memory} {bound a : Nat}
    (h : Memory.wfBelow bound m) (ha : a + bytes.length ≤ bound) :
    Memory.wfBelow bound (memSetBytes m a bytes) := by
  induction bytes generalizing m a with
  | nil => exact h
  | cons b bytes ih =>
    simp only [List.length_cons] at ha
    exact ih (wfBelow_memSet h (by omega) b) (by omega)

theorem wfBelow_sublist {m m' : Memory} {bound : Nat} (h : Memory.wfBelow bound m)
    (hs : m'.Sublist m) : Memory.wfBelow bound m' :=
  ⟨h.1.sublist hs, fun x hx => h.2 x (hs.subset hx)⟩

theorem flashWf_set {m : Memory} (h : Memory.wf m) (a : Nat) (b : Byte) : Memory.wf (flashSet m a b) := by
  unfold flashSet
  split
  · next ha =>
    split
    · exact ⟨wfBelow_sublist h.1 (memErase_sublist m a),
        fun x hx => h.2 x ((memErase_sublist m a).subset hx)⟩
    · next hb =>
      refine ⟨wfBelow_memSet h.1 ha b, fun x hx => ?_⟩
      rcases mem_memSet hx with rfl | hx
      · exact hb
      · exact h.2 x hx
  · exact h

theorem flashWf_setBytes {bytes : List Byte} {m : Memory} (h : Memory.wf m) (a : Nat) :
    Memory.wf (flashSetBytes m a bytes) := by
  induction bytes generalizing m a with
  | nil => exact h
  | cons b bytes ih => exact ih (flashWf_set h a b) _

theorem flashWf_setLeft {m : Memory} (h : Memory.wf m) (a n : Nat) (left : List (Option Byte)) :
    Memory.wf (flashSetLeft m a n left) := by
  induction n generalizing m a left with
  | zero => exact h
  | succ n ih =>
    match left with
    | [] => exact h
    | none :: left => exact ih h _ _
    | some b :: left => exact ih (flashWf_set h a b) _ _

theorem flashWf_setCells {cells : List Host.Cell} {m : Memory} (h : Memory.wf m) :
    Memory.wf (flashSetCells m cells) := by
  induction cells generalizing m with
  | nil => exact h
  | cons x cells ih => exact ih (flashWf_set h x.1 x.2)

theorem flashWf_nil : Memory.wf [] := by simp [Memory.wf, Memory.wfBelow]

/-! ### Flash -/

theorem flashGet_set {m : Memory} (h : Memory.wf m) (a : Nat) (b : Byte) (i : Nat) :
    flashGet (flashSet m a b) i = if i = a ∧ a < flashSize then b else flashGet m i := by
  unfold flashSet
  split
  · next ha =>
    split
    · next hb =>
      by_cases hi : i = a <;> simp [flashGet, memGet?_memErase h.1.1, hi, ha, hb]
    · by_cases hi : i = a <;> simp [flashGet, memGet?_memSet, hi, ha]
  · next ha => simp [ha]

/-- What flash reads as after bytes were stored from `a` on, inside the address space. -/
theorem flashGet_setBytes {bytes : List Byte} {m : Memory} (h : Memory.wf m) {a : Nat}
    (ha : a + bytes.length ≤ flashSize) (i : Nat) :
    flashGet (flashSetBytes m a bytes) i =
      if a ≤ i ∧ i < a + bytes.length then bytes.getD (i - a) 0 else flashGet m i := by
  induction bytes generalizing m a with
  | nil => simp [flashSetBytes]
  | cons b bytes ih =>
    simp only [List.length_cons] at ha
    rw [flashSetBytes, ih (flashWf_set h a b) (by omega), flashGet_set h]
    by_cases h1 : i = a
    · subst h1
      have : i < flashSize := by omega
      simp [this]
    · by_cases h2 : a + 1 ≤ i ∧ i < a + 1 + bytes.length
      · have h3 : a ≤ i ∧ i < a + (b :: bytes).length := by simp; omega
        rw [if_pos h2, if_pos h3, show i - a = (i - (a + 1)) + 1 by omega]
        simp
      · have h3 : ¬(a ≤ i ∧ i < a + (b :: bytes).length) := by simp; omega
        rw [if_neg h2, if_neg h3, if_neg (by simp [h1])]

theorem flashGet_setLeft {m : Memory} (h : Memory.wf m) (a n : Nat) (left : List (Option Byte)) {i : Nat}
    (hi : ¬(a ≤ i ∧ i < a + n)) : flashGet (flashSetLeft m a n left) i = flashGet m i := by
  induction n generalizing m a left with
  | zero => rfl
  | succ n ih =>
    match left with
    | [] => rfl
    | none :: left => exact ih h _ _ (by omega)
    | some b :: left =>
      rw [flashSetLeft, ih (flashWf_set h a b) _ _ (by omega), flashGet_set h]
      exact if_neg (by omega)

theorem flashGetBytes_length (m : Memory) (a n : Nat) : (flashGetBytes m a n).length = n := by
  induction n generalizing a with
  | zero => rfl
  | succ n ih => simp [flashGetBytes, ih]

theorem flashGetBytes_getElem? (m : Memory) (a n i : Nat) (hi : i < n) :
    (flashGetBytes m a n)[i]? = some (flashGet m (a + i)) := by
  induction n generalizing a i with
  | zero => omega
  | succ n ih =>
    cases i with
    | zero => simp [flashGetBytes]
    | succ i => simp [flashGetBytes, ih (a + 1) i (by omega), Nat.add_assoc, Nat.add_comm 1]

/-- A read of what an `OK` write stored returns it (R348). -/
theorem flashGetBytes_setBytes {bytes : List Byte} {m : Memory} (h : Memory.wf m) {a : Nat}
    (ha : a + bytes.length ≤ flashSize) :
    flashGetBytes (flashSetBytes m a bytes) a bytes.length = bytes := by
  apply List.ext_getElem?
  intro i
  by_cases hi : i < bytes.length
  · rw [flashGetBytes_getElem? _ _ _ _ hi, flashGet_setBytes h ha, if_pos (by omega)]
    simp [hi]
  · rw [List.getElem?_eq_none (by rw [flashGetBytes_length]; omega),
      List.getElem?_eq_none (by omega)]

/-! ### The two buffers -/

theorem bufGet_ok_iff {s : State} {i : Nat} {b : Byte} :
    s.bufGet i = .ok b ↔ i < s.cfg.cap ∧ memGet? s.buf i = some b := by
  unfold State.bufGet
  split
  · next h => cases hm : memGet? s.buf i <;> simp [h]
  · next h => simp [h]

theorem bufGetBytes_ok_iff {s : State} {i n : Nat} {bytes : List Byte} :
    s.bufGetBytes i n = .ok bytes ↔
      bytes.length = n ∧ ∀ j, j < n → i + j < s.cfg.cap ∧ memGet? s.buf (i + j) = bytes[j]? := by
  induction n generalizing i bytes with
  | zero => cases bytes <;> simp [State.bufGetBytes]
  | succ n ih =>
    unfold State.bufGetBytes
    constructor
    · intro h
      cases hb : s.bufGet i with
      | error f => simp [hb] at h
      | ok b =>
        cases hr : s.bufGetBytes (i + 1) n with
        | error f => simp [hb, hr] at h
        | ok rest =>
          simp only [hb, hr, Except.ok.injEq] at h
          subst h
          obtain ⟨hl, hj⟩ := ih.1 hr
          obtain ⟨h1, h2⟩ := bufGet_ok_iff.1 hb
          refine ⟨by simp [hl], fun j hjn => ?_⟩
          cases j with
          | zero => simpa using ⟨h1, h2⟩
          | succ j =>
            have := hj j (by omega)
            simpa [Nat.add_assoc, Nat.add_comm 1] using this
    · rintro ⟨hl, hj⟩
      cases bytes with
      | nil => simp at hl
      | cons b rest =>
        have h0 := hj 0 (by omega)
        simp only [Nat.add_zero, List.getElem?_cons_zero] at h0
        have hr : s.bufGetBytes (i + 1) n = .ok rest := ih.2 ⟨by simpa using hl, fun j hjn => by
          have := hj (j + 1) (by omega)
          simpa [Nat.add_assoc, Nat.add_comm 1] using this⟩
        rw [bufGet_ok_iff.2 h0, hr]

theorem plainGet_ok_iff {s : State} {i : Nat} {b : Byte} :
    s.plainGet i = .ok b ↔ i < s.cfg.p ∧ memGet? s.plain i = some b := by
  unfold State.plainGet
  split
  · next h => cases hm : memGet? s.plain i <;> simp [h]
  · next h => simp [h]

theorem plainGetBytes_ok_iff {s : State} {i n : Nat} {bytes : List Byte} :
    s.plainGetBytes i n = .ok bytes ↔
      bytes.length = n ∧ ∀ j, j < n → i + j < s.cfg.p ∧ memGet? s.plain (i + j) = bytes[j]? := by
  induction n generalizing i bytes with
  | zero => cases bytes <;> simp [State.plainGetBytes]
  | succ n ih =>
    unfold State.plainGetBytes
    constructor
    · intro h
      cases hb : s.plainGet i with
      | error f => simp [hb] at h
      | ok b =>
        cases hr : s.plainGetBytes (i + 1) n with
        | error f => simp [hb, hr] at h
        | ok rest =>
          simp only [hb, hr, Except.ok.injEq] at h
          subst h
          obtain ⟨hl, hj⟩ := ih.1 hr
          obtain ⟨h1, h2⟩ := plainGet_ok_iff.1 hb
          refine ⟨by simp [hl], fun j hjn => ?_⟩
          cases j with
          | zero => simpa using ⟨h1, h2⟩
          | succ j =>
            have := hj j (by omega)
            simpa [Nat.add_assoc, Nat.add_comm 1] using this
    · rintro ⟨hl, hj⟩
      cases bytes with
      | nil => simp at hl
      | cons b rest =>
        have h0 := hj 0 (by omega)
        simp only [Nat.add_zero, List.getElem?_cons_zero] at h0
        have hr : s.plainGetBytes (i + 1) n = .ok rest := ih.2 ⟨by simpa using hl, fun j hjn => by
          have := hj (j + 1) (by omega)
          simpa [Nat.add_assoc, Nat.add_comm 1] using this⟩
        rw [plainGet_ok_iff.2 h0, hr]

/-- `holds` in terms of the bytes themselves. -/
theorem bufGetBytes_zero_ok_iff {s : State} {bytes : List Byte} :
    s.bufGetBytes 0 bytes.length = .ok bytes ↔
      bytes.length ≤ s.cfg.cap ∧ ∀ j, j < bytes.length → memGet? s.buf j = bytes[j]? := by
  rw [bufGetBytes_ok_iff]
  constructor
  · rintro ⟨-, h⟩
    refine ⟨?_, fun j hj => by simpa using (h j hj).2⟩
    rcases Nat.eq_zero_or_pos bytes.length with h0 | h0
    · omega
    · have := (h (bytes.length - 1) (by omega)).1; omega
  · rintro ⟨hc, h⟩
    exact ⟨rfl, fun j hj => ⟨by omega, by simpa using h j hj⟩⟩

/-- A packet that the block has just built is what `buf` holds (R230). -/
theorem bufGetBytes_of_written {s : State} {m : Memory} {packet : List Byte}
    (hb : s.buf = memSetBytes m 0 packet) (hc : packet.length ≤ s.cfg.cap) :
    s.bufGetBytes 0 packet.length = .ok packet := by
  rw [bufGetBytes_zero_ok_iff]
  refine ⟨hc, fun j hj => ?_⟩
  rw [hb, written_memSetBytes]; simp [hj]

/-- A read of `buf` depends on the configuration and the buffer only. -/
theorem bufGetBytes_congr {s t : State} (hc : t.cfg = s.cfg) (hb : t.buf = s.buf) (i n : Nat) :
    t.bufGetBytes i n = s.bufGetBytes i n := by
  induction n generalizing i with
  | zero => rfl
  | succ n ih => simp [State.bufGetBytes, State.bufGet, hc, hb, ih]

theorem plainGetBytes_congr {s t : State} (hc : t.cfg = s.cfg) (hb : t.plain = s.plain) (i n : Nat) :
    t.plainGetBytes i n = s.plainGetBytes i n := by
  induction n generalizing i with
  | zero => rfl
  | succ n ih => simp [State.plainGetBytes, State.plainGet, hc, hb, ih]

theorem holds_of_congr {s t : State} {packet : List Byte} (h : s.holds packet) (hc : t.cfg = s.cfg)
    (hb : t.buf = s.buf) : t.holds packet := by
  unfold State.holds; rw [bufGetBytes_congr hc hb]; exact h

theorem holds_congr {s t : State} (hc : t.cfg = s.cfg) (hb : t.buf = s.buf) (packet : List Byte) :
    t.holds packet ↔ s.holds packet :=
  ⟨fun h => holds_of_congr h hc.symm hb.symm, fun h => holds_of_congr h hc hb⟩

end Sys2Proof.Machine
end

