-- ==== Sys2Proof/Laws/Receiver.lean ====
section
/-! SUPPORT. What one `rx_step` can do (spec/40_frame_receiver.md R121 to R132), said once, and what a
run of literals does. -/

namespace Sys2Proof.Machine

/-- An idle receiver (R121). -/
theorem rxStep_idle {s : State} (h : s.rx.state = .waitStart) (b : Byte) :
    rxStep (some b) s = .ok (.notReceived, rxIdle b s) := by simp [rxStep, h]

/-- A receiver inside a frame goes by the classification (R123). -/
theorem rxStep_busy {s : State} (h : s.rx.state ≠ .waitStart) (b : Byte) :
    rxStep (some b) s =
      match rxClassify s.cfg s.rx.esc b with
      | .literal => rxLiteral b { s with rx := { s.rx with esc := false } }
      | .escapePrefix => .ok (.notReceived, { s with rx := { s.rx with esc := true } })
      | .invalidEscape => .ok (.broken, s.rxAbort.raise .framingInvalidEscape)
      | .unexpectedStart => .ok (.broken, s.rxAbort.raise .framingUnexpectedStart) := if_neg h

theorem rxStep_none (s : State) : rxStep none s = .ok (.notReceived, s) := rfl

/-- The prefix of an escape pair (R125). -/
theorem rxStep_prefix {s : State} (h : s.rx.state ≠ .waitStart) (he : s.rx.esc = false) :
    rxStep (some s.cfg.esc) s = .ok (.notReceived, { s with rx := { s.rx with esc := true } }) := by
  simp [rxStep, h, rxClassify, he]

/-- A literal that needs no escape (R123 (4)). -/
theorem rxStep_plain {s : State} {b : Byte} (h : s.rx.state ≠ .waitStart) (he : s.rx.esc = false)
    (hb : s.cfg.reserved b = false) : rxStep (some b) s = rxLiteral b s := by
  obtain ⟨h1, h2⟩ := not_reserved_iff.1 hb
  have : { s with rx := { s.rx with esc := false } } = s := by rw [← he]
  simp [rxStep, h, rxClassify, he, h1, h2, this]

/-- The literal of an escape pair (R123 (1)). -/
theorem rxStep_escaped {s : State} {b : Byte} (h : s.rx.state ≠ .waitStart) (he : s.rx.esc = true)
    (hb : s.cfg.reserved b = true) :
    rxStep (some b) s = rxLiteral b { s with rx := { s.rx with esc := false } } := by
  have := reserved_iff.1 hb
  simp [rxStep, h, rxClassify, he, this]

/-- A pair that is no escape pair (R124). -/
theorem rxStep_invalid {s : State} {b : Byte} (h : s.rx.state ≠ .waitStart) (he : s.rx.esc = true)
    (hb : s.cfg.reserved b = false) :
    rxStep (some b) s = .ok (.broken, s.rxAbort.raise .framingInvalidEscape) := by
  have := not_reserved_iff.1 hb
  simp [rxStep, h, rxClassify, he, this]

/-- A raw `START` inside a frame (R126). -/
theorem rxStep_unexpected {s : State} (h : s.rx.state ≠ .waitStart) (he : s.rx.esc = false)
    (hc : s.cfg.start ≠ s.cfg.esc) :
    rxStep (some s.cfg.start) s = .ok (.broken, s.rxAbort.raise .framingUnexpectedStart) := by
  simp [rxStep, h, rxClassify, he, hc]

/-- Everything one `rx_step` can do: nothing, an idle byte, an escape prefix, one of the two
classification errors, or a literal. -/
theorem rxStep_cases {input : Option Byte} {s t : State} {r : RxResult}
    (h : rxStep input s = .ok (r, t)) :
    (input = none ∧ r = .notReceived ∧ t = s) ∨
    (∃ b, input = some b ∧ s.rx.state = .waitStart ∧ r = .notReceived ∧ t = rxIdle b s) ∨
    (input = some s.cfg.esc ∧ s.rx.state ≠ .waitStart ∧ s.rx.esc = false ∧ r = .notReceived ∧
      t = { s with rx := { s.rx with esc := true } }) ∨
    (∃ b, input = some b ∧ s.rx.state ≠ .waitStart ∧ s.rx.esc = true ∧ s.cfg.reserved b = false ∧
      r = .broken ∧ t = s.rxAbort.raise .framingInvalidEscape) ∨
    (input = some s.cfg.start ∧ s.rx.state ≠ .waitStart ∧ s.rx.esc = false ∧ r = .broken ∧
      t = s.rxAbort.raise .framingUnexpectedStart) ∨
    (∃ b, input = some b ∧ s.rx.state ≠ .waitStart ∧ s.cfg.reserved b = s.rx.esc ∧
      rxLiteral b { s with rx := { s.rx with esc := false } } = .ok (r, t)) := by
  cases input with
  | none => exact .inl ⟨rfl, by simpa [rxStep, eq_comm] using h⟩
  | some b =>
    by_cases hw : s.rx.state = .waitStart
    · rw [rxStep_idle hw] at h
      simp only [Except.ok.injEq, Prod.mk.injEq] at h
      exact .inr (.inl ⟨b, rfl, hw, h.1.symm, h.2.symm⟩)
    · cases he : s.rx.esc
      · by_cases hb : b = s.cfg.esc
        · subst hb
          rw [rxStep_prefix hw he] at h
          simp only [Except.ok.injEq, Prod.mk.injEq] at h
          exact .inr (.inr (.inl ⟨rfl, hw, rfl, h.1.symm, h.2.symm⟩))
        · by_cases hs : b = s.cfg.start
          · subst hs
            rw [rxStep_unexpected hw he hb] at h
            simp only [Except.ok.injEq, Prod.mk.injEq] at h
            exact .inr (.inr (.inr (.inr (.inl ⟨rfl, hw, rfl, h.1.symm, h.2.symm⟩))))
          · have hr : s.cfg.reserved b = false := not_reserved_iff.2 ⟨hs, hb⟩
            refine .inr (.inr (.inr (.inr (.inr ⟨b, rfl, hw, hr, ?_⟩))))
            rw [rxStep_plain hw he hr] at h
            rw [← h, ← he]
      · cases hr : s.cfg.reserved b
        · rw [rxStep_invalid hw he hr] at h
          simp only [Except.ok.injEq, Prod.mk.injEq] at h
          exact .inr (.inr (.inr (.inl ⟨b, rfl, hw, rfl, hr, h.1.symm, h.2.symm⟩)))
        · rw [rxStep_escaped hw he hr] at h
          exact .inr (.inr (.inr (.inr (.inr ⟨b, rfl, hw, hr, h⟩))))

/-- A byte that R123 delivers as a literal. -/
theorem rxStep_literal {s : State} {b : Byte} (h : s.Literal b) :
    rxStep (some b) s = rxLiteral b { s with rx := { s.rx with esc := false } } := by
  obtain ⟨h1, h2⟩ := h
  cases he : s.rx.esc
  · rw [rxStep_plain h1 he (by rw [h2, he])]
    congr 1; rw [← he]
  · exact rxStep_escaped h1 he (by rw [h2, he])

theorem toNat_succ_of_lt {a b : Word16} (h : a.toNat < b.toNat) : (a + 1).toNat = a.toNat + 1 := by
  have := b.isLt
  rw [BitVec.toNat_add]; simp; omega

/-- The count reaches the length exactly with the last literal (R130). -/
theorem succ_eq_iff {a b : Word16} (h : a.toNat < b.toNat) : a + 1 = b ↔ a.toNat + 1 = b.toNat := by
  rw [← toNat_succ_of_lt h, BitVec.toNat_eq]

/-! ### A literal, state by state (R128 to R132) -/

theorem rxLiteral_lenLo {s : State} (h : s.rx.state = .lenLo) (b : Byte) :
    rxLiteral b s = .ok (.notReceived, { s with rx := { s.rx with
      len := zext16 b, ck := s.cfg.ckUpdate s.rx.ck b, state := .lenHi } }) := by
  simp only [rxLiteral, h]

/-- `rx_len[15:8] <- lit; rx_ck <- ck_update(rx_ck, lit)` (R129). -/
def State.rxLenHi (b : Byte) (s : State) : State :=
  { s with rx := { s.rx with
    len := setHi8 s.rx.len b, ck := s.cfg.ckUpdate s.rx.ck b } }

theorem rxLiteral_lenHi_long {s : State} {b : Byte} (h : s.rx.state = .lenHi)
    (hl : s.cfg.cap < (setHi8 s.rx.len b).toNat) :
    rxLiteral b s = .ok (.broken, (s.rxLenHi b).rxAbort.raise .framingOversize) := by
  simp only [rxLiteral, h, if_pos hl]; rfl

theorem rxLiteral_lenHi_empty {s : State} {b : Byte} (h : s.rx.state = .lenHi)
    (hl : setHi8 s.rx.len b = 0) : rxLiteral b s = .ok (rxPayloadComplete (s.rxLenHi b)) := by
  have h0 : ¬s.cfg.cap < (setHi8 s.rx.len b).toNat := by simp [hl]
  simp only [rxLiteral, h, if_neg h0, if_pos hl]; rfl

theorem rxLiteral_lenHi_body {s : State} {b : Byte} (h : s.rx.state = .lenHi)
    (hl : (setHi8 s.rx.len b).toNat ≤ s.cfg.cap) (h0 : setHi8 s.rx.len b ≠ 0) :
    rxLiteral b s = .ok (.notReceived, (s.rxLenHi b).rxGo .body) := by
  simp only [rxLiteral, h, if_neg (Nat.not_lt.2 hl), if_neg h0]; rfl

/-- A payload literal that is not the last (R130). -/
theorem rxLiteral_body_more {s : State} (h : s.rx.state = .body) (hc : s.rx.cnt.toNat < s.cfg.cap)
    (hl : s.rx.cnt + 1 ≠ s.rx.len) (b : Byte) :
    rxLiteral b s = .ok (.notReceived, s.rxStore b) := by
  simp only [rxLiteral, h, if_pos hc, rxStore_rx, if_neg hl]

/-- The last payload literal (R130, R131). -/
theorem rxLiteral_body_last {s : State} (h : s.rx.state = .body) (hc : s.rx.cnt.toNat < s.cfg.cap)
    (hl : s.rx.cnt + 1 = s.rx.len) (b : Byte) :
    rxLiteral b s = .ok (rxPayloadComplete (s.rxStore b)) := by
  simp only [rxLiteral, h, if_pos hc, rxStore_rx, if_pos hl]

theorem rxLiteral_body_fault {s : State} (h : s.rx.state = .body) (hc : s.cfg.cap ≤ s.rx.cnt.toNat)
    (b : Byte) : rxLiteral b s = .error (.bufIndex s.rx.cnt.toNat) := by
  simp only [rxLiteral, h, if_neg (Nat.not_lt.2 hc)]

theorem rxLiteral_crcLo {s : State} (h : s.rx.state = .crcLo) (b : Byte) :
    rxLiteral b s = .ok (.notReceived,
      { s with rx := { s.rx with ckrx := zext16 b, state := .crcHi } }) := by
  simp only [rxLiteral, h]

/-- The second checksum literal (R132). -/
def State.rxCrcHi (b : Byte) (s : State) : State :=
  { s with rx := { s.rx with ckrx := setHi8 s.rx.ckrx b, state := .waitStart } }

theorem rxLiteral_crcHi_match {s : State} {b : Byte} (h : s.rx.state = .crcHi)
    (hk : setHi8 s.rx.ckrx b = s.rx.ck) : rxLiteral b s = .ok (.received, s.rxCrcHi b) := by
  simp only [rxLiteral, h, if_pos hk]; rfl

theorem rxLiteral_crcHi_mismatch {s : State} {b : Byte} (h : s.rx.state = .crcHi)
    (hk : setHi8 s.rx.ckrx b ≠ s.rx.ck) :
    rxLiteral b s = .ok (.broken, (s.rxCrcHi b).raise .framingChecksum) := by
  simp only [rxLiteral, h, if_neg hk]; rfl

theorem rxPayloadComplete_crc {s : State} (h : s.cfg.crcEnable = true) :
    rxPayloadComplete s = (.notReceived, s.rxGo .crcLo) := by simp [rxPayloadComplete, h]

theorem rxPayloadComplete_bare {s : State} (h : s.cfg.crcEnable = false) :
    rxPayloadComplete s = (.received, s.rxGo .waitStart) := by simp [rxPayloadComplete, h]

/-- The end of the payload (R131). -/
theorem rxPayloadComplete_cases {s t : State} {r : RxResult} (h : (r, t) = rxPayloadComplete s) :
    (s.cfg.crcEnable = true ∧ r = .notReceived ∧ t = s.rxGo .crcLo) ∨
    (s.cfg.crcEnable = false ∧ r = .received ∧ t = s.rxGo .waitStart) := by
  cases hc : s.cfg.crcEnable
  · rw [rxPayloadComplete_bare hc] at h; cases h; exact .inr ⟨rfl, rfl, rfl⟩
  · rw [rxPayloadComplete_crc hc] at h; cases h; exact .inl ⟨rfl, rfl, rfl⟩

/-- Everything a literal can do outside `WAIT_START` when it does not run over the buffer. -/
theorem rxLiteral_cases {s t : State} {b : Byte} {r : RxResult} (hs : s.rx.state ≠ .waitStart)
    (h : rxLiteral b s = .ok (r, t)) :
    (s.rx.state = .lenLo ∧ r = .notReceived ∧ t = { s with rx := { s.rx with
      len := zext16 b, ck := s.cfg.ckUpdate s.rx.ck b, state := .lenHi } }) ∨
    (s.rx.state = .lenHi ∧ s.cfg.cap < (setHi8 s.rx.len b).toNat ∧ r = .broken ∧
      t = (s.rxLenHi b).rxAbort.raise .framingOversize) ∨
    (s.rx.state = .lenHi ∧ setHi8 s.rx.len b = 0 ∧ (r, t) = rxPayloadComplete (s.rxLenHi b)) ∨
    (s.rx.state = .lenHi ∧ (setHi8 s.rx.len b).toNat ≤ s.cfg.cap ∧ setHi8 s.rx.len b ≠ 0 ∧
      r = .notReceived ∧ t = (s.rxLenHi b).rxGo .body) ∨
    (s.rx.state = .body ∧ s.rx.cnt.toNat < s.cfg.cap ∧ s.rx.cnt + 1 ≠ s.rx.len ∧
      r = .notReceived ∧ t = s.rxStore b) ∨
    (s.rx.state = .body ∧ s.rx.cnt.toNat < s.cfg.cap ∧ s.rx.cnt + 1 = s.rx.len ∧
      (r, t) = rxPayloadComplete (s.rxStore b)) ∨
    (s.rx.state = .crcLo ∧ r = .notReceived ∧
      t = { s with rx := { s.rx with ckrx := zext16 b, state := .crcHi } }) ∨
    (s.rx.state = .crcHi ∧ setHi8 s.rx.ckrx b = s.rx.ck ∧ r = .received ∧ t = s.rxCrcHi b) ∨
    (s.rx.state = .crcHi ∧ setHi8 s.rx.ckrx b ≠ s.rx.ck ∧ r = .broken ∧
      t = (s.rxCrcHi b).raise .framingChecksum) := by
  cases hst : s.rx.state with
  | waitStart => exact absurd hst hs
  | lenLo =>
    rw [rxLiteral_lenLo hst] at h; cases h
    exact .inl ⟨rfl, rfl, rfl⟩
  | lenHi =>
    by_cases h1 : s.cfg.cap < (setHi8 s.rx.len b).toNat
    · rw [rxLiteral_lenHi_long hst h1] at h; cases h
      exact .inr (.inl ⟨rfl, h1, rfl, rfl⟩)
    · by_cases h2 : setHi8 s.rx.len b = 0
      · rw [rxLiteral_lenHi_empty hst h2] at h
        exact .inr (.inr (.inl ⟨rfl, h2, (Except.ok.inj h).symm⟩))
      · rw [rxLiteral_lenHi_body hst (Nat.not_lt.1 h1) h2] at h; cases h
        exact .inr (.inr (.inr (.inl ⟨rfl, Nat.not_lt.1 h1, h2, rfl, rfl⟩)))
  | body =>
    by_cases hc : s.rx.cnt.toNat < s.cfg.cap
    · by_cases hl : s.rx.cnt + 1 = s.rx.len
      · rw [rxLiteral_body_last hst hc hl] at h
        exact .inr (.inr (.inr (.inr (.inr (.inl ⟨rfl, hc, hl, (Except.ok.inj h).symm⟩)))))
      · rw [rxLiteral_body_more hst hc hl] at h; cases h
        exact .inr (.inr (.inr (.inr (.inl ⟨rfl, hc, hl, rfl, rfl⟩))))
    · rw [rxLiteral_body_fault hst (Nat.not_lt.1 hc)] at h; cases h
  | crcLo =>
    rw [rxLiteral_crcLo hst] at h; cases h
    exact .inr (.inr (.inr (.inr (.inr (.inr (.inl ⟨rfl, rfl, rfl⟩))))))
  | crcHi =>
    by_cases h1 : setHi8 s.rx.ckrx b = s.rx.ck
    · rw [rxLiteral_crcHi_match hst h1] at h; cases h
      exact .inr (.inr (.inr (.inr (.inr (.inr (.inr (.inl ⟨rfl, h1, rfl, rfl⟩)))))))
    · rw [rxLiteral_crcHi_mismatch hst h1] at h; cases h
      exact .inr (.inr (.inr (.inr (.inr (.inr (.inr (.inr ⟨rfl, h1, rfl, rfl⟩)))))))

/-! ### Totality -/

/-- Inside the buffer a literal always has a result. -/
theorem rxLiteral_total {s : State} (b : Byte)
    (h : s.rx.state = .body → s.rx.cnt.toNat < s.cfg.cap) : ∃ p, rxLiteral b s = .ok p := by
  cases hst : s.rx.state with
  | waitStart => exact ⟨(.notReceived, s), by simp only [rxLiteral, hst]⟩
  | lenLo => exact ⟨_, rxLiteral_lenLo hst b⟩
  | lenHi =>
    by_cases h1 : s.cfg.cap < (setHi8 s.rx.len b).toNat
    · exact ⟨_, rxLiteral_lenHi_long hst h1⟩
    · by_cases h2 : setHi8 s.rx.len b = 0
      · exact ⟨_, rxLiteral_lenHi_empty hst h2⟩
      · exact ⟨_, rxLiteral_lenHi_body hst (Nat.not_lt.1 h1) h2⟩
  | body =>
    by_cases hl : s.rx.cnt + 1 = s.rx.len
    · exact ⟨_, rxLiteral_body_last hst (h hst) hl b⟩
    · exact ⟨_, rxLiteral_body_more hst (h hst) hl b⟩
  | crcLo => exact ⟨_, rxLiteral_crcLo hst b⟩
  | crcHi =>
    by_cases h1 : setHi8 s.rx.ckrx b = s.rx.ck
    · exact ⟨_, rxLiteral_crcHi_match hst h1⟩
    · exact ⟨_, rxLiteral_crcHi_mismatch hst h1⟩

theorem rxStep_total {s : State} (input : Option Byte)
    (h : s.rx.state = .body → s.rx.cnt.toNat < s.cfg.cap) : ∃ p, rxStep input s = .ok p := by
  cases input with
  | none => exact ⟨_, rfl⟩
  | some b =>
    simp only [rxStep]
    split
    · exact ⟨_, rfl⟩
    · split
      · exact rxLiteral_total b h
      all_goals exact ⟨_, rfl⟩

/-- Nothing but the receiver, `buf` and the trace is touched. -/
theorem rxStep_only {input : Option Byte} {s t : State} {r : RxResult}
    (h : rxStep input s = .ok (r, t)) : RxOnly s t ∧ t.result = s.result := by
  rcases rxStep_cases h with ⟨rfl, rfl, rfl⟩ | ⟨b, rfl, hw, rfl, rfl⟩ | ⟨rfl, hw, he, rfl, rfl⟩ |
    ⟨b, rfl, hw, he, hb, rfl, rfl⟩ | ⟨rfl, hw, he, rfl, rfl⟩ | ⟨b, rfl, hw, hb, hl⟩
  · exact ⟨⟨rfl, rfl, rfl, rfl, rfl, rfl⟩, rfl⟩
  · unfold rxIdle; split <;> exact ⟨⟨rfl, rfl, rfl, rfl, rfl, rfl⟩, rfl⟩
  · exact ⟨⟨rfl, rfl, rfl, rfl, rfl, rfl⟩, rfl⟩
  · exact ⟨⟨rfl, rfl, rfl, rfl, rfl, rfl⟩, rfl⟩
  · exact ⟨⟨rfl, rfl, rfl, rfl, rfl, rfl⟩, rfl⟩
  · rcases rxLiteral_cases (by exact hw) hl with ⟨hs, rfl, rfl⟩ | ⟨hs, h1, rfl, rfl⟩ | ⟨hs, h1, hp⟩ |
      ⟨hs, h1, h2, rfl, rfl⟩ | ⟨hs, h1, h2, rfl, rfl⟩ | ⟨hs, h1, h2, hp⟩ | ⟨hs, rfl, rfl⟩ |
      ⟨hs, h1, rfl, rfl⟩ | ⟨hs, h1, rfl, rfl⟩
    all_goals first
      | exact ⟨⟨rfl, rfl, rfl, rfl, rfl, rfl⟩, rfl⟩
      | (rcases rxPayloadComplete_cases hp with ⟨_, rfl, rfl⟩ | ⟨_, rfl, rfl⟩ <;>
          exact ⟨⟨rfl, rfl, rfl, rfl, rfl, rfl⟩, rfl⟩)

/-- A result other than `NOT_RECEIVED` leaves the receiver armed (R133). -/
theorem rxStep_armed {input : Option Byte} {s t : State} {r : RxResult}
    (h : rxStep input s = .ok (r, t)) (hr : r ≠ .notReceived) :
    t.rx.state = .waitStart ∧ t.rx.esc = false := by
  rcases rxStep_cases h with ⟨rfl, rfl, rfl⟩ | ⟨b, rfl, hw, rfl, rfl⟩ | ⟨rfl, hw, he, rfl, rfl⟩ |
    ⟨b, rfl, hw, he, hb, rfl, rfl⟩ | ⟨rfl, hw, he, rfl, rfl⟩ | ⟨b, rfl, hw, hb, hl⟩
  all_goals first
    | exact absurd rfl hr
    | exact ⟨rfl, rfl⟩
    | skip
  rcases rxLiteral_cases (by exact hw) hl with ⟨hs, rfl, rfl⟩ | ⟨hs, h1, rfl, rfl⟩ | ⟨hs, h1, hp⟩ |
    ⟨hs, h1, h2, rfl, rfl⟩ | ⟨hs, h1, h2, rfl, rfl⟩ | ⟨hs, h1, h2, hp⟩ | ⟨hs, rfl, rfl⟩ |
    ⟨hs, h1, rfl, rfl⟩ | ⟨hs, h1, rfl, rfl⟩
  all_goals first
    | exact absurd rfl hr
    | exact ⟨rfl, rfl⟩
    | (rcases rxPayloadComplete_cases hp with ⟨_, rfl, rfl⟩ | ⟨_, rfl, rfl⟩
       · exact absurd rfl hr
       · exact ⟨rfl, rfl⟩)

/-- What an `rx_step` can write besides the receiver's registers: one byte of `buf`, in `BODY`, and at
most one raised error. -/
theorem rxStep_writes {input : Option Byte} {s t : State} {r : RxResult}
    (h : rxStep input s = .ok (r, t)) :
    (t.buf = s.buf ∨ (s.rx.state = .body ∧ s.rx.cnt.toNat < s.cfg.cap ∧
      ∃ b, t.buf = memSet s.buf s.rx.cnt.toNat b)) ∧
    (t.trace = s.trace ∨ (r = .broken ∧ ∃ e, t.trace = s.trace ++ [.raised e])) := by
  rcases rxStep_cases h with ⟨rfl, rfl, rfl⟩ | ⟨b, rfl, hw, rfl, rfl⟩ | ⟨rfl, hw, he, rfl, rfl⟩ |
    ⟨b, rfl, hw, he, hb, rfl, rfl⟩ | ⟨rfl, hw, he, rfl, rfl⟩ | ⟨b, rfl, hw, hb, hl⟩
  · exact ⟨.inl rfl, .inl rfl⟩
  · unfold rxIdle; split <;> exact ⟨.inl rfl, .inl rfl⟩
  · exact ⟨.inl rfl, .inl rfl⟩
  · exact ⟨.inl rfl, .inr ⟨rfl, _, rfl⟩⟩
  · exact ⟨.inl rfl, .inr ⟨rfl, _, rfl⟩⟩
  · rcases rxLiteral_cases (by exact hw) hl with ⟨hs, rfl, rfl⟩ | ⟨hs, h1, rfl, rfl⟩ |
      ⟨hs, h2, hp⟩ | ⟨hs, h1, h2, rfl, rfl⟩ | ⟨hs, h1, h2, rfl, rfl⟩ | ⟨hs, h1, h2, hp⟩ |
      ⟨hs, rfl, rfl⟩ | ⟨hs, h1, rfl, rfl⟩ | ⟨hs, h1, rfl, rfl⟩
    · exact ⟨.inl rfl, .inl rfl⟩
    · exact ⟨.inl rfl, .inr ⟨rfl, _, rfl⟩⟩
    · rcases rxPayloadComplete_cases hp with ⟨_, rfl, rfl⟩ | ⟨_, rfl, rfl⟩ <;>
        exact ⟨.inl rfl, .inl rfl⟩
    · exact ⟨.inl rfl, .inl rfl⟩
    · exact ⟨.inr ⟨hs, h1, b, rfl⟩, .inl rfl⟩
    · rcases rxPayloadComplete_cases hp with ⟨_, rfl, rfl⟩ | ⟨_, rfl, rfl⟩ <;>
        exact ⟨.inr ⟨hs, h1, b, rfl⟩, .inl rfl⟩
    · exact ⟨.inl rfl, .inl rfl⟩
    · exact ⟨.inl rfl, .inl rfl⟩
    · exact ⟨.inl rfl, .inr ⟨rfl, _, rfl⟩⟩

/-- `rx_step` as an operation is `rx_step` with its result recorded. -/
theorem exec_rxStep_next {input : Option Byte} {s t : State} (h : exec (.opRxStep input) s = .next t) :
    ∃ r u, rxStep input s = .ok (r, u) ∧ t = u.returning (.rx r) := by
  simp only [exec, execOpRxStep, rxStepOp] at h
  cases hr : rxStep input s with
  | error f => simp [hr] at h
  | ok p => simp only [hr, Host.Outcome.next.injEq] at h; exact ⟨p.1, p.2, rfl, h.symm⟩

/-- Bytes of the wire are a run of `rx_step`. -/
theorem rxFeed_eq_rxRun (bytes : List Byte) (s : State) : rxFeed bytes s = rxRun (bytes.map some) s := by
  induction bytes generalizing s with
  | nil => rfl
  | cons b bytes ih =>
    simp only [rxFeed, rxRun, List.map_cons, runOps, exec, execOpRxStep]
    cases rxStepOp (some b) s with
    | next t => exact ih t
    | fault f => rfl
    | refused r => rfl

theorem rxOk_of_congr {s t : State} (h : s.RxOk) (hr : t.rx = s.rx) (hc : t.cfg = s.cfg)
    (hb : t.buf = s.buf) : t.RxOk := by
  unfold State.RxOk at h ⊢
  simp only [hr, hc, holds_congr hc hb]
  exact h

/-- Storing a literal behind what `buf` holds (R130). -/
theorem holds_store {s t : State} {stored : List Byte} {b : Byte} (hc : t.cfg = s.cfg)
    (hb : t.buf = memSet s.buf s.rx.cnt.toNat b) (hl : stored.length = s.rx.cnt.toNat)
    (hcap : s.rx.cnt.toNat < s.cfg.cap) (h : s.holds stored) : t.holds (stored ++ [b]) := by
  unfold State.holds at *
  rw [bufGetBytes_zero_ok_iff] at *
  simp only [List.length_append, List.length_cons, List.length_nil, hc, hb]
  refine ⟨by omega, fun j hj => ?_⟩
  rw [memGet?_memSet]
  by_cases e : j = s.rx.cnt.toNat
  · subst e; simp [← hl]
  · rw [if_neg e, h.2 j (by omega), List.getElem?_append_left (by omega)]

/-! ### Runs of bytes -/

theorem rxPayloadComplete_returning (s : State) (r : OpResult) :
    rxPayloadComplete (s.returning r) =
      ((rxPayloadComplete s).1, (rxPayloadComplete s).2.returning r) := by
  cases hc : s.cfg.crcEnable
  · rw [rxPayloadComplete_bare hc, rxPayloadComplete_bare (by exact hc)]; rfl
  · rw [rxPayloadComplete_crc hc, rxPayloadComplete_crc (by exact hc)]; rfl

theorem rxLiteral_returning (b : Byte) (s : State) (r : OpResult) :
    rxLiteral b (s.returning r) = (rxLiteral b s).map fun p => (p.1, p.2.returning r) := by
  cases hst : s.rx.state with
  | waitStart => simp only [rxLiteral, returning_rx, hst]; rfl
  | lenLo => rw [rxLiteral_lenLo hst, rxLiteral_lenLo (by exact hst)]; rfl
  | lenHi =>
    by_cases h1 : s.cfg.cap < (setHi8 s.rx.len b).toNat
    · rw [rxLiteral_lenHi_long hst h1, rxLiteral_lenHi_long (by exact hst) (by exact h1)]; rfl
    · by_cases h2 : setHi8 s.rx.len b = 0
      · rw [rxLiteral_lenHi_empty hst h2, rxLiteral_lenHi_empty (by exact hst) (by exact h2)]
        exact congrArg Except.ok (rxPayloadComplete_returning (s.rxLenHi b) r)
      · rw [rxLiteral_lenHi_body hst (Nat.not_lt.1 h1) h2,
          rxLiteral_lenHi_body (by exact hst) (by exact Nat.not_lt.1 h1) (by exact h2)]; rfl
  | body =>
    by_cases hc : s.rx.cnt.toNat < s.cfg.cap
    · by_cases hl : s.rx.cnt + 1 = s.rx.len
      · rw [rxLiteral_body_last hst hc hl,
          rxLiteral_body_last (by exact hst) (by exact hc) (by exact hl)]
        exact congrArg Except.ok (rxPayloadComplete_returning (s.rxStore b) r)
      · rw [rxLiteral_body_more hst hc hl,
          rxLiteral_body_more (by exact hst) (by exact hc) (by exact hl)]; rfl
    · rw [rxLiteral_body_fault hst (Nat.not_lt.1 hc),
        rxLiteral_body_fault (by exact hst) (by exact Nat.not_lt.1 hc)]; rfl
  | crcLo => rw [rxLiteral_crcLo hst, rxLiteral_crcLo (by exact hst)]; rfl
  | crcHi =>
    by_cases h : setHi8 s.rx.ckrx b = s.rx.ck
    · rw [rxLiteral_crcHi_match hst h, rxLiteral_crcHi_match (by exact hst) (by exact h)]; rfl
    · rw [rxLiteral_crcHi_mismatch hst h, rxLiteral_crcHi_mismatch (by exact hst) (by exact h)]; rfl

/-- The receiver does not look at the recorded result. -/
theorem rxStep_returning (input : Option Byte) (s : State) (r : OpResult) :
    rxStep input (s.returning r) = (rxStep input s).map fun p => (p.1, p.2.returning r) := by
  cases input with
  | none => rfl
  | some b =>
    by_cases hw : s.rx.state = .waitStart
    · rw [rxStep_idle hw, rxStep_idle (by exact hw)]
      by_cases hb : b = s.cfg.start
      · rw [rxIdle, rxIdle, if_pos hb, if_pos (by exact hb)]; rfl
      · rw [rxIdle, rxIdle, if_neg hb, if_neg (by exact hb)]; rfl
    · rw [rxStep_busy hw, rxStep_busy (by exact hw), returning_rx, returning_cfg]
      cases rxClassify s.cfg s.rx.esc b
      · exact rxLiteral_returning b { s with rx := { s.rx with esc := false } } r
      all_goals rfl

theorem runOps_append {xs ys : List Instr} {s t : State} (h : runOps xs s = .next t) :
    runOps (xs ++ ys) s = runOps ys t := by
  induction xs generalizing s with
  | nil => cases h; rfl
  | cons i xs ih =>
    simp only [List.cons_append, runOps] at h ⊢
    cases he : exec i s with
    | next u => rw [he] at h; exact ih h
    | fault f => rw [he] at h; cases h
    | refused r => rw [he] at h; cases h

/-- Inputs that lead from `s` to `t` with the result `NOT_RECEIVED` every time. -/
inductive Silent : List (Option Byte) → State → State → Prop
  | nil (s : State) : Silent [] s s
  | cons {i : Option Byte} {is : List (Option Byte)} {s t u : State} :
      rxStep i s = .ok (.notReceived, t) → Silent is t u → Silent (i :: is) s u

theorem Silent.append {xs ys : List (Option Byte)} {s t u : State} (h : Silent xs s t)
    (h' : Silent ys t u) : Silent (xs ++ ys) s u := by
  induction h with
  | nil => exact h'
  | cons hi _ ih => exact .cons hi (ih h')

theorem Silent.one {i : Option Byte} {s t : State} (h : rxStep i s = .ok (.notReceived, t)) :
    Silent [i] s t := .cons h (.nil t)

/-- "No byte" between the bytes changes nothing (R122). -/
theorem Silent.of_reduceOption {inputs : List (Option Byte)} {s t : State}
    (h : Silent (inputs.reduceOption.map some) s t) : Silent inputs s t := by
  induction inputs generalizing s with
  | nil => exact h
  | cons i is ih =>
    cases i with
    | none => exact .cons rfl (ih (by simpa using h))
    | some b =>
      simp only [List.reduceOption_cons_of_some, List.map_cons] at h
      cases h with
      | cons hi h => exact .cons hi (ih h)

theorem Silent.run {inputs : List (Option Byte)} {s t : State} (h : Silent inputs s t)
    (hne : inputs ≠ []) (r : OpResult) :
    rxRun inputs (s.returning r) = .next (t.returning (.rx .notReceived)) := by
  induction h generalizing r with
  | nil => exact absurd rfl hne
  | @cons i is s t u hi h ih =>
    have : exec (.opRxStep i) (s.returning r) = .next (t.returning (.rx .notReceived)) := by
      simp only [exec, execOpRxStep, rxStepOp, rxStep_returning, hi]; rfl
    simp only [rxRun, List.map_cons, runOps, this]
    cases is with
    | nil => cases h; rfl
    | cons j js => exact ih (by simp) _

theorem Silent.take {inputs : List (Option Byte)} {s t : State} (h : Silent inputs s t) (k : Nat) :
    ∃ u, Silent (inputs.take k) s u := by
  induction h generalizing k with
  | nil s => exact ⟨s, by simpa using .nil s⟩
  | cons hi _ ih =>
    cases k with
    | zero => exact ⟨_, .nil _⟩
    | succ k => obtain ⟨u, hu⟩ := ih k; exact ⟨u, .cons hi hu⟩

/-- Bytes whose last one has the outcome `out`, every one before it being `NOT_RECEIVED`. -/
def Delivers (bytes : List Byte) (s : State) (out : Except Fault (RxResult × State)) : Prop :=
  ∃ init last u, bytes = init ++ [last] ∧ Silent (init.map some) s u ∧ rxStep (some last) u = out

theorem Delivers.append {xs ys : List Byte} {s t : State} {out : Except Fault (RxResult × State)}
    (h : Delivers xs s (.ok (.notReceived, t))) (h' : Delivers ys t out) :
    Delivers (xs ++ ys) s out := by
  obtain ⟨i, l, u, rfl, h1, h2⟩ := h
  obtain ⟨i', l', u', rfl, h1', h2'⟩ := h'
  refine ⟨i ++ [l] ++ i', l', u', by simp, ?_, h2'⟩
  simp only [List.map_append]
  exact (h1.append (.one h2)).append h1'

/-- The wire bytes of one byte of a frame's body deliver it as a literal (R87, R88). -/
theorem Delivers.literal {s : State} (h : s.rx.state ≠ .waitStart) (he : s.rx.esc = false)
    (b : Byte) : Delivers (s.cfg.escapeByte b) s (rxLiteral b s) := by
  cases hb : s.cfg.reserved b
  · rw [escapeByte_literal hb]
    exact ⟨[], b, s, rfl, .nil s, rxStep_plain h he hb⟩
  · rw [escapeByte_reserved hb]
    refine ⟨[s.cfg.esc], b, _, rfl, .one (rxStep_prefix h he), ?_⟩
    rw [rxStep_escaped (by exact h) rfl (by exact hb)]
    show rxLiteral b { s with rx := { s.rx with esc := false } } = _
    rw [← he]

/-- `s` with payload literals stored from `buf[rx_cnt]` on (R130). -/
def State.rxStoreAll (bytes : List Byte) (s : State) : State :=
  { s with
    buf := memSetBytes s.buf s.rx.cnt.toNat bytes
    rx := { s.rx with
      cnt := s.rx.cnt + BitVec.ofNat 16 bytes.length
      ck := bytes.foldl s.cfg.ckUpdate s.rx.ck } }

theorem rxStoreAll_cons {b : Byte} {bytes : List Byte} {s : State}
    (h : (s.rx.cnt + 1).toNat = s.rx.cnt.toNat + 1) :
    (s.rxStore b).rxStoreAll bytes = s.rxStoreAll (b :: bytes) := by
  simp only [State.rxStoreAll, rxStore_rx, rxStore_buf, memSetBytes, h, List.length_cons,
    List.foldl_cons, rxStore_cfg]
  have : s.rx.cnt + 1 + BitVec.ofNat 16 bytes.length =
      s.rx.cnt + BitVec.ofNat 16 (bytes.length + 1) := by
    apply BitVec.eq_of_toNat_eq; simp [BitVec.toNat_add]; omega
  simp only [this]; rfl

/-- The wire bytes of the rest of a payload (R130, R131). -/
theorem Delivers.body {bytes : List Byte} {s : State} (h : s.rx.state = .body)
    (he : s.rx.esc = false) (hne : bytes ≠ [])
    (hl : s.rx.cnt.toNat + bytes.length = s.rx.len.toNat) (hc : s.rx.len.toNat ≤ s.cfg.cap) :
    Delivers (s.cfg.escape bytes) s (.ok (rxPayloadComplete (s.rxStoreAll bytes))) := by
  induction bytes generalizing s with
  | nil => exact absurd rfl hne
  | cons b bytes ih =>
    simp only [List.length_cons] at hl
    have hlt : s.rx.cnt.toNat < s.rx.len.toNat := by omega
    rw [escape_cons]
    have hd := Delivers.literal (s := s) (by simp [h]) he b
    rw [← rxStoreAll_cons (toNat_succ_of_lt hlt)]
    cases bytes with
    | nil =>
      simp only [List.length_nil] at hl
      rw [rxLiteral_body_last h (by omega) ((succ_eq_iff hlt).2 (by omega))] at hd
      have : (s.rxStore b).rxStoreAll [] = s.rxStore b := by
        simp [State.rxStoreAll, memSetBytes]; rfl
      rw [this]; simpa using hd
    | cons b' bytes =>
      simp only [List.length_cons] at hl
      have hne' : s.rx.cnt + 1 ≠ s.rx.len := fun e => by have := (succ_eq_iff hlt).1 e; omega
      rw [rxLiteral_body_more h (by omega) hne'] at hd
      refine hd.append (ih (s := s.rxStore b) (by simp [h]) (by simp [he]) (by simp) ?_
        (by simpa using hc))
      simp only [rxStore_rx, toNat_succ_of_lt hlt, List.length_cons]; omega

/-- A delivery as a run of `rx_step`, with any number of "no byte" between the bytes. -/
theorem Delivers.run {bytes : List Byte} {s t : State} {r : RxResult}
    (h : Delivers bytes s (.ok (r, t))) {inputs : List (Option Byte)}
    (hi : inputs.reduceOption = bytes) (hlast : inputs.getLast? ≠ some none) :
    rxRun inputs s = .next (t.returning (.rx r)) ∧
    ∀ k, 0 < k → k < inputs.length →
      ∃ u, rxRun (inputs.take k) s = .next u ∧ u.result = .rx .notReceived := by
  obtain ⟨init, last, u, hb, h1, h2⟩ := h
  subst hb
  have hne : inputs ≠ [] := by rintro rfl; simp at hi
  obtain ⟨pre, x, rfl⟩ : ∃ pre x, inputs = pre ++ [x] :=
    ⟨_, _, (List.dropLast_append_getLast hne).symm⟩
  cases x with
  | none => simp at hlast
  | some x =>
    rw [List.reduceOption_append] at hi
    simp only [List.reduceOption_cons_of_some, List.reduceOption_nil] at hi
    obtain ⟨h3, h4⟩ := List.append_inj' hi rfl
    simp only [List.cons.injEq, and_true] at h4; subst h4
    have hs : Silent pre s u := .of_reduceOption (by rw [h3]; exact h1)
    refine ⟨?_, fun k hk hkl => ?_⟩
    · have hfin : ∀ w, exec (.opRxStep (some x)) (u.returning w) = .next (t.returning (.rx r)) := by
        intro w; simp only [exec, execOpRxStep, rxStepOp, rxStep_returning, h2]; rfl
      cases pre with
      | nil =>
        cases hs
        have := hfin s.result
        rw [show s.returning s.result = s from rfl] at this
        simp [rxRun, runOps, this]
      | cons j js =>
        have h5 := hs.run (by simp) s.result
        rw [show s.returning s.result = s from rfl, rxRun] at h5
        rw [rxRun, List.map_append, runOps_append h5]
        simp [runOps, hfin]
    · simp only [List.length_append, List.length_cons, List.length_nil] at hkl
      rw [List.take_append_of_le_length (by omega)]
      obtain ⟨v, hv⟩ := hs.take k
      refine ⟨_, hv.run ?_ s.result, rfl⟩
      intro h0
      have := congrArg List.length h0
      rw [List.length_take, List.length_nil] at this; omega

end Sys2Proof.Machine
end

