-- ==== Sys2Proof/Laws/Transmitter.lean ====
section
/-! SUPPORT. What `tx_begin` and one `tx_step` can do (spec/41_frame_transmitter.md R161 to R169), said
once. -/

namespace Sys2Proof.Machine

/-! ### The sink -/

theorem draw_listed {α : Type} (a : α) (rest : List α) (free : Nat → α) (n : Nat) :
    draw (a :: rest) free n = (a, rest, n) := rfl

/-- `sink(b)` where the environment's next answer is listed (R40). -/
theorem sink_listed {s : State} {ok : Bool} {rest : List Bool} (h : s.env.sinkReady = ok :: rest)
    (b : Byte) :
    s.sink b = (ok, { s with
      env := { s.env with
        sinkReady := rest
        serialOut := if ok then s.env.serialOut ++ [b] else s.env.serialOut }
      trace := s.trace ++ [.serialPut b ok] }) := by
  simp only [State.sink, h, draw_listed]; rfl

/-- The answer, the answers left and the count that a call of `sink` takes from the environment. -/
def Env.Sinks (env : Env) (ok : Bool) (ready : List Bool) (drawn : Nat) : Prop :=
  ∀ a rest, env.sinkReady = a :: rest → ok = a ∧ ready = rest ∧ drawn = env.drawn

/-- `sink(b)` whoever answers: only the transmit stream and the answers left change. -/
theorem sink_cases (s : State) (b : Byte) : ∃ ok ready drawn, s.env.Sinks ok ready drawn ∧
    s.sink b = (ok, { s with
      env := { s.env with
        sinkReady := ready
        drawn := drawn
        serialOut := if ok then s.env.serialOut ++ [b] else s.env.serialOut }
      trace := s.trace ++ [.serialPut b ok] }) :=
  ⟨_, _, _, fun a rest h => by rw [h]; exact ⟨rfl, rfl, rfl⟩, rfl⟩

/-! ### `tx_begin` -/

/-- `tx_begin` loads the packet that `buf` holds (R161). -/
theorem txBegin_eq {s : State} {packet : List Byte} (h1 : packet.length ≤ s.cfg.cap)
    (h : s.holds packet) : txBegin packet.length s = .ok (txLoad packet s) := by
  unfold State.holds at h
  simp only [txBegin, if_neg (Nat.not_lt.2 h1), h]

/-- Everything `tx_begin` can do: refuse a packet that is too long or not written, or load it. -/
theorem txBegin_cases (n : Nat) (s : State) :
    (s.cfg.cap < n ∧ txBegin n s = .error (.packetTooLong n)) ∨
    (n ≤ s.cfg.cap ∧ (∃ f, s.bufGetBytes 0 n = .error f) ∧
      txBegin n s = .error (.packetUnwritten n)) ∨
    (n ≤ s.cfg.cap ∧ ∃ packet, s.bufGetBytes 0 n = .ok packet ∧
      txBegin n s = .ok (txLoad packet s)) := by
  unfold txBegin
  by_cases h : s.cfg.cap < n
  · exact .inl ⟨h, if_pos h⟩
  · cases hb : s.bufGetBytes 0 n with
    | error f => exact .inr (.inl ⟨by omega, ⟨f, rfl⟩, by rw [if_neg h]⟩)
    | ok packet => exact .inr (.inr ⟨by omega, packet, rfl, by rw [if_neg h]⟩)

theorem txLoad_loaded {s : State} {packet : List Byte} (h : packet.length < 65536) :
    TxRegs.Loaded s.cfg packet s.tx (txLoad packet s).tx := by
  refine ⟨rfl, rfl, ?_, rfl, rfl⟩
  show (BitVec.ofNat 16 packet.length).toNat = packet.length
  simp; omega

/-- Queuing a packet is writing it and `tx_begin`: a packet that fits is what `tx_begin` finds in `buf`
(R223, R230). -/
theorem send_eq_txBegin {s : State} {packet : List Byte} (h : packet.length ≤ s.cfg.cap) :
    txBegin packet.length (s.bufPut packet) = .ok (s.send packet) :=
  txBegin_eq h (bufGetBytes_of_written (by rfl) h)

/-! ### `tx_step` -/

theorem txStep_start {s : State} (h : s.tx.state = .start) : txStep s = .ok (txMarker s) := by
  simp only [txStep, h]

theorem txStep_done {s : State} (h : s.tx.state = .done) : txStep s = .ok (.transmitted, s) := by
  simp only [txStep, h]

/-- In the five states that have a logical byte, a step emits it (R166, R167). -/
theorem txStep_logical {s : State} {cur : Byte} (h : s.logicalByte = some cur) :
    txStep s = .ok (txEmit cur s) := by
  unfold State.logicalByte at h
  unfold txStep
  cases hs : s.tx.state <;> simp only [hs, Option.some.injEq, reduceCtorEq] at h ⊢
  case body =>
    split at h
    · next hc => rw [bufGet_ok_iff.2 ⟨hc, h⟩]
    · cases h
  all_goals rw [h]

/-- The states without a logical byte are the first, the last, and `T_BODY` with an unreadable
byte. -/
theorem logicalByte_cases (s : State) :
    (∃ cur, s.logicalByte = some cur) ∨ s.tx.state = .start ∨ s.tx.state = .done ∨
    (s.tx.state = .body ∧ ∀ b, s.bufGet s.tx.idx.toNat ≠ .ok b) := by
  cases hs : s.tx.state with
  | start => exact .inr (.inl rfl)
  | done => exact .inr (.inr (.inl rfl))
  | body =>
    by_cases hb : ∃ b, s.bufGet s.tx.idx.toNat = .ok b
    · obtain ⟨b, hb⟩ := hb
      obtain ⟨h1, h2⟩ := bufGet_ok_iff.1 hb
      exact .inl ⟨b, by simp [State.logicalByte, hs, h1, h2]⟩
    · exact .inr (.inr (.inr ⟨rfl, fun b h => hb ⟨b, h⟩⟩))
  | lenLo => exact .inl ⟨_, by simp only [State.logicalByte, hs]; rfl⟩
  | lenHi => exact .inl ⟨_, by simp only [State.logicalByte, hs]; rfl⟩
  | crcLo => exact .inl ⟨_, by simp only [State.logicalByte, hs]; rfl⟩
  | crcHi => exact .inl ⟨_, by simp only [State.logicalByte, hs]; rfl⟩

/-- The registers after an accepted literal (R168). -/
def TxRegs.advanced (c : Config) (tx : TxRegs) : TxRegs :=
  match tx.state with
  | .start => { tx with state := .lenLo }
  | .lenLo => { tx with state := .lenHi }
  | .lenHi => { tx with state := if tx.len = 0 then Config.txAfterBody c else .body }
  | .body => { tx with
      idx := tx.idx + 1
      state := if tx.idx + 1 = tx.len then Config.txAfterBody c else .body }
  | .crcLo => { tx with state := .crcHi }
  | .crcHi => { tx with state := .done }
  | .done => tx

theorem txAdvance_eq (s : State) : txAdvance s = { s with tx := s.tx.advanced s.cfg } := by
  unfold txAdvance TxRegs.advanced
  cases hs : s.tx.state <;> simp only [State.txGo]
  case lenHi => split <;> rfl
  case body =>
    split
    · rfl
    · rw [← hs]

/-- The three things that can come of emitting a logical byte: a refused offer, an accepted prefix, an
accepted literal (R164, R167, R168). -/
theorem txEmit_cases (cur : Byte) (s : State) : ∃ b ok ready drawn tx r,
    s.env.Sinks ok ready drawn ∧
    txEmit cur s = (r, { s with
      tx := tx
      env := { s.env with
        sinkReady := ready
        drawn := drawn
        serialOut := if ok then s.env.serialOut ++ [b] else s.env.serialOut }
      trace := s.trace ++ [.serialPut b ok] }) ∧
    ((ok = false ∧ tx = s.tx ∧ r = .notTransmitted) ∨
     (ok = true ∧ s.cfg.reserved cur = true ∧ s.tx.escSent = false ∧ b = s.cfg.esc ∧
       tx = { s.tx with escSent := true } ∧ r = .notTransmitted) ∨
     (ok = true ∧ (s.cfg.reserved cur = false ∨ s.tx.escSent = true) ∧ b = cur ∧
       tx = TxRegs.advanced s.cfg { s.tx with escSent := false } ∧
       r = if tx.state = .done then .transmitted else .notTransmitted)) := by
  by_cases h : s.cfg.reserved cur = true ∧ s.tx.escSent = false
  · obtain ⟨ok, ready, drawn, ha, hs⟩ := sink_cases s s.cfg.esc
    have hb : (s.cfg.reserved cur && !s.tx.escSent) = true := by simp [h]
    cases ok
    · refine ⟨s.cfg.esc, false, ready, drawn, s.tx, .notTransmitted, ha, ?_, .inl ⟨rfl, rfl, rfl⟩⟩
      simp only [txEmit, hb, if_true, hs]
    · refine ⟨s.cfg.esc, true, ready, drawn, { s.tx with escSent := true }, .notTransmitted, ha, ?_,
        .inr (.inl ⟨rfl, h.1, h.2, rfl, rfl, rfl⟩)⟩
      simp only [txEmit, hb, if_true, hs]
  · obtain ⟨ok, ready, drawn, ha, hs⟩ := sink_cases s cur
    have hb : (s.cfg.reserved cur && !s.tx.escSent) = false := by
      cases h1 : s.cfg.reserved cur <;> cases h2 : s.tx.escSent <;> simp_all
    have h' : s.cfg.reserved cur = false ∨ s.tx.escSent = true := by
      cases h1 : s.cfg.reserved cur <;> cases h2 : s.tx.escSent <;> simp_all
    cases ok
    · refine ⟨cur, false, ready, drawn, s.tx, .notTransmitted, ha, ?_, .inl ⟨rfl, rfl, rfl⟩⟩
      simp only [txEmit, hb, Bool.false_eq_true, if_false, hs]
    · refine ⟨cur, true, ready, drawn, TxRegs.advanced s.cfg { s.tx with escSent := false }, _, ha, ?_,
        .inr (.inr ⟨rfl, h', rfl, rfl, rfl⟩)⟩
      simp only [txEmit, hb, Bool.false_eq_true, if_false, hs, txAdvance_eq, txResult, if_true]

/-- The marker (R165). -/
theorem txMarker_cases (s : State) : ∃ ok ready drawn, s.env.Sinks ok ready drawn ∧
    txMarker s = (.notTransmitted, { s with
      tx := if ok then TxRegs.advanced s.cfg s.tx else s.tx
      env := { s.env with
        sinkReady := ready
        drawn := drawn
        serialOut := if ok then s.env.serialOut ++ [s.cfg.start] else s.env.serialOut }
      trace := s.trace ++ [.serialPut s.cfg.start ok] }) := by
  obtain ⟨ok, ready, drawn, ha, hs⟩ := sink_cases s s.cfg.start
  refine ⟨ok, ready, drawn, ha, ?_⟩
  cases ok <;> simp only [txMarker, hs, txAdvance_eq] <;> rfl

theorem advanced_state_ne_start (c : Config) (tx : TxRegs) : (tx.advanced c).state ≠ .start := by
  unfold TxRegs.advanced Config.txAfterBody
  cases hs : tx.state <;> simp only [hs]
  all_goals first
    | decide
    | (repeat' split) <;> decide

@[simp] theorem advanced_escSent (c : Config) (tx : TxRegs) :
    (tx.advanced c).escSent = tx.escSent := by
  unfold TxRegs.advanced; cases tx.state <;> rfl

@[simp] theorem advanced_len (c : Config) (tx : TxRegs) : (tx.advanced c).len = tx.len := by
  unfold TxRegs.advanced; cases tx.state <;> rfl

@[simp] theorem advanced_ck (c : Config) (tx : TxRegs) : (tx.advanced c).ck = tx.ck := by
  unfold TxRegs.advanced; cases tx.state <;> rfl

/-- Everything one `tx_step` can do: in `T_DONE` nothing, else one offer, refused or accepted, after
which the transmitter stands still, has sent the prefix, or has advanced. -/
theorem txStep_cases {s t : State} {r : TxResult} (h : txStep s = .ok (r, t)) :
    (s.tx.state = .done ∧ r = .transmitted ∧ t = s) ∨
    (s.tx.state ≠ .done ∧ ∃ b ok ready drawn tx, s.env.Sinks ok ready drawn ∧
      t = { s with
        tx := tx
        env := { s.env with
          sinkReady := ready
          drawn := drawn
          serialOut := if ok then s.env.serialOut ++ [b] else s.env.serialOut }
        trace := s.trace ++ [.serialPut b ok] } ∧
      (r = if tx.state = .done then .transmitted else .notTransmitted) ∧
      ((ok = false ∧ tx = s.tx) ∨
       (ok = true ∧ s.tx.state = .start ∧ b = s.cfg.start ∧ tx = s.tx.advanced s.cfg) ∨
       ∃ cur, s.logicalByte = some cur ∧ s.tx.state ≠ .start ∧ ok = true ∧
        ((s.cfg.reserved cur = true ∧ s.tx.escSent = false ∧ b = s.cfg.esc ∧
            tx = { s.tx with escSent := true }) ∨
         ((s.cfg.reserved cur = false ∨ s.tx.escSent = true) ∧ b = cur ∧
            tx = TxRegs.advanced s.cfg { s.tx with escSent := false })))) := by
  rcases logicalByte_cases s with ⟨cur, hc⟩ | hs | hs | ⟨hs, hb⟩
  · have hns : s.tx.state ≠ .start := by intro h'; simp [State.logicalByte, h'] at hc
    have hnd : s.tx.state ≠ .done := by intro h'; simp [State.logicalByte, h'] at hc
    rw [txStep_logical hc] at h
    obtain ⟨b, ok, ready, drawn, tx, r', ha, he, hcase⟩ := txEmit_cases cur s
    rw [he] at h; cases h
    refine .inr ⟨hnd, b, ok, ready, drawn, tx, ha, rfl, ?_, ?_⟩
    · rcases hcase with ⟨_, rfl, rfl⟩ | ⟨_, _, _, _, rfl, rfl⟩ | ⟨_, _, _, _, h5⟩
      · rw [if_neg hnd]
      · rw [if_neg hnd]
      · exact h5
    · rcases hcase with ⟨h1, h2, _⟩ | ⟨h1, h2, h3, h4, h5, _⟩ | ⟨h1, h2, h3, h4, _⟩
      · exact .inl ⟨h1, h2⟩
      · exact .inr (.inr ⟨cur, hc, hns, h1, .inl ⟨h2, h3, h4, h5⟩⟩)
      · exact .inr (.inr ⟨cur, hc, hns, h1, .inr ⟨h2, h3, h4⟩⟩)
  · rw [txStep_start hs] at h
    obtain ⟨ok, ready, drawn, ha, he⟩ := txMarker_cases s
    rw [he] at h; cases h
    refine .inr ⟨by simp [hs], s.cfg.start, ok, ready, drawn, _, ha, rfl, ?_, ?_⟩
    · cases ok <;> simp [hs, TxRegs.advanced]
    · cases ok
      · exact .inl ⟨rfl, rfl⟩
      · exact .inr (.inl ⟨rfl, hs, rfl, rfl⟩)
  · rw [txStep_done hs] at h; cases h
    exact .inl ⟨hs, rfl, rfl⟩
  · simp only [txStep, hs] at h
    cases hg : s.bufGet s.tx.idx.toNat with
    | error f => rw [hg] at h; cases h
    | ok b => exact absurd hg (hb b)

/-- A step always answers when the byte to send can be read. -/
theorem txStep_total {s : State} (h : s.tx.state = .body → ∃ b, s.bufGet s.tx.idx.toNat = .ok b) :
    ∃ p, txStep s = .ok p := by
  rcases logicalByte_cases s with ⟨cur, hc⟩ | hs | hs | ⟨hs, hb⟩
  · exact ⟨_, txStep_logical hc⟩
  · exact ⟨_, txStep_start hs⟩
  · exact ⟨_, txStep_done hs⟩
  · obtain ⟨b, hg⟩ := h hs; exact absurd hg (hb b)

end Sys2Proof.Machine
end

