-- ==== Sys2Proof/Laws/Responses.lean ====
section
/-! SUPPORT. What handing a packet to the transmitter does (spec/43_control_fsm.md R223, R230), said
once. -/

namespace Sys2Proof.Machine

theorem send_eq (packet : List Byte) (s : State) : s.send packet = { s with
    buf := memSetBytes s.buf 0 packet
    tx := {
      state := .start
      escSent := false
      len := BitVec.ofNat 16 packet.length
      idx := 0
      ck := if s.cfg.crcEnable then s.cfg.checksum (framedBytes packet) else s.tx.ck } } := rfl

/-- A state that differs from `s` in none of the fields of which `Queued` speaks, the control FSM's
registers apart: those that the step has written before it answers. -/
def Unsent (s u : State) : Prop :=
  u.buf = s.buf ∧ u.tx = s.tx ∧ u.rx = s.rx ∧ u.cfg = s.cfg ∧ u.caller = s.caller ∧
    u.result = s.result

theorem Unsent.refl (s : State) : Unsent s s := ⟨rfl, rfl, rfl, rfl, rfl, rfl⟩

/-- A packet sent from `u` is queued, whatever else the step did to get to `u`. -/
theorem queued_send {s u : State} {packet : List Byte} {p : CtlPhase} (hl : packet.length < 65536)
    (hu : Unsent s u) : Queued packet (u.ctl.enters p) s ((u.send packet).go p) := by
  obtain ⟨h1, h2, h3, h4, h5, h6⟩ := hu
  refine ⟨fun i => ?_, ?_, rfl, h3, h4, h5, h6⟩
  · show memGet? (memSetBytes u.buf 0 packet) i = _
    rw [h1]; exact congrFun (written_memSetBytes _ _) i
  · have := txLoad_loaded (s := u.bufPut packet) hl
    rw [show (u.bufPut packet).cfg = s.cfg from h4, show (u.bufPut packet).tx = s.tx from h2] at this
    exact this

theorem queued_respond {s u : State} {op st : Byte} {extra : List Byte} (hl : extra.length < 65000)
    (hu : Unsent s u) :
    Queued (op :: st :: extra) (u.ctl.enters .sendResp) s (u.respond op st extra) :=
  queued_send (by simp; omega) hu

theorem queued_event {s u : State} {op : Byte} {total done : Word32} (r : Region)
    (hu : Unsent s u) :
    Queued (op :: 0xFF :: (le32 total ++ le32 done)) (u.ctl.enters (eventPhase r)) s
      (u.sendEvent r op total done) :=
  queued_send (by simp [le32]) hu

@[simp] theorem respond_plain (s : State) (op st : Byte) (extra : List Byte) :
    (s.respond op st extra).plain = s.plain := rfl
@[simp] theorem respond_env (s : State) (op st : Byte) (extra : List Byte) :
    (s.respond op st extra).env = s.env := rfl
@[simp] theorem respond_trace (s : State) (op st : Byte) (extra : List Byte) :
    (s.respond op st extra).trace = s.trace := rfl
@[simp] theorem respond_cfg (s : State) (op st : Byte) (extra : List Byte) :
    (s.respond op st extra).cfg = s.cfg := rfl
@[simp] theorem respond_ctl (s : State) (op st : Byte) (extra : List Byte) :
    (s.respond op st extra).ctl = s.ctl.enters .sendResp := rfl
@[simp] theorem respond_rx (s : State) (op st : Byte) (extra : List Byte) :
    (s.respond op st extra).rx = s.rx := rfl
@[simp] theorem respond_caller (s : State) (op st : Byte) (extra : List Byte) :
    (s.respond op st extra).caller = s.caller := rfl
@[simp] theorem sendEvent_plain (s : State) (r : Region) (op : Byte) (total done : Word32) :
    (s.sendEvent r op total done).plain = s.plain := rfl
@[simp] theorem sendEvent_env (s : State) (r : Region) (op : Byte) (total done : Word32) :
    (s.sendEvent r op total done).env = s.env := rfl
@[simp] theorem sendEvent_trace (s : State) (r : Region) (op : Byte) (total done : Word32) :
    (s.sendEvent r op total done).trace = s.trace := rfl
@[simp] theorem sendEvent_cfg (s : State) (r : Region) (op : Byte) (total done : Word32) :
    (s.sendEvent r op total done).cfg = s.cfg := rfl
@[simp] theorem sendEvent_ctl (s : State) (r : Region) (op : Byte) (total done : Word32) :
    (s.sendEvent r op total done).ctl = s.ctl.enters (eventPhase r) := rfl
@[simp] theorem sendEvent_rx (s : State) (r : Region) (op : Byte) (total done : Word32) :
    (s.sendEvent r op total done).rx = s.rx := rfl
@[simp] theorem sendEvent_caller (s : State) (r : Region) (op : Byte) (total done : Word32) :
    (s.sendEvent r op total done).caller = s.caller := rfl

end Sys2Proof.Machine
end

