-- ==== Sys2Proof/Laws/Step.lean ====
section
/-! SUPPORT. What a step is (spec/00_scope.md R14): the instruction it runs, and the state it runs it
in. -/

namespace Sys2Proof.Machine

theorem step_of_wf {s : State} (h : s.cfg.WF) : step s = exec (fetch s).1 (fetch s).2 := if_pos h

theorem step_refused {s : State} (h : ¬s.cfg.WF) : step s = .refused .badConfiguration := if_neg h

theorem fetch_caller {s : State} {i : Instr} {rest : List Instr} (h : s.caller = i :: rest) :
    fetch s = (i, { s with caller := rest }) := by simp [fetch, h]

/-- With nothing lined up, the next instruction is a poll, or the command that the poll's byte has
completed (R213). -/
theorem fetch_cases {s : State} (h : s.caller = []) :
    fetch s = (.opCtlPoll, s) ∨
    ∃ s1 bytes i, s.ctl.state = .rxWait ∧ rxWaitPull s = .ok (.stepped .received s1) ∧
      s1.packet = .ok bytes ∧ decodeCommand s1.cfg bytes = .ok i ∧ fetch s = (i, s1) := by
  simp only [fetch, h, fetchCommand]
  by_cases hs : s.ctl.state = .rxWait
  · rw [if_pos hs]
    cases hp : rxWaitPull s with
    | error f => exact .inl rfl
    | ok p =>
      match p with
      | .autoBoot s1 => exact .inl rfl
      | .stepped .broken s1 => exact .inl rfl
      | .stepped .notReceived s1 => exact .inl rfl
      | .stepped .received s1 =>
        cases hb : s1.packet with
        | error f => exact .inl (by simp [hb])
        | ok bytes =>
          cases hd : decodeCommand s1.cfg bytes with
          | error e => exact .inl (by simp [hb, hd])
          | ok i => exact .inr ⟨s1, bytes, i, hs, rfl, hb, hd, by simp [hb, hd]⟩
  · exact .inl (by rw [if_neg hs])

/-- Dispatching a packet (R215) is running the command it decodes to. -/
theorem dispatch_eq_exec {s : State} {bytes : List Byte} {i : Instr} (h : s.packet = .ok bytes)
    (hd : decodeCommand s.cfg bytes = .ok i) : dispatch s = exec i s := by
  cases bytes with
  | nil => simp [decodeCommand] at hd
  | cons op args =>
    simp only [decodeCommand, Except.ok.injEq] at hd
    simp only [dispatch, h]
    subst hd
    unfold dispatchOpcode
    repeat' split
    all_goals first
      | rfl
      | simp_all [exec, execCmdBegin, execCmdSend, execCmdWrite, execCmdEnd, execCmdCheckCrc,
          execCmdAppRun, execCmdEraseUserData, execCmdReserved, State.gated]

end Sys2Proof.Machine
end

