-- ==== Sys2Proof/Laws/Verifier.lean ====
section
/-! SUPPORT. What the verifier's operations can do (spec/42_chunk_verifier.md R190 to R198), said
once. -/

namespace Sys2Proof.Machine

/-- The plaintext of a chunk of the right length has `P` bytes (R191). -/
theorem openChunk_length {c : Config} {chunk plaintext : List Byte}
    (hl : chunk.length = 45 + c.p) (h : openChunk c chunk = some plaintext) :
    plaintext.length = c.p := by
  unfold openChunk aeadOpen at h
  cases ha : c.aeadFn with
  | toy =>
    simp only [ha, aeadToy] at h
    split at h
    · injection h with h; subst h
      simp only [List.length_map, chunkCiphertext, List.length_take, List.length_drop]; omega
    · cases h
  | free id =>
    simp only [ha] at h
    split at h
    · injection h with h; subst h; simp
    · cases h

/-- `ver_open` discards the staged chunk, leaves `plain` wiped or holding the plaintext, and changes
nothing else (R192, R193). -/
theorem verOpen_cases (chunk : List Byte) (s : State) (hl : chunk.length = 45 + s.cfg.p) :
    ∃ plain raised, Opened chunk s plain raised ∧
      verOpen chunk s = ((openChunk s.cfg chunk).isSome, { s with
        plain := plain
        ctl := { s.ctl with stagedValid := false }
        trace := s.trace ++ raised }) ∧
      ((openChunk s.cfg chunk).isSome → raised = []) ∧
      (Memory.wfBelow s.cfg.p s.plain → Memory.wfBelow s.cfg.p plain) := by
  unfold verOpen Opened
  cases h : openChunk s.cfg chunk with
  | none =>
    refine ⟨memSetBytes s.plain 0 (List.replicate s.cfg.p 0), [.raised .authentication],
      ⟨fun i => congrFun (written_memSetBytes _ _) i, rfl⟩, rfl, by simp, fun hw => ?_⟩
    exact wfBelow_memSetBytes hw (by simp)
  | some plaintext =>
    have hp := openChunk_length hl h
    refine ⟨memSetBytes s.plain 0 plaintext, [],
      ⟨hp, fun i => congrFun (written_memSetBytes _ _) i, rfl⟩, ?_, fun _ => rfl, fun hw => ?_⟩
    · simp only [List.append_nil, Option.isSome_some]; rfl
    · exact wfBelow_memSetBytes hw (by omega)

theorem identityFieldsOk_iff {c : Config} {chunk plaintext : List Byte} :
    identityFieldsOk c chunk plaintext = true ↔
      (chunkLength chunk).toNat = c.p ∧ chunkAddress chunk = c.fwTotalSize ∧ plaintext = c.ident := by
  simp [identityFieldsOk, and_assoc]

theorem firmwareFieldsOk_iff {c : Config} {chunk : List Byte} :
    firmwareFieldsOk c chunk = true ↔
      0 < (chunkLength chunk).toNat ∧ (chunkLength chunk).toNat ≤ c.p ∧
      c.appBase ≤ (chunkAddress chunk).toNat ∧
      (chunkAddress chunk).toNat + (chunkLength chunk).toNat ≤ c.appEnd := by
  simp [firmwareFieldsOk, and_assoc]

/-- `ver_identity` is `ver_open`, with a verdict on the fields (R196). -/
theorem verIdentity_pass {chunk : List Byte} {s : State} (h : IdentityPasses s.cfg chunk) :
    verIdentity chunk s = (.pass, (verOpen chunk s).2) := by
  obtain ⟨plaintext, h1, h2⟩ := h
  simp only [verIdentity, h1, if_pos (identityFieldsOk_iff.2 h2)]

theorem verIdentity_fail {chunk : List Byte} {s : State} (h : ¬IdentityPasses s.cfg chunk) :
    verIdentity chunk s = (.fail, (verOpen chunk s).2) := by
  unfold verIdentity
  cases h1 : openChunk s.cfg chunk with
  | none => rfl
  | some plaintext =>
    exact if_neg fun h2 => h ⟨plaintext, h1, identityFieldsOk_iff.1 h2⟩

/-- A firmware chunk that passes was opened without an error. -/
theorem FirmwarePasses.opened {c : Config} {chunk : List Byte} (h : FirmwarePasses c chunk) :
    (openChunk c chunk).isSome = true := by
  obtain ⟨⟨_, h1⟩, _⟩ := h; simp [h1]

theorem IdentityPasses.opened {c : Config} {chunk : List Byte} (h : IdentityPasses c chunk) :
    (openChunk c chunk).isSome = true := by
  obtain ⟨_, h1, _⟩ := h; simp [h1]

/-- `ver_firmware` is `ver_open`, and stages the chunk if it passes (R195). -/
theorem verFirmware_pass {chunk : List Byte} {s : State} (h : FirmwarePasses s.cfg chunk) :
    verFirmware chunk s =
      (.pass, (verOpen chunk s).2.stage (chunkAddress chunk) (chunkLength chunk)) := by
  obtain ⟨⟨_, h1⟩, h2⟩ := h
  simp only [verFirmware, verOpen, h1, if_pos (firmwareFieldsOk_iff.2 h2)]

theorem verFirmware_fail {chunk : List Byte} {s : State} (h : ¬FirmwarePasses s.cfg chunk) :
    verFirmware chunk s = (.fail, (verOpen chunk s).2) := by
  unfold verFirmware verOpen
  cases h1 : openChunk s.cfg chunk with
  | none => rfl
  | some plaintext =>
    exact if_neg fun h2 => h ⟨⟨plaintext, h1⟩, firmwareFieldsOk_iff.1 h2⟩

/-- The chunk an operation finds in `buf` has `CHUNK_SIZE` bytes (R53). -/
theorem chunk_length {s : State} {chunk : List Byte} (h : s.chunk = .ok chunk) :
    chunk.length = 45 + s.cfg.p := (bufGetBytes_ok_iff.1 h).1

end Sys2Proof.Machine
end

