-- ==== Sys2Proof/Laws/Control.lean ====
section
/-! SUPPORT. What each command and each poll can do (spec/43_control_fsm.md, 44_commands.md), said
once. -/

namespace Sys2Proof.Machine

/-! ### Calls of ports -/

/-- Nothing was written or erased: flash is the same, and every confirmed sector stays confirmed. -/
def Env.Keeps (env env' : Env) : Prop :=
  env'.flash = env.flash ∧ ∀ x ∈ env.confirmed, x ∈ env'.confirmed

theorem Env.Keeps.refl (env : Env) : env.Keeps env := ⟨rfl, fun _ h => h⟩
theorem Env.Keeps.trans {e e' e'' : Env} (h : e.Keeps e') (h' : e'.Keeps e'') : e.Keeps e'' :=
  ⟨h'.1.trans h.1, fun x hx => h'.2 x (h.2 x hx)⟩

/-- `u` is `s` after port calls that wrote and erased nothing, logged as `events`. -/
def Asked (s u : State) (events : List Event) : Prop :=
  ∃ env, s.env.Keeps env ∧ u = { s with env := env, trace := s.trace ++ events }

theorem Asked.refl (s : State) : Asked s s [] := ⟨s.env, .refl _, by simp⟩

theorem Asked.trans {s u v : State} {xs ys : List Event} (h : Asked s u xs) (h' : Asked u v ys) :
    Asked s v (xs ++ ys) := by
  obtain ⟨e, h1, rfl⟩ := h
  obtain ⟨e', h2, rfl⟩ := h'
  exact ⟨e', h1.trans h2, by simp⟩

theorem asked_serialGet (s : State) : Asked s s.serialGet.2 [.serialGet s.serialGet.1] :=
  ⟨s.serialGet.2.env, .refl _, rfl⟩
theorem asked_now (s : State) : Asked s s.now.2 [.clockMs s.now.1] := ⟨s.now.2.env, .refl _, rfl⟩
theorem asked_strap (s : State) : Asked s s.strapAsserted.2 [.strapAsserted s.strapAsserted.1] :=
  ⟨s.strapAsserted.2.env, .refl _, rfl⟩
theorem asked_fwCheck (s : State) : Asked s s.fwCheck.2 [.fwCheck s.fwCheck.1] :=
  ⟨s.env, .refl _, rfl⟩

/-- Confirming a sector adds it and drops none. -/
theorem mem_confirm {x y : Region × Nat} {sectors : List (Region × Nat)} :
    y ∈ confirm x sectors ↔ y = x ∨ y ∈ sectors := by
  unfold confirm
  split
  · next h => exact ⟨.inr, fun h' => h'.elim (fun e => e ▸ List.contains_iff_mem.1 h) id⟩
  · exact List.mem_cons

/-- R69: what a `flash_write` leaves confirmed. -/
theorem mem_confirmedAfterWrite {x : Region × Nat} {sectors : List (Region × Nat)} :
    x ∈ confirmedAfterWrite sectors ↔ x ∈ sectors ∧ x.1 = .ud := by
  simp [confirmedAfterWrite]

/-- `flash_sector_erased` of a sector that was confirmed before (R69): true, whatever is listed. -/
theorem sectorErased_confirmed {s : State} {r : Region} {k : Nat} (h : (r, k) ∈ s.env.confirmed) :
    s.sectorErased r k = (true, s.log (.sectorErased r k true)) := by
  have hc : s.env.confirmed.contains (r, k) = true := List.contains_iff_mem.2 h
  simp only [State.sectorErased, Env.erasedAnswer, confirm, hc, if_true]

/-- `flash_sector_erased` of any other sector: the next listed answer, which a true one confirms. -/
theorem sectorErased_listed {s : State} {r : Region} {k : Nat} {x : Bool} {rest : List Bool}
    (h : (r, k) ∉ s.env.confirmed) (h2 : s.env.sectorErased = x :: rest) :
    s.sectorErased r k = (x, { s with
      env := { s.env with
        sectorErased := rest
        confirmed := if x then (r, k) :: s.env.confirmed else s.env.confirmed }
      trace := s.trace ++ [.sectorErased r k x] }) := by
  have hc : s.env.confirmed.contains (r, k) = false := by
    cases hb : s.env.confirmed.contains (r, k)
    · rfl
    · exact absurd (List.contains_iff_mem.1 hb) h
  simp only [State.sectorErased, Env.erasedAnswer, confirm, hc, h2, draw_listed, Bool.false_eq_true,
    if_false]
  rfl

theorem asked_sectorErased (s : State) (r : Region) (k : Nat) :
    Asked s (s.sectorErased r k).2 [.sectorErased r k (s.sectorErased r k).1] := by
  refine ⟨(s.sectorErased r k).2.env, ⟨rfl, fun x h => ?_⟩, rfl⟩
  show x ∈ if (s.env.erasedAnswer r k).1 then confirm (r, k) s.env.confirmed else s.env.confirmed
  split
  · exact mem_confirm.2 (.inr h)
  · exact h

/-- `flash_sector_erase` (R58): what it changes in flash is the environment's, inside the region, and
no confirmed sector is lost. -/
theorem sectorErase_cases (s : State) (r : Region) (k : Nat) : ∃ env cells,
    env.flash = flashSetCells s.env.flash cells ∧ (∀ x ∈ cells, mayHold s.cfg r x.1 = true) ∧
    env.confirmed = s.env.confirmed ∧
    s.sectorErase r k = { s with env := env, trace := s.trace ++ [.sectorErase r k] } :=
  ⟨(s.sectorErase r k).env, _, rfl, fun _ h => (List.mem_filter.1 h).2, rfl, rfl⟩

/-- `flash_write` whoever answers (R57): the environment's next answer decides. -/
theorem flashWrite_cases (s : State) (a : Word32) (bytes : List Byte) :
    ∃ answer answers drawn,
      (∀ x rest, s.env.writeAnswer = x :: rest →
        answer = x ∧ answers = rest ∧ drawn = s.env.drawn) ∧
      s.flashWrite a bytes = (answer == .ok, { s with
        env := { s.env with
          writeAnswer := answers
          drawn := drawn
          confirmed := confirmedAfterWrite s.env.confirmed
          flash := match answer with
            | .ok => flashSetBytes s.env.flash a.toNat bytes
            | .fail left => flashSetLeft s.env.flash a.toNat bytes.length left }
        trace := s.trace ++ [.flashWrite a bytes (answer == .ok)] }) := by
  unfold State.flashWrite
  generalize hd : draw s.env.writeAnswer Config.freeWriteAnswer s.env.drawn = d
  obtain ⟨x, y, z⟩ := d
  have hx : ∀ x' rest, s.env.writeAnswer = x' :: rest → x = x' ∧ y = rest ∧ z = s.env.drawn := by
    intro x' rest h; rw [h, draw_listed] at hd; cases hd; exact ⟨rfl, rfl, rfl⟩
  cases x with
  | ok => exact ⟨.ok, y, z, hx, rfl⟩
  | fail left => exact ⟨.fail left, y, z, hx, rfl⟩

/-! ### Commands -/

theorem exec_begin {s : State} (h : s.ctl.activated = true) (args : List Byte) :
    exec (.cmdBegin args) s =
      if packetLength args ≠ 1 + s.cfg.chunkSize then .next (s.respond 0x71 0x02 [])
      else match verIdentity args s with
        | (.fail, s1) => .next ((s1.raise .precondition).respond 0x71 0x02 [])
        | (.pass, s1) => .next (s1.go .begin) := if_pos h

theorem exec_send {s : State} (h : s.ctl.activated = true) (args : List Byte) :
    exec (.cmdSend args) s =
      if packetLength args ≠ 1 + s.cfg.chunkSize then .next (s.unstage.respond 0x72 0x01 [])
      else match verFirmware args s with
        | (.pass, s1) => .next (s1.respond 0x72 0x00 [])
        | (.fail, s1) => .next (s1.respond 0x72 0x01 []) := if_pos h

/-- `WRITE` once the flash has been read (R264). -/
theorem exec_write {s : State} {staged : List Byte} (h : s.ctl.activated = true)
    (h2 : s.ctl.updateInProgress = true) (h3 : s.ctl.stagedValid = true)
    (h4 : s.ctl.stagedAddr.toNat + s.ctl.stagedLen.toNat ≤ flashSize)
    (h5 : s.plainGetBytes 0 s.ctl.stagedLen.toNat = .ok staged) (args : List Byte) :
    exec (.cmdWrite args) s =
      let inFlash := flashGetBytes s.env.flash s.ctl.stagedAddr.toNat s.ctl.stagedLen.toNat
      let u := s.unstage.log (.flashRead s.ctl.stagedAddr inFlash)
      if inFlash = staged then .next (u.respond 0x73 0x00 [])
      else .next (writeStaged s.ctl.stagedAddr staged u) := by
  have h6 : ∀ e, (s.unstage.log e).plainGetBytes 0 (s.unstage.log e).ctl.stagedLen.toNat =
      .ok staged := fun e =>
    (plainGetBytes_congr (s := s) (t := s.unstage.log e) rfl rfl 0 _).trans h5
  have h7 : s.unstage.flashRead s.unstage.ctl.stagedAddr s.unstage.ctl.stagedLen.toNat =
      .ok (flashGetBytes s.env.flash s.ctl.stagedAddr.toNat s.ctl.stagedLen.toNat,
        s.unstage.log (.flashRead s.ctl.stagedAddr
          (flashGetBytes s.env.flash s.ctl.stagedAddr.toNat s.ctl.stagedLen.toNat))) := if_pos h4
  simp only [exec, execCmdWrite, State.gated, h, if_true, State.writeAllowed, h2, h3, Bool.and_self,
    h7, h6]
  rfl

theorem exec_write_refused {s : State} (h : s.ctl.activated = true)
    (h2 : s.ctl.updateInProgress = false ∨ s.ctl.stagedValid = false) (args : List Byte) :
    exec (.cmdWrite args) s = .next ((s.raise .precondition).respond 0x73 0x02 []) := by
  refine (if_pos h).trans (if_neg ?_)
  unfold State.writeAllowed; rcases h2 with h2 | h2 <;> simp [h2]

theorem exec_end {s : State} (h : s.ctl.activated = true) (args : List Byte) :
    exec (.cmdEnd args) s = .next ((s.setUpdateInProgress false).respond 0x74 0x00 []) := if_pos h

theorem exec_checkCrc {s : State} (h : s.ctl.activated = true) (args : List Byte) :
    exec (.cmdCheckCrc args) s =
      if s.ctl.updateInProgress then .next ((s.raise .precondition).respond 0x75 0x02 [])
      else .next ((s.fwCheck.2.setFirmwareValid s.fwCheck.1).respond 0x75
        (if s.fwCheck.1 then 0x00 else 0x01) []) := if_pos h

theorem exec_appRun {s : State} (h : s.ctl.activated = true) (args : List Byte) :
    exec (.cmdAppRun args) s =
      if s.ctl.updateInProgress then .next ((s.raise .precondition).respond 0x76 0x02 [])
      else if s.fwCheck.1 then
        .next (((s.fwCheck.2.setFirmwareValid true).send [0x76, 0x00]).go .appRun)
      else .next ((s.fwCheck.2.setFirmwareValid false).respond 0x76 0x01 []) := by
  refine (if_pos h).trans ?_
  split
  · rfl
  · have hc : s.fwCheck = (s.fwCheck.1, s.fwCheck.2) := rfl
    rw [hc]
    cases s.fwCheck.1 <;> rfl

theorem exec_eraseUserData {s : State} (h : s.ctl.activated = true) (args : List Byte) :
    exec (.cmdEraseUserData args) s =
      if s.cfg.hasUserData then .next ((s.startErase 0x78).go .userDataClear)
      else .next (s.go .main) := if_pos h

theorem exec_gated {s : State} (h : s.ctl.activated = false) {i : Instr} (hf : i.format = .cmd)
    (hi : ∀ args, i ≠ .cmdActivate args) : exec i s = .next (s.go .main) := by
  cases i <;> simp only [Instr.format, reduceCtorEq] at hf
  case cmdActivate args => exact absurd rfl (hi args)
  all_goals simp only [exec, execCmdBegin, execCmdSend, execCmdWrite, execCmdEnd, execCmdCheckCrc,
    execCmdAppRun, execCmdEraseUserData, execCmdReserved, State.gated, h, Bool.false_eq_true, if_false]

/-! ### Polls -/

/-- The action of one state (R210). -/
def pollIn (p : CtlPhase) (s : State) : Outcome :=
  match p with
  | .init => .next (pollInit s)
  | .main => .next (pollMain s)
  | .rxWait => pollRxWait s
  | .begin => .next (pollBegin s)
  | .flashClear => pollErase .app s
  | .sendEventFlashClear => .next (pollDelay s.cfg.tRespDelay (State.go .sendEventFlashClear1) s)
  | .sendEventFlashClear1 => pollTransmit (nextSector .flashClear) s
  | .userDataClear => pollErase .ud s
  | .sendEventUserDataClear =>
    .next (pollDelay s.cfg.tRespDelay (State.go .sendEventUserDataClear1) s)
  | .sendEventUserDataClear1 => pollTransmit (nextSector .userDataClear) s
  | .appRun => .next (pollDelay s.cfg.tRespDelay (State.go .appRun1) s)
  | .appRun1 => pollTransmit (State.go .appRun2) s
  | .appRun2 => .next (pollDelay s.cfg.tSettle State.doHandoff s)
  | .sendResp => .next (pollDelay s.cfg.tRespDelay (State.go .sendResp1) s)
  | .sendResp1 => pollTransmit (State.go .main) s
  | .handoff => .next s

theorem exec_ctlPoll {s : State} {p : CtlPhase} (h : s.ctl.state = p) :
    exec .opCtlPoll s = pollIn p s := by subst h; rfl

/-- R211 (1). -/
theorem initCheck_cases (s : State) : ∃ v events, initCheck s = { s with
      ctl := { s.ctl with firmwareValid := v }
      trace := s.trace ++ events } ∧
    ((s.cfg.debugSkipCheck = true ∧ v = true ∧ events = []) ∨
     (s.cfg.debugSkipCheck = false ∧ v = fwCheckValue s.cfg s.env.flash ∧ events = [.fwCheck v])) := by
  unfold initCheck
  cases hd : s.cfg.debugSkipCheck
  · exact ⟨_, _, rfl, .inr ⟨rfl, rfl, rfl⟩⟩
  · refine ⟨true, [], ?_, .inl ⟨rfl, rfl, rfl⟩⟩
    simp only [if_true, List.append_nil]; rfl

theorem initSample_timer {s : State} (h : s.cfg.bootPolicy = .timer) :
    initSample s = { s.now.2 with ctl := { s.ctl with tBoot := s.now.1 } } := by
  simp only [initSample, h]

theorem initSample_strap {s : State} (h : s.cfg.bootPolicy = .strap) : initSample s =
    { s.strapAsserted.2 with ctl := { s.ctl with activated := s.strapAsserted.1 } } := by
  simp only [initSample, h]

theorem initBoots_iff {s : State} : s.initBoots = true ↔ s.cfg.bootPolicy = .strap ∧
    s.ctl.activated = false ∧ s.cfg.strapAbsentPolicy = .bootIfValid ∧
    s.ctl.firmwareValid = true := by
  unfold State.initBoots
  cases s.cfg.bootPolicy <;> cases s.ctl.activated <;> cases s.cfg.strapAbsentPolicy <;>
    cases s.ctl.firmwareValid <;> decide

theorem pollInit_eq (s : State) : pollInit s =
    if (initSample (initCheck s)).initBoots then (initSample (initCheck s)).doHandoff
    else (initSample (initCheck s)).go .main := rfl

/-- Everything the first poll can do (R211). -/
theorem pollInit_cases (s : State) : ∃ u c events p, Asked s u events ∧
    pollInit s = State.go p { u with
      ctl := c, trace := u.trace ++ if p = .handoff then [.handoff] else [] } ∧
    (∀ e ∈ events, (∃ x, e = .fwCheck x) ∨ (∃ x, e = .clockMs x) ∨ ∃ x, e = .strapAsserted x) ∧
    (∃ v a t, c = { s.ctl with firmwareValid := v, activated := a, tBoot := t } ∧
      (a = true → s.ctl.activated = true ∨ s.cfg.bootPolicy = .strap)) ∧
    (p = .main ∨ (p = .handoff ∧ c.firmwareValid = true)) := by
  obtain ⟨v, events, h1, h2⟩ := initCheck_cases s
  have he : ∀ e ∈ events, (∃ x, e = .fwCheck x) := by
    rcases h2 with ⟨_, _, rfl⟩ | ⟨_, _, rfl⟩ <;> simp
  obtain ⟨w, hwd⟩ : ∃ w : State, w = { s with trace := s.trace ++ events } := ⟨_, rfl⟩
  have hu : Asked s w events := ⟨s.env, .refl _, hwd⟩
  rw [pollInit_eq, h1]
  cases hb : s.cfg.bootPolicy with
  | timer =>
    rw [initSample_timer (by exact hb), if_neg (by rw [initBoots_iff]; simp [hb])]
    refine ⟨w.now.2, { s.ctl with firmwareValid := v, tBoot := w.now.1 }, _, .main,
      hu.trans (asked_now w), ?_, fun e h => ?_, ⟨v, s.ctl.activated, _, rfl, .inl⟩, .inl rfl⟩
    · rw [if_neg (by simp), List.append_nil, hwd]; rfl
    · rcases List.mem_append.1 h with h | h
      · exact .inl (he e h)
      · exact .inr (.inl ⟨_, List.mem_singleton.1 h⟩)
  | strap =>
    rw [initSample_strap (by exact hb)]
    split
    · next hi =>
      refine ⟨w.strapAsserted.2, { s.ctl with firmwareValid := v, activated := w.strapAsserted.1 },
        _, .handoff, hu.trans (asked_strap w), ?_, fun e h => ?_,
        ⟨v, _, s.ctl.tBoot, rfl, fun _ => .inr rfl⟩, .inr ⟨rfl, (initBoots_iff.1 hi).2.2.2⟩⟩
      · rw [if_pos rfl, hwd]; rfl
      · rcases List.mem_append.1 h with h | h
        · exact .inl (he e h)
        · exact .inr (.inr ⟨_, List.mem_singleton.1 h⟩)
    · refine ⟨w.strapAsserted.2, { s.ctl with firmwareValid := v, activated := w.strapAsserted.1 },
        _, .main, hu.trans (asked_strap w), ?_, fun e h => ?_,
        ⟨v, _, s.ctl.tBoot, rfl, fun _ => .inr rfl⟩, .inl rfl⟩
      · rw [if_neg (by simp), List.append_nil, hwd]; rfl
      · rcases List.mem_append.1 h with h | h
        · exact .inl (he e h)
        · exact .inr (.inr ⟨_, List.mem_singleton.1 h⟩)

/-- The first three conditions of R214. -/
theorem autoBootArmed_iff {s : State} : s.autoBootArmed = true ↔
    s.cfg.bootPolicy = .timer ∧ s.ctl.activated = false ∧ s.ctl.firmwareValid = true := by
  unfold State.autoBootArmed
  cases s.cfg.bootPolicy <;> cases s.ctl.activated <;> cases s.ctl.firmwareValid <;> decide

theorem autoBootDue_armed {s : State} (h : s.autoBootArmed = true) :
    s.autoBootDue = (decide (s.cfg.tBoot ≤ s.now.1 - s.ctl.tBoot), s.now.2) := if_pos h

theorem autoBootDue_not {s : State} (h : s.autoBootArmed = false) : s.autoBootDue = (false, s) :=
  if_neg (by simp [h])

/-- What the receiving part of an `RX_WAIT` poll can end in (R213, R214). -/
theorem rxWaitPull_cases {s : State} {p : Pull} (h : rxWaitPull s = .ok p) :
    (s.autoBootArmed = true ∧ s.cfg.tBoot ≤ s.now.1 - s.ctl.tBoot ∧ p = .autoBoot s.now.2) ∨
    (∃ input u events r s1, Asked s u events ∧ (∀ e ∈ events, (∃ x, e = .clockMs x) ∨
        ∃ x, e = .serialGet x) ∧ rxStep input u = .ok (r, s1) ∧ p = .stepped r s1) := by
  unfold rxWaitPull at h
  have hstep : ∀ u0 xs, Asked s u0 xs → (∀ e ∈ xs, ∃ x, e = .clockMs x) →
      (match rxStep u0.serialGet.1 u0.serialGet.2 with
        | .error f => (.error f : Except Fault Pull)
        | .ok (r, s3) => .ok (.stepped r s3)) = .ok p →
      ∃ input u events r s1, Asked s u events ∧ (∀ e ∈ events, (∃ x, e = .clockMs x) ∨
        ∃ x, e = .serialGet x) ∧ rxStep input u = .ok (r, s1) ∧ p = .stepped r s1 := by
    intro u0 xs ha hx hm
    refine ⟨u0.serialGet.1, u0.serialGet.2, xs ++ [.serialGet u0.serialGet.1], ?_⟩
    cases hr : rxStep u0.serialGet.1 u0.serialGet.2 with
    | error f => rw [hr] at hm; cases hm
    | ok q =>
      rw [hr] at hm; cases hm
      refine ⟨q.1, q.2, ha.trans (asked_serialGet u0), fun e he => ?_, rfl, rfl⟩
      rcases List.mem_append.1 he with he | he
      · exact .inl (hx e he)
      · exact .inr ⟨_, by simpa using he⟩
  cases ha : s.autoBootArmed
  · rw [autoBootDue_not ha] at h
    exact .inr (hstep s [] (.refl s) (by simp) h)
  · rw [autoBootDue_armed ha] at h
    by_cases ht : s.cfg.tBoot ≤ s.now.1 - s.ctl.tBoot
    · rw [decide_eq_true ht] at h; cases h
      exact .inl ⟨rfl, ht, rfl⟩
    · rw [decide_eq_false ht] at h
      exact .inr (hstep s.now.2 _ (asked_now s) (by simp) h)

/-- One sector (R221 (2)): skipped, or erased and queried again. -/
theorem eraseSector_cases (r : Region) (k : Nat) (s : State) :
    (∃ u, Asked s u [.sectorErased r k true] ∧ eraseSector r k s = (true, u)) ∨
    (∃ ok env cells, env.flash = flashSetCells s.env.flash cells ∧
      (∀ x ∈ cells, mayHold s.cfg r x.1 = true) ∧ (∀ x ∈ s.env.confirmed, x ∈ env.confirmed) ∧
      eraseSector r k s = (ok, { s with
        env := env
        trace := s.trace ++
          [.sectorErased r k false, .sectorErase r k, .sectorErased r k ok] })) := by
  unfold eraseSector
  have e1 : s.sectorErased r k = ((s.sectorErased r k).1, (s.sectorErased r k).2) := rfl
  have a1 := asked_sectorErased s r k
  rw [e1]
  generalize (s.sectorErased r k).2 = u at *
  cases hf : (s.sectorErased r k).1 <;> rw [hf] at a1
  · right
    obtain ⟨env, h1, rfl⟩ := a1
    obtain ⟨env', cells, h2, hcells, hkept, he⟩ := sectorErase_cases
      { s with env := env, trace := s.trace ++ [.sectorErased r k false] } r k
    obtain ⟨env'', h3, hq⟩ := asked_sectorErased (State.sectorErase r k
      { s with env := env, trace := s.trace ++ [.sectorErased r k false] }) r k
    rw [he] at h3 hq
    generalize hok : (State.sectorErased r k _).1 = ok at hq
    refine ⟨ok, env'', cells, h3.1.trans (h2.trans (by rw [← h1.1])), hcells,
      fun x hx => h3.2 x (hkept.symm ▸ h1.2 x hx), ?_⟩
    simp only [he]
    refine Prod.ext hok (hq.trans ?_)
    simp only [List.append_assoc, List.cons_append, List.nil_append]
  · exact .inl ⟨u, a1, rfl⟩

theorem pollDelay_enter {s : State} (h : s.ctl.sub = .enter) (t : Word32) (f : State → State) :
    pollDelay t f s = { s.now.2 with ctl := { s.ctl with tResp := s.now.1, sub := .poll } } := by
  simp only [pollDelay, State.delayDone, h]; rfl

theorem pollDelay_wait {s : State} {t : Word32} (h : s.ctl.sub = .poll)
    (h2 : s.now.1 - s.ctl.tResp < t) (f : State → State) : pollDelay t f s = s.now.2 := by
  simp only [pollDelay, State.delayDone, h]
  rw [decide_eq_false (by simpa [elapsed] using h2)]

theorem pollDelay_done {s : State} {t : Word32} (h : s.ctl.sub = .poll)
    (h2 : t ≤ s.now.1 - s.ctl.tResp) (f : State → State) : pollDelay t f s = f s.now.2 := by
  simp only [pollDelay, State.delayDone, h]
  rw [decide_eq_true (by exact h2)]

/-- A delaying state arms its delay, waits, or moves on (R240). -/
theorem pollDelay_cases (t : Word32) (f : State → State) (s : State) : ∃ u x, Asked s u [.clockMs x] ∧
    (pollDelay t f s = { u with ctl := { u.ctl with tResp := x, sub := .poll } } ∨
     pollDelay t f s = u ∨ pollDelay t f s = f u) := by
  refine ⟨s.now.2, s.now.1, asked_now s, ?_⟩
  cases hs : s.ctl.sub
  · exact .inl (pollDelay_enter hs t f)
  · by_cases ht : t ≤ s.now.1 - s.ctl.tResp
    · exact .inr (.inr (pollDelay_done hs ht f))
    · exact .inr (.inl (pollDelay_wait hs (by simpa using ht) f))

/-- A transmitting state moves on exactly when the frame has gone out (R225, R232, R236). -/
theorem pollTransmit_of {s u : State} {r : TxResult} (h : txStep s = .ok (r, u))
    (f : State → State) :
    pollTransmit f s = .next (if u.tx.state = .done then f u else u) := by
  unfold pollTransmit; rw [h]
  rcases txStep_cases h with ⟨h1, rfl, rfl⟩ | ⟨h1, b, ok, ready, drawn, tx, _, rfl, rfl, _⟩
  · rw [if_pos h1]
  · by_cases h2 : tx.state = .done
    · simp only [if_pos h2]
    · simp only [if_neg h2]

theorem txStep_result {s u : State} {r : TxResult} (h : txStep s = .ok (r, u)) :
    u.result = s.result := by
  rcases txStep_cases h with ⟨h1, rfl, rfl⟩ | ⟨h1, b, ok, ready, drawn, tx, _, rfl, rfl, _⟩ <;> rfl

theorem pollTransmit_cases {f : State → State} {s t : State} (h : pollTransmit f s = .next t) :
    ∃ r u, txStep s = .ok (r, u) ∧ t = if u.tx.state = .done then f u else u := by
  cases hx : txStep s with
  | error e => unfold pollTransmit at h; rw [hx] at h; cases h
  | ok p => rw [pollTransmit_of hx] at h; cases h; exact ⟨p.1, p.2, rfl, rfl⟩

/-- Everything one pass of an erase state can do (R221 to R223, R226, R227). -/
theorem pollErase_cases {r : Region} {s t : State} (h : pollErase r s = .next t) :
    let k := s.ctl.eraseIdx.toNat
    (k = s.cfg.sectors r ∧ t = (s.eraseCompleted r).respond s.ctl.eraseOp 0x00 []) ∨
    (k < s.cfg.sectors r ∧ ∃ ok env events, (∀ x ∈ s.env.confirmed, x ∈ env.confirmed) ∧
      ((env.flash = s.env.flash ∧ ok = true ∧ events = [.sectorErased r k true]) ∨
        ((∃ cells, env.flash = flashSetCells s.env.flash cells ∧
            ∀ x ∈ cells, mayHold s.cfg r x.1 = true) ∧
          events = [.sectorErased r k false, .sectorErase r k, .sectorErased r k ok])) ∧
      ((ok = false ∧ t = State.respond s.ctl.eraseOp 0x01 (le32 s.ctl.eraseIdx)
          (State.raise (.flashErase k) { s with env := env, trace := s.trace ++ events })) ∨
        (ok = true ∧ t = State.sendEvent r s.ctl.eraseOp (BitVec.ofNat 32 (s.cfg.sectors r))
          (s.ctl.eraseIdx + BitVec.ofNat 32 s.cfg.progressDoneBias)
          { s with env := env, trace := s.trace ++ events }))) := by
  unfold pollErase at h
  simp only at h ⊢
  split at h
  · next h1 => cases h; exact .inl ⟨h1, rfl⟩
  · split at h
    · next h1 =>
      refine .inr ⟨h1, ?_⟩
      rcases eraseSector_cases r s.ctl.eraseIdx.toNat s with ⟨u, ⟨env, h2, rfl⟩, h3⟩ |
        ⟨ok, env, cells, h2, hcells, hkept, h3⟩
      · rw [h3] at h; cases h
        exact ⟨true, env, _, h2.2, .inl ⟨h2.1, rfl, rfl⟩, .inr ⟨rfl, rfl⟩⟩
      · rw [h3] at h
        refine ⟨ok, env, _, hkept, .inr ⟨⟨cells, h2, hcells⟩, rfl⟩, ?_⟩
        cases ok
        · cases h; exact .inl ⟨rfl, rfl⟩
        · cases h; exact .inr ⟨rfl, rfl⟩
    · cases h

end Sys2Proof.Machine
end

