-- ==== Sys2Proof/Laws/Dispatch.lean ====
section
/-! SUPPORT. Everything that dispatching a received packet can do (spec/43_control_fsm.md R215,
44_commands.md), said once. -/

namespace Sys2Proof.Machine

/-- The states that dispatch in `s` can lead to, each with the conditions under which it does. -/
inductive Dispatched (s : State) : State → Prop where
  /-- an empty, unknown or gated packet, or a wrong signature -/
  | dropped : Dispatched s (s.go .main)
  /-- R261 -/
  | activated (h : s.packet = .ok (0x70 :: s.cfg.signature)) :
      Dispatched s (s.activate.respond 0x70 0x00 [])
  /-- a command answered without looking at a chunk or at flash: the length tests of R262 and R263,
  the preconditions of R264, R266, R267 -/
  | refused (op st : Byte) (u : State) (ha : s.ctl.activated = true)
      (hu : u = s ∨ u = s.unstage ∨ u = s.raise .precondition) : Dispatched s (u.respond op st [])
  /-- R262: the identity chunk passes -/
  | begun (chunk : List Byte) (ha : s.ctl.activated = true) (hl : chunk.length = 45 + s.cfg.p)
      (h : IdentityPasses s.cfg chunk) : Dispatched s ((verOpen chunk s).2.go .begin)
  /-- R262, R263: the chunk fails -/
  | rejected (chunk : List Byte) (op st : Byte) (u : State) (ha : s.ctl.activated = true)
      (hl : chunk.length = 45 + s.cfg.p)
      (hu : u = (verOpen chunk s).2 ∨ u = (verOpen chunk s).2.raise .precondition) :
      Dispatched s (u.respond op st [])
  /-- R263: the firmware chunk passes -/
  | staged (chunk : List Byte) (ha : s.ctl.activated = true) (hl : chunk.length = 45 + s.cfg.p)
      (h : FirmwarePasses s.cfg chunk) :
      Dispatched s (((verOpen chunk s).2.stage (chunkAddress chunk) (chunkLength chunk)).respond
        0x72 0x00 [])
  /-- R264: flash holds the staged bytes already -/
  | unchanged (ha : s.ctl.activated = true) (hu : s.ctl.updateInProgress = true)
      (hs : s.ctl.stagedValid = true) (bytes : List Byte) :
      Dispatched s ((s.unstage.log (.flashRead s.ctl.stagedAddr bytes)).respond 0x73 0x00 [])
  /-- R264: flash is written -/
  | written (ha : s.ctl.activated = true) (hu : s.ctl.updateInProgress = true)
      (hs : s.ctl.stagedValid = true) (hp : ∃ args, s.packet = .ok (0x73 :: args))
      (bytes staged : List Byte) (hl : staged.length = s.ctl.stagedLen.toNat) :
      Dispatched s (writeStaged s.ctl.stagedAddr staged
        (s.unstage.log (.flashRead s.ctl.stagedAddr bytes)))
  /-- R265 -/
  | ended (ha : s.ctl.activated = true) :
      Dispatched s ((s.setUpdateInProgress false).respond 0x74 0x00 [])
  /-- R266, and R267 where the check fails -/
  | checked (op st : Byte) (ha : s.ctl.activated = true) (hu : s.ctl.updateInProgress = false) :
      Dispatched s ((s.fwCheck.2.setFirmwareValid s.fwCheck.1).respond op st [])
  /-- R267 -/
  | runs (ha : s.ctl.activated = true) (hu : s.ctl.updateInProgress = false)
      (hv : fwCheckValue s.cfg s.env.flash = true) :
      Dispatched s (((s.fwCheck.2.setFirmwareValid true).send [0x76, 0x00]).go .appRun)
  /-- R268 -/
  | erases (ha : s.ctl.activated = true) (hu : s.cfg.hasUserData = true) :
      Dispatched s ((s.startErase 0x78).go .userDataClear)

theorem length_of_packetLength {s : State} {args : List Byte}
    (h : ¬packetLength args ≠ 1 + s.cfg.chunkSize) : args.length = 45 + s.cfg.p := by
  unfold packetLength Config.chunkSize at h; omega

theorem dispatched_begin {s t : State} {args : List Byte} (ha : s.ctl.activated = true)
    (h : exec (.cmdBegin args) s = .next t) : Dispatched s t := by
  rw [exec_begin ha] at h
  split at h
  · cases h; exact .refused _ _ s ha (.inl rfl)
  · next hl =>
    by_cases hp : IdentityPasses s.cfg args
    · rw [verIdentity_pass hp] at h; cases h
      exact .begun args ha (length_of_packetLength hl) hp
    · rw [verIdentity_fail hp] at h; cases h
      exact .rejected args _ _ _ ha (length_of_packetLength hl) (.inr rfl)

theorem dispatched_send {s t : State} {args : List Byte} (ha : s.ctl.activated = true)
    (h : exec (.cmdSend args) s = .next t) : Dispatched s t := by
  rw [exec_send ha] at h
  split at h
  · cases h; exact .refused _ _ s.unstage ha (.inr (.inl rfl))
  · next hl =>
    by_cases hp : FirmwarePasses s.cfg args
    · rw [verFirmware_pass hp] at h; cases h
      exact .staged args ha (length_of_packetLength hl) hp
    · rw [verFirmware_fail hp] at h; cases h
      exact .rejected args _ _ _ ha (length_of_packetLength hl) (.inl rfl)

theorem dispatched_write {s t : State} {args : List Byte} (ha : s.ctl.activated = true)
    (hpk : s.packet = .ok (0x73 :: args)) (h : exec (.cmdWrite args) s = .next t) : Dispatched s t := by
  by_cases hw : s.ctl.updateInProgress = true ∧ s.ctl.stagedValid = true
  · have hwa : s.writeAllowed = true := by simp [State.writeAllowed, hw]
    by_cases hf : s.ctl.stagedAddr.toNat + s.ctl.stagedLen.toNat ≤ flashSize
    · cases hp : s.plainGetBytes 0 s.ctl.stagedLen.toNat with
      | error f =>
        have : exec (.cmdWrite args) s = .fault f := by
          refine (if_pos ha).trans ((if_pos hwa).trans ?_)
          have hr : s.unstage.flashRead s.unstage.ctl.stagedAddr s.unstage.ctl.stagedLen.toNat =
              .ok (flashGetBytes s.env.flash s.ctl.stagedAddr.toNat s.ctl.stagedLen.toNat,
                s.unstage.log (.flashRead s.ctl.stagedAddr
                  (flashGetBytes s.env.flash s.ctl.stagedAddr.toNat s.ctl.stagedLen.toNat))) :=
            if_pos hf
          have hp' : ∀ e, (s.unstage.log e).plainGetBytes 0 (s.unstage.log e).ctl.stagedLen.toNat =
              .error f := fun e =>
            (plainGetBytes_congr (s := s) (t := s.unstage.log e) rfl rfl 0 _).trans hp
          simp only [hr, hp']
        rw [this] at h; cases h
      | ok staged =>
        rw [exec_write ha hw.1 hw.2 hf hp] at h
        simp only at h
        split at h
        · cases h; exact .unchanged ha hw.1 hw.2 _
        · cases h; exact .written ha hw.1 hw.2 ⟨args, hpk⟩ _ staged (plainGetBytes_ok_iff.1 hp).1
    · have : exec (.cmdWrite args) s =
          .fault (.flashAddress (s.ctl.stagedAddr.toNat + s.ctl.stagedLen.toNat)) := by
        refine (if_pos ha).trans ((if_pos hwa).trans ?_)
        have hr : s.unstage.flashRead s.unstage.ctl.stagedAddr s.unstage.ctl.stagedLen.toNat =
            .error (.flashAddress (s.ctl.stagedAddr.toNat + s.ctl.stagedLen.toNat)) := if_neg hf
        simp only [hr]
      rw [this] at h; cases h
  · rw [exec_write_refused ha (by
      cases h1 : s.ctl.updateInProgress <;> cases h2 : s.ctl.stagedValid <;> simp_all)] at h
    cases h
    exact .refused _ _ _ ha (.inr (.inr rfl))

theorem dispatched_checkCrc {s t : State} {args : List Byte} (ha : s.ctl.activated = true)
    (h : exec (.cmdCheckCrc args) s = .next t) : Dispatched s t := by
  rw [exec_checkCrc ha] at h
  split at h
  · cases h; exact .refused _ _ _ ha (.inr (.inr rfl))
  · next hu => cases h; exact .checked _ _ ha (by simpa using hu)

theorem dispatched_appRun {s t : State} {args : List Byte} (ha : s.ctl.activated = true)
    (h : exec (.cmdAppRun args) s = .next t) : Dispatched s t := by
  rw [exec_appRun ha] at h
  split at h
  · cases h; exact .refused _ _ _ ha (.inr (.inr rfl))
  · next hu =>
    split at h
    · next hv => cases h; exact .runs ha (by simpa using hu) hv
    · next hv =>
      have hf : s.fwCheck.1 = false := by simpa using hv
      have := Dispatched.checked (s := s) 0x76 0x01 ha (by simpa using hu)
      rw [hf] at this
      cases h; exact this

theorem dispatched_eraseUserData {s t : State} {args : List Byte} (ha : s.ctl.activated = true)
    (h : exec (.cmdEraseUserData args) s = .next t) : Dispatched s t := by
  rw [exec_eraseUserData ha] at h
  split at h
  · next hu => cases h; exact .erases ha hu
  · cases h; exact .dropped

/-- Everything dispatch can do (R215). -/
theorem dispatch_cases {s t : State} (h : dispatch s = .next t) : Dispatched s t := by
  unfold dispatch at h
  cases hp : s.packet with
  | error f => rw [hp] at h; cases h
  | ok bytes =>
    cases bytes with
    | nil => rw [hp] at h; cases h; exact .dropped
    | cons op args =>
      rw [hp] at h
      simp only [dispatchOpcode] at h
      split at h
      · next h0 =>
        subst h0
        simp only [execCmdActivate] at h
        split at h
        · next hs => cases h; exact .activated (by rw [hp, hs.2])
        · cases h; exact .dropped
      · split at h
        · cases h; exact .dropped
        · next hg =>
          have ha : s.ctl.activated = true := by simpa using hg
          repeat' split at h
          · exact dispatched_begin (args := args) ha h
          · exact dispatched_send (args := args) ha h
          · next h3 => exact dispatched_write (args := args) ha (h3 ▸ hp) h
          · rw [show execCmdEnd args s = _ from exec_end ha args] at h
            cases h; exact .ended ha
          · exact dispatched_checkCrc (args := args) ha h
          · exact dispatched_appRun (args := args) ha h
          · exact dispatched_eraseUserData (args := args) ha h
          · cases h; exact .dropped

/-- `writeStaged` whoever answers (R264). -/
theorem writeStaged_cases (a : Word32) (bytes : List Byte) (s : State) :
    ∃ ok env st events, env.confirmed = confirmedAfterWrite s.env.confirmed ∧
      (env.flash = flashSetBytes s.env.flash a.toNat bytes ∨
        ∃ left, env.flash = flashSetLeft s.env.flash a.toNat bytes.length left) ∧
      (events = [.flashWrite a bytes ok] ∨
        events = [.flashWrite a bytes ok, .raised .flashWrite]) ∧
      writeStaged a bytes s =
        State.respond 0x73 st [] { s with env := env, trace := s.trace ++ events } := by
  obtain ⟨answer, answers, drawn, _, he⟩ := flashWrite_cases s a bytes
  unfold writeStaged
  rw [he]
  cases answer with
  | ok =>
    exact ⟨true, { s.env with
      writeAnswer := answers
      drawn := drawn
      confirmed := confirmedAfterWrite s.env.confirmed
      flash := flashSetBytes s.env.flash a.toNat bytes }, 0x00, _, rfl, .inl rfl, .inl rfl, rfl⟩
  | fail left =>
    refine ⟨false, { s.env with
      writeAnswer := answers
      drawn := drawn
      confirmed := confirmedAfterWrite s.env.confirmed
      flash := flashSetLeft s.env.flash a.toNat bytes.length left }, 0x01, _, rfl, .inr ⟨left, rfl⟩,
      .inr rfl, ?_⟩
    rw [show ∀ x y : Event, s.trace ++ [x, y] = s.trace ++ [x] ++ [y] by simp]; rfl

/-- Everything an `RX_WAIT` poll can do (R213 to R215). -/
theorem pollRxWait_cases {s t : State} (h : pollRxWait s = .next t) :
    (s.autoBootArmed = true ∧ s.cfg.tBoot ≤ s.now.1 - s.ctl.tBoot ∧ t = s.now.2.doHandoff) ∨
    (∃ input u events r s1, Asked s u events ∧ (∀ e ∈ events, (∃ x, e = .clockMs x) ∨
        ∃ x, e = .serialGet x) ∧ rxStep input u = .ok (r, s1) ∧
      rxWaitPull s = .ok (.stepped r s1) ∧
      ((r = .received ∧ Dispatched s1 t) ∨ (r = .broken ∧ t = s1.go .main) ∨
        (r = .notReceived ∧ t = s1))) := by
  unfold pollRxWait at h
  cases hp : rxWaitPull s with
  | error f => rw [hp] at h; cases h
  | ok p =>
    rcases rxWaitPull_cases hp with ⟨h1, h2, rfl⟩ | ⟨input, u, events, r, s1, h1, h2, h3, rfl⟩
    · rw [hp] at h; cases h; exact .inl ⟨h1, h2, rfl⟩
    · refine .inr ⟨input, u, events, r, s1, h1, h2, h3, rfl, ?_⟩
      rw [hp] at h
      cases r with
      | received => exact .inl ⟨rfl, dispatch_cases h⟩
      | broken => cases h; exact .inr (.inl ⟨rfl, rfl⟩)
      | notReceived => cases h; exact .inr (.inr ⟨rfl, rfl⟩)

/-- The receiving part of an `RX_WAIT` poll writes only the receiver, `buf`, the answers left and the
trace; a sector confirmed erased stays so. -/
theorem pulled_only {s u s1 : State} {events : List Event} {input : Option Byte} {r : RxResult}
    (h : Asked s u events) (h2 : rxStep input u = .ok (r, s1)) :
    s1.ctl = s.ctl ∧ s1.cfg = s.cfg ∧ s1.plain = s.plain ∧ s.env.Keeps s1.env ∧
      s1.tx = s.tx ∧ s1.caller = s.caller ∧ s1.result = s.result := by
  obtain ⟨env, h1, rfl⟩ := h
  obtain ⟨⟨a, b, c, d, e, f⟩, g⟩ := rxStep_only h2
  exact ⟨b, e, c, by rw [d]; exact h1, a, f, g⟩

/-- `ver_open` discards the staged chunk and touches no other register, no port and no flash (R192). -/
theorem verOpen_only (chunk : List Byte) (s : State) :
    (verOpen chunk s).2.ctl = { s.ctl with stagedValid := false } ∧
      (verOpen chunk s).2.env = s.env ∧ (verOpen chunk s).2.cfg = s.cfg ∧
      (verOpen chunk s).2.rx = s.rx ∧ (verOpen chunk s).2.caller = s.caller := by
  unfold verOpen
  cases openChunk s.cfg chunk <;> exact ⟨rfl, rfl, rfl, rfl, rfl⟩

end Sys2Proof.Machine
end

