-- ==== Sys2Proof/Tests/Slice0.lean ====
section
/-! SUPPORT. The author's own tests: the checks of WellFormed, decoding of words written out from
spec/30_encoding.md, single steps from the spec's vectors (95_test_vectors.md,
96_test_vectors_control.md), and for every statement with hypotheses a state that meets them. -/

namespace Sys2Proof.Tests

-- One theorem at a time: a thread for each kernel evaluation is more than the memory limit allows.
set_option Elab.async false

open Sys2Proof Sys2Proof.Machine

/-! ### Helpers -/

/-- The block after reset under a configuration, nothing known of its surroundings. -/
def under (c : Config) : State := State.resetWith c Env.unknown []

/-- The block after reset under REF4. -/
def st : State := under Config.ref4

/-- REF4 without checksums. -/
def noCrc : Config := { Config.ref4 with crcEnable := false }

/-- REF4 without the user-data region. -/
def noUd : Config := { Config.ref4 with hasUserData := false }

/-- REF4 in the strap variant that boots at once. -/
def strapCfg : Config :=
  { Config.ref4 with bootPolicy := .strap, strapAbsentPolicy := .bootIfValid }

/-- The receiver in the middle of the frame of `70 00` (T1). -/
def rxAt (p : RxPhase) (cnt : Word16) (ck ckrx : Word16) : State :=
  { st with
    rx := { state := p, esc := false, len := 2, cnt := cnt, ck := ck, ckrx := ckrx }
    buf := [(0, 0x70), (1, 0x00)] }

/-- The same with an escape pending. -/
def escaped (s : State) : State := { s with rx := { s.rx with esc := true } }

/-- The transmitter about to send from `7E 41` (X1), the sink's answers listed. -/
def txAt (p : TxPhase) (escSent : Bool) (idx : Word16) (answers : List Bool) : State :=
  { st with
    tx := { state := p, escSent := escSent, len := 2, idx := idx, ck := 0x1A1B }
    buf := [(0, 0x7E), (1, 0x41)]
    env := { Env.unknown with sinkReady := answers } }

/-- A session in a state of the control FSM: 08004000, 4 bytes, `DE AD BE EF` staged where
`staged` (96 section 9). -/
def session (p : CtlPhase) (activated valid update staged : Bool) : State :=
  { st with
    ctl := { CtlRegs.reset with
      state := p, activated := activated, firmwareValid := valid, updateInProgress := update,
      stagedValid := staged, stagedAddr := 0x08004000, stagedLen := 4 }
    plain := [(0, 0xDE), (1, 0xAD), (2, 0xBE), (3, 0xEF)] }

/-- The flash that FW_CHECK_TOY accepts. -/
def goodFlash : Memory :=
  [(0x08004000, 0xDE), (0x08004001, 0xAD), (0x08004002, 0xBE), (0x08004003, 0xEF)]

/-- A state with other surroundings. -/
def within (s : State) (env : Env) : State := { s with env := env }

/-- `A0 .. B7`, the nonce of 96 section 7. -/
def nonce : List Byte := (List.range 24).map fun i => 0xA0 + BitVec.ofNat 8 i

/-- A chunk of 96 section 7 whose tag counts up from `t`. -/
def chunkOf (head ct : List Byte) (t : Byte) : List Byte :=
  head ++ nonce ++ ct ++ (List.range 16).map fun i => t + BitVec.ofNat 8 i

/-- Chunk V1. -/
def v1 : List Byte := chunkOf [0x00, 0x40, 0x00, 0x08, 0x04] [0x84, 0xF7, 0xE4, 0xB5] 0x74

/-- Chunk V3: one byte past `APP_END`. -/
def v3 : List Byte := chunkOf [0xFD, 0xFF, 0x00, 0x08, 0x04] [0x84, 0xF7, 0xE4, 0xB5] 0x30

/-- Chunk V9: V1 with its last tag byte changed. -/
def v9 : List Byte := v1.dropLast ++ [0x82]

/-- Chunk V14. -/
def v14 : List Byte := chunkOf [0x08, 0x00, 0x00, 0x00, 0x04] [0x0A, 0x18, 0x6A, 0x6B] 0x17

/-- `ACTIVATE`'s signature. -/
def sig : List Byte := [0x41, 0x43, 0x54, 0x49, 0x56, 0x41, 0x54, 0x45]

/-- What a property says of the next state; false where the machine stops. -/
def next? (o : Outcome) (p : State → Bool) : Bool :=
  match o with
  | .next t => p t
  | .fault _ => false
  | .refused _ => false

/-- The frame on the line between `before` and now. -/
def sent (t : State) : List Byte := t.env.serialOut

/-- The packet handed to the transmitter. -/
def queuedPacket (t : State) : Option (List Byte) := (t.bufGetBytes 0 t.tx.len.toNat).toOption

/-! ### WellFormed: one ill-formed term for each check -/

/-- Whether a configuration is legal. -/
def legal (c : Config) : Bool := decide c.WF

theorem test_wf_configuration : legal Config.ref4 = true := by decide

theorem test_wf_configuration_refused :
    [({ Config.ref4 with esc := 0x7E } : Config), { Config.ref4 with cap := 65536 },
      { Config.ref4 with cap := 49 }, { Config.ref4 with p := 0 }, { Config.ref4 with p := 256 },
      { Config.ref4 with signature := [0x41] }, { Config.ref4 with ident := [] },
      { Config.ref4 with appEnd := 0x08004000 }, { Config.ref4 with appSectors := 0 },
      { Config.ref4 with udSectors := 0 }, { Config.ref4 with progressDoneBias := 2 }].all
      (fun c => !legal c) = true := by decide +kernel

theorem test_wf_commands_fit :
    let long : List Byte := List.replicate 256 0
    [Instr.cmdActivate long, .cmdBegin long, .cmdSend long, .cmdWrite long, .cmdEnd long,
      .cmdCheckCrc long, .cmdAppRun long, .cmdEraseUserData long, .cmdReserved 0x77 long].all
      (fun i => !i.wf Config.ref4) = true := by decide +kernel

theorem test_wf_erase_user_data_absent : (Instr.cmdEraseUserData []).wf noUd = false := by decide

theorem test_wf_reserved_assigned : (Instr.cmdReserved 0x74 []).wf Config.ref4 = false := by decide

theorem test_wf_response_opcode :
    (Instr.rspOk 0x77).wf Config.ref4 = false ∧ (Instr.rspFail 0x77).wf Config.ref4 = false ∧
      (Instr.rspPrecond 0x78).wf noUd = false := by decide

theorem test_wf_erase_fail :
    (Instr.rspEraseFail .app 3).wf Config.ref4 = false ∧
      (Instr.rspEraseFail .ud 0).wf noUd = false := by decide

theorem test_wf_progress :
    (Instr.evtProgress .app 2 0).wf Config.ref4 = false ∧
      (Instr.evtProgress .app 3 4).wf Config.ref4 = false ∧
      (Instr.evtProgress .ud 1 0).wf noUd = false := by decide

theorem test_wf_frame_length :
    (Instr.wireFrame (List.replicate 257 0)).wf Config.ref4 = false := by decide +kernel

theorem test_wf_escape_literal : (Instr.wireEsc 0x41).wf Config.ref4 = false := by decide

theorem test_wf_tx_begin : (Instr.opTxBegin 257).wf Config.ref4 = false := by decide

/-! ### Decoding: words written out from 30_encoding.md and 96 section 6 -/

theorem test_decode_frame_f1 :
    decode Config.ref4 .wire [0x7E, 0x02, 0x00, 0x70, 0x00, 0xF1, 0x61] =
      .ok (.wireFrame [0x70, 0x00]) := by decide +kernel

theorem test_decode_frame_f5_escaped_checksum :
    decode Config.ref4 .wire [0x7E, 0x01, 0x00, 0xFE, 0x7D, 0x7D, 0xF5] =
      .ok (.wireFrame [0xFE]) := by decide +kernel

theorem test_decode_frame_refused :
    decode Config.ref4 .wire [0x7E, 0x02, 0x00, 0x70, 0x00, 0xF0, 0x61] = .error .checksum ∧
      decode Config.ref4 .wire [0x7E, 0x02, 0x01, 0x70, 0x00, 0xF1, 0x61] = .error .oversize ∧
      decode Config.ref4 .wire [0x7E, 0x02, 0x00, 0x7D, 0x41] = .error .invalidEscape ∧
      decode Config.ref4 .wire [0x7E, 0x02, 0x7E] = .error .unexpectedStart := by decide +kernel

theorem test_decode_symbols :
    decode Config.ref4 .wire [0x7E] = .ok .wireStart ∧
      decode Config.ref4 .wire [0x7D, 0x7D] = .ok (.wireEsc 0x7D) := by decide

theorem test_decode_commands :
    decode Config.ref4 .cmd (0x70 :: sig) = .ok (.cmdActivate sig) ∧
      decode Config.ref4 .cmd [0x71] = .ok (.cmdBegin []) ∧
      decode Config.ref4 .cmd [0x72] = .ok (.cmdSend []) ∧
      decode Config.ref4 .cmd [0x73, 0xAA, 0xBB] = .ok (.cmdWrite [0xAA, 0xBB]) ∧
      decode Config.ref4 .cmd [0x74] = .ok (.cmdEnd []) ∧
      decode Config.ref4 .cmd [0x75] = .ok (.cmdCheckCrc []) ∧
      decode Config.ref4 .cmd [0x76] = .ok (.cmdAppRun []) ∧
      decode Config.ref4 .cmd [0x78] = .ok (.cmdEraseUserData []) ∧
      decode noUd .cmd [0x78] = .ok (.cmdReserved 0x78 []) ∧
      decode Config.ref4 .cmd [0x77] = .ok (.cmdReserved 0x77 []) ∧
      decode Config.ref4 .cmd [] = .error .emptyPacket := by decide

theorem test_decode_responses :
    decode Config.ref4 .rsp [0x70, 0x00] = .ok (.rspOk 0x70) ∧
      decode Config.ref4 .rsp [0x72, 0x01] = .ok (.rspFail 0x72) ∧
      decode Config.ref4 .rsp [0x73, 0x02] = .ok (.rspPrecond 0x73) ∧
      decode Config.ref4 .rsp [0x71, 0x01, 0x02, 0x00, 0x00, 0x00] =
        .ok (.rspEraseFail .app 2) ∧
      decode Config.ref4 .rsp [0x78, 0xFF, 0x01, 0x00, 0x00, 0x00, 0x00, 0x00, 0x00, 0x00] =
        .ok (.evtProgress .ud 1 0) ∧
      decode Config.ref4 .rsp [0x70, 0x03] = .error .badStatus := by decide

theorem test_decode_table_words :
    decodeTableWord 8 0x74 = some (.cmdEnd []) ∧
      decodeTableWord 8 0x77 = some (.cmdReserved 0x77 []) ∧
      decodeTableWord 8 0x00 = some (.rspOk 0) ∧ decodeTableWord 8 0x7E = some .wireStart ∧
      decodeTableWord 16 0x7E7D = some (.wireEsc 0x7E) := by decide +kernel

/-! ### Encoding: the frames of 95 section 3 and 96 section 6 -/

theorem test_encode_frame_f4 :
    encode Config.ref4 (.wireFrame [0x7E, 0x7D]) =
      [0x7E, 0x02, 0x00, 0x7D, 0x7E, 0x7D, 0x7D, 0xC4, 0xED] := by decide +kernel

theorem test_encode_event_frame :
    Config.ref4.frameBytes (encode Config.ref4 (.evtProgress .app 3 1)) =
      [0x7E, 0x0A, 0x00, 0x71, 0xFF, 0x03, 0x00, 0x00, 0x00, 0x01, 0x00, 0x00, 0x00,
        0x83, 0x1B] := by decide +kernel

theorem test_encode_erase_fail_frame :
    Config.ref4.frameBytes (encode Config.ref4 (.rspEraseFail .app 2)) =
      [0x7E, 0x06, 0x00, 0x71, 0x01, 0x02, 0x00, 0x00, 0x00, 0xF0, 0xF6] := by decide +kernel

/-! ### Single steps: the codec (95 sections 4 and 5) -/

/-- T1 row 2. -/
theorem test_rx_step_len_lo :
    next? (exec (.opRxStep (some 0x02)) (rxAt .lenLo 0 0xFFFF 0))
      (fun t => t.rx == { t.rx with state := .lenHi, len := 0x0002, ck := 0xC1B2 }) = true := by
  decide +kernel

/-- T7 row 3: `0101 = 257 > CAP`. -/
theorem test_rx_step_oversize :
    let s := { rxAt .lenHi 0 0xF1D1 0 with
      rx := { state := .lenHi, esc := false, len := 1, cnt := 0, ck := 0xF1D1, ckrx := 0 } }
    next? (exec (.opRxStep (some 0x01)) s) (fun t => t.result == .rx .broken &&
      t.rx.len == 0x0101 && t.rx.ck == 0x3E1F && t.rx.state == .waitStart) = true := by
  decide +kernel

theorem test_rx_begin :
    next? (exec .opRxBegin (escaped (rxAt .body 0 0 0)))
      (fun t => t.rx.state == .waitStart && !t.rx.esc && t.rx.len == 2) = true := by decide +kernel

/-- `tx_begin` of `70 00`: `CK = 61F1` (F1). -/
theorem test_tx_begin :
    next? (exec (.opTxBegin 2) (rxAt .waitStart 0 0 0))
      (fun t => t.tx == { state := .start, escSent := false, len := 2, idx := 0, ck := 0x61F1 }) =
      true := by decide +kernel

/-- R43: with and without checksums, unwritten bytes are refused. -/
theorem test_tx_begin_unwritten :
    exec (.opTxBegin 3) (rxAt .waitStart 0 0 0) = .refused (.packetUnwritten 3) ∧
      exec (.opTxBegin 3) { rxAt .waitStart 0 0 0 with cfg := noCrc } =
        .refused (.packetUnwritten 3) := ⟨rfl, rfl⟩

/-- X1 step 5: the prefix. -/
theorem test_tx_step_prefix :
    next? (exec .opTxStep (txAt .body false 0 [true]))
      (fun t => sent t == [0x7D] && t.tx.escSent && t.tx.idx == 0) = true := by decide +kernel

/-- X1 step 12: the last byte. -/
theorem test_tx_step_last :
    next? (exec .opTxStep (txAt .crcHi false 2 [true]))
      (fun t => sent t == [0x1A] && t.tx.state == .done && t.result == .tx .transmitted) =
      true := by decide +kernel

/-- F1. -/
theorem test_wire_frame :
    next? (exec (.wireFrame [0x70, 0x00]) st)
      (fun t => t.result == .rx .received && t.buf == [(0, 0x70), (1, 0x00)] && t.rx.len == 2) =
      true := by decide +kernel

/-- T6 row 5. -/
theorem test_wire_start :
    next? (exec .wireStart (rxAt .body 1 0xA0EC 0)) (fun t => t.result == .rx .broken &&
      t.rx.state == .waitStart && t.rx.ck == 0xA0EC) = true := by decide +kernel

/-- T2 rows 4 and 5. -/
theorem test_wire_esc :
    next? (exec (.wireEsc 0x7E) (rxAt .body 0 0x7B6D 0)) (fun t => t.rx.cnt == 1 &&
      t.rx.ck == 0x3DA5 && !t.rx.esc && t.buf == [(0, 0x7E), (1, 0x00)]) = true := by
  decide +kernel

/-! ### Single steps: the verifier (96 section 7) -/

/-- V1. -/
theorem test_ver_firmware_pass :
    next? (exec .opVerFirmware (st.bufPut (0x72 :: v1))) (fun t => t.result == .ver .pass &&
      t.ctl.stagedValid && t.ctl.stagedAddr == 0x08004000 && t.ctl.stagedLen == 4 &&
      t.plain.map (·.2) == [0xDE, 0xAD, 0xBE, 0xEF]) = true := by decide +kernel

/-- V9. -/
theorem test_ver_firmware_bad_tag :
    next? (exec .opVerFirmware ((session .main true false true true).bufPut (0x72 :: v9)))
      (fun t => t.result == .ver .fail && !t.ctl.stagedValid &&
        t.plain.map (·.2) == [0, 0, 0, 0]) = true := by decide +kernel

/-- V14. -/
theorem test_ver_identity_pass :
    next? (exec .opVerIdentity (st.bufPut (0x71 :: v14))) (fun t => t.result == .ver .pass &&
      !t.ctl.stagedValid && t.plain.map (·.2) == [0x50, 0x42, 0x30, 0x31]) = true := by
  decide +kernel

/-- V19. -/
theorem test_ver_identity_fail :
    next? (exec .opVerIdentity (st.bufPut (0x71 :: v1))) (fun t => t.result == .ver .fail) =
      true := by decide +kernel

/-! ### Single steps: the commands (96 section 9) -/

/-- Q12. -/
theorem test_activate :
    next? (exec (.cmdActivate sig) (session .rxWait false false false false)) (fun t =>
      t.ctl.activated && t.ctl.state == .sendResp && queuedPacket t == some [0x70, 0x00]) =
      true := by decide +kernel

/-- Q14. -/
theorem test_activate_wrong :
    next? (exec (.cmdActivate (sig.dropLast ++ [0x46])) (session .rxWait false false false false))
      (fun t => !t.ctl.activated && t.ctl.state == .main) = true := by decide +kernel

/-- Q42. -/
theorem test_begin_pass :
    next? (exec (.cmdBegin v14) (session .rxWait true true false true)) (fun t =>
      t.ctl.state == .begin && !t.ctl.stagedValid && t.ctl.firmwareValid) = true := by
  decide +kernel

/-- Q40. -/
theorem test_begin_wrong_length :
    next? (exec (.cmdBegin []) (session .rxWait true false true true)) (fun t =>
      queuedPacket t == some [0x71, 0x02] && t.ctl.stagedValid) = true := by decide +kernel

/-- Q36. -/
theorem test_send_pass :
    next? (exec (.cmdSend v1) (session .rxWait true false false false)) (fun t =>
      queuedPacket t == some [0x72, 0x00] && t.ctl.stagedValid) = true := by decide +kernel

/-- Q38. -/
theorem test_send_wrong_length :
    next? (exec (.cmdSend []) (session .rxWait true false true true)) (fun t =>
      queuedPacket t == some [0x72, 0x01] && !t.ctl.stagedValid) = true := by decide +kernel

/-- Q23. -/
theorem test_write_ok :
    next? (exec (.cmdWrite []) (within (session .rxWait true false true true)
      { Env.unknown with writeAnswer := [.ok] })) (fun t =>
        queuedPacket t == some [0x73, 0x00] && t.env.flash == goodFlash && !t.ctl.stagedValid) =
      true := by decide +kernel

/-- Q24: no `flash_write`. -/
theorem test_write_equal :
    next? (exec (.cmdWrite []) (within (session .rxWait true false true true)
      { Env.unknown with flash := goodFlash })) (fun t =>
        queuedPacket t == some [0x73, 0x00] &&
          t.trace == [.flashRead 0x08004000 [0xDE, 0xAD, 0xBE, 0xEF]]) = true := by decide +kernel

/-- Q27. -/
theorem test_end :
    next? (exec (.cmdEnd []) (session .rxWait true false true true)) (fun t =>
      queuedPacket t == some [0x74, 0x00] && !t.ctl.updateInProgress && t.ctl.stagedValid) =
      true := by decide +kernel

/-- Q31. -/
theorem test_check_crc_valid :
    next? (exec (.cmdCheckCrc []) (within (session .rxWait true false false false)
      { Env.unknown with flash := goodFlash })) (fun t =>
        queuedPacket t == some [0x75, 0x00] && t.ctl.firmwareValid) = true := by decide +kernel

/-- Q32. -/
theorem test_check_crc_invalid :
    next? (exec (.cmdCheckCrc []) (session .rxWait true true false false)) (fun t =>
      queuedPacket t == some [0x75, 0x01] && !t.ctl.firmwareValid) = true := by decide +kernel

/-- Q35. -/
theorem test_app_run :
    next? (exec (.cmdAppRun []) (within (session .rxWait true false false false)
      { Env.unknown with flash := goodFlash })) (fun t =>
        queuedPacket t == some [0x76, 0x00] && t.ctl.state == .appRun) = true := by decide +kernel

/-- Q33. -/
theorem test_app_run_refused :
    next? (exec (.cmdAppRun []) (session .rxWait true false true false)) (fun t =>
      queuedPacket t == some [0x76, 0x02] && t.trace == [.raised .precondition]) = true := by
  decide +kernel

/-- Q43, its first step. -/
theorem test_erase_user_data :
    next? (exec (.cmdEraseUserData []) (session .rxWait true true true true)) (fun t =>
      t.ctl.state == .userDataClear && t.ctl.eraseIdx == 0 && t.ctl.eraseOp == 0x78) = true := by
  decide +kernel

/-- Q18. -/
theorem test_reserved :
    next? (exec (.cmdReserved 0x77 []) (session .rxWait true false false false)) (fun t =>
      t.ctl.state == .main && t.tx.state == .done && t.trace == []) = true := by decide +kernel

/-! ### Single steps: packets sent, reset, polls -/

theorem test_responses :
    next? (exec (.rspOk 0x70) st) (fun t => t.tx.ck == 0x61F1) = true ∧
      next? (exec (.rspFail 0x73) st) (fun t => t.tx.ck == 0x2483) = true ∧
      next? (exec (.rspPrecond 0x76) st) (fun t => t.tx.ck == 0xEB15) = true ∧
      next? (exec (.rspEraseFail .ud 0) st) (fun t => t.tx.ck == 0x537A && t.tx.len == 6) = true ∧
      next? (exec (.evtProgress .app 3 2) st) (fun t => t.tx.ck == 0x805F &&
        t.ctl.state == .sendEventFlashClear) = true := by decide +kernel

theorem test_reset :
    next? (exec .opReset (session .sendResp true true true true)) (fun t => t == st) = true := by
  decide +kernel

/-- P1, poll 1. -/
theorem test_poll_init :
    next? (step (within st { Env.unknown with clock := [1000] })) (fun t =>
      t.ctl.state == .main && t.ctl.tBoot == 1000 && !t.ctl.firmwareValid &&
        t.trace == [.fwCheck false, .clockMs 1000]) = true := by decide +kernel

/-- P1, poll 17: the command of the received packet runs. -/
theorem test_poll_activate :
    next? (step ((session .rxWait false false false false).withNext (.cmdActivate sig)))
      (fun t => t.ctl.state == .sendResp && t.ctl.activated && t.rx.state == .waitStart &&
        queuedPacket t == some [0x70, 0x00]) = true := by decide +kernel

/-! ### Witnesses: for each statement with hypotheses, states and operands that meet them -/

/-- An outcome of which `next?` is true is a next state with the property. -/
theorem next?_exists {o : Outcome} {p : State → Bool} (h : next? o p = true) :
    ∃ t, o = .next t ∧ p t = true := by
  cases o with
  | next t => exact ⟨t, rfl, h⟩
  | fault f => cases h
  | refused r => cases h

/-- An outcome that goes on, as a witness of `∃ t, o = .next t`. -/
theorem next?_some {o : Outcome} (h : next? o (fun _ => true) = true) : ∃ t, o = .next t :=
  (next?_exists h).imp fun _ ht => ht.1

/-- The session in `RX_WAIT` with the last byte of the frame of `[op]` next (96 section 6). -/
def awaiting (s : State) (op last : Byte) (ck : Word16) : State :=
  { s with
    rx := { state := .crcHi, esc := false, len := 1, cnt := 1, ck := ck, ckrx := zext16 (lo8 ck) }
    buf := [(0, op)]
    env := { s.env with serialIn := [some last] } }

/-- `WRITE` about to be received by a session that may write. -/
def writing : State :=
  awaiting (within (session .rxWait true false true true)
    { Env.unknown with writeAnswer := [.ok], confirmed := [(.app, 0), (.ud, 1)] }) 0x73 0xB5 0xB558

/-- The application's erase sequence at its last sector. -/
def clearing : State :=
  { session .flashClear true false false false with
    ctl := { CtlRegs.reset with
      state := .flashClear, activated := true, eraseIdx := 2, eraseOp := 0x71 }
    env := { Env.unknown with sectorErased := [false, true], eraseEffect := [[]] } }

/-- The block after its first poll. -/
def inMain : State :=
  { st with ctl := { CtlRegs.reset with state := .main, tBoot := 1000 } }

theorem inMain_invariant : Invariant inMain where
  cfg := by decide
  caller := rfl
  rx := rfl
  tx := rfl
  buf := by decide
  plain := by decide
  flash := by decide
  gate := by decide
  update := by decide
  sending := by decide
  receiving := by decide
  staged := fun h => by cases h
  handoff := by decide
  init := by decide
  erasing := by intro r sends h; cases h
  running := by decide
  entered := by decide

theorem writing_invariant : Invariant writing where
  cfg := by decide
  caller := rfl
  rx := ⟨rfl, by decide, ⟨0x58, by decide⟩, [0x73], rfl, rfl, by decide +kernel⟩
  tx := rfl
  buf := by decide
  plain := by decide
  flash := by decide
  gate := by decide
  update := by decide
  sending := by decide
  receiving := by decide
  staged := fun _ => ⟨by decide, by decide, by decide, by decide, [0xDE, 0xAD, 0xBE, 0xEF], rfl⟩
  handoff := by decide
  init := by decide
  erasing := by intro r sends h; cases h
  running := by decide
  entered := by decide

theorem clearing_invariant : Invariant clearing where
  cfg := by decide
  caller := rfl
  rx := rfl
  tx := rfl
  buf := by decide
  plain := by decide
  flash := by decide
  gate := by decide
  update := by decide
  sending := by decide
  receiving := by decide
  staged := fun h => by cases h
  handoff := by decide
  init := by decide
  erasing := by intro r sends h; cases h; decide
  running := by decide
  entered := by decide

theorem witness_DecodeEncode :
    Config.ref4.WF ∧
      ∀ i ∈ [Instr.wireFrame (List.replicate 256 0x7E), .wireEsc 0x7D, .wireStart,
          .cmdActivate (List.replicate 255 0), .cmdEraseUserData [], .cmdReserved 0xFF [],
          .rspEraseFail .app 2, .evtProgress .ud 1 1],
        i.wf Config.ref4 = true ∧ i.format ≠ .op := by
  exact ⟨by decide, by decide +kernel⟩

theorem witness_EncodeDecode :
    Config.ref4.WF ∧ decode Config.ref4 .cmd [0x00] = .ok (.cmdReserved 0x00 []) ∧
      decode Config.ref4 .rsp [0x78, 0x00] = .ok (.rspOk 0x78) ∧
      decode Config.ref4 .wire [0x7E, 0x00, 0x00, 0x0F, 0x1D] = .ok (.wireFrame []) := by
  exact ⟨by decide, by decide +kernel⟩

theorem witness_EscapeLossless :
    Config.ref4.start ≠ Config.ref4.esc ∧ Config.ref4.reserved 0x7D = true ∧
      Config.ref4.reserved 0x7E = true ∧ Config.ref4.reserved 0x7C = false ∧
      Config.ref4.reserved 0x7F = false := by decide

theorem witness_StepRunsNext_caller :
    st.cfg.WF ∧ ({ st with caller := [.opReset] } : State).caller = [.opReset] := by
  exact ⟨by decide, rfl⟩

theorem witness_StepRunsNext_command :
    ∃ s1 bytes i, writing.cfg.WF ∧ writing.caller = [] ∧ writing.ctl.state = .rxWait ∧
      rxWaitPull writing = .ok (.stepped .received s1) ∧
      s1.bufGetBytes 0 s1.rx.len.toNat = .ok bytes ∧ decode s1.cfg .cmd bytes = .ok i :=
  ⟨_, _, _, by decide, rfl, rfl, rfl, rfl, rfl⟩

theorem witness_StepPolls : st.cfg.WF ∧ st.caller = [] := by exact ⟨by decide, rfl⟩

theorem witness_SmallBufferRefused :
    (under { Config.ref4 with cap := 49 }).cfg.cap <
        46 + (under { Config.ref4 with cap := 49 }).cfg.p ∧
      (under { Config.ref4 with cap := 9 }).cfg.cap < 10 := by decide

theorem witness_InvAtReset : Config.ref4.WF ∧ Memory.wf goodFlash := by exact ⟨by decide, by decide⟩

theorem witness_RxBegin : st.rx.state = .waitStart ∧ st.rx.esc = false := by decide

theorem witness_RxBegin_after_result :
    (∃ t, exec (.opRxStep (some 0x61)) (rxAt .crcHi 2 0x61F1 0xF1) = .next t ∧
      (t.result == .rx .received) = true) ∧
    (∃ t, exec (.opRxStep (some 0x60)) (rxAt .crcHi 2 0x61F1 0xF1) = .next t ∧
      (t.result == .rx .broken) = true) :=
  ⟨next?_exists (by decide +kernel), next?_exists (by decide +kernel)⟩

theorem witness_RxIdle : st.rx.state = .waitStart := by decide

theorem witness_RxClassified :
    st.cfg.start ≠ st.cfg.esc ∧ (rxAt .body 1 0xDC6B 0).rx.state ≠ .waitStart ∧
      (rxAt .body 1 0xDC6B 0).rx.esc = false ∧ (escaped (rxAt .crcHi 2 0x61F1 0)).rx.esc = true ∧
      (0x7F : Byte) ≠ st.cfg.start ∧ (0x7C : Byte) ≠ st.cfg.esc := by decide

/-- The receiver after the first length literal, `lo`. -/
def lenHiAt (c : Config) (lo : Byte) : State :=
  { under c with rx := { RxRegs.reset with state := .lenHi, len := zext16 lo } }

theorem witness_RxLength :
    (rxAt .lenLo 0 0xFFFF 0).rx.state = .lenLo ∧ (rxAt .lenLo 0 0xFFFF 0).Literal 0x02 ∧
      (escaped (rxAt .lenLo 0 0xFFFF 0)).Literal 0x7D ∧
      (lenHiAt Config.ref4 1).rx.state = .lenHi ∧ (lenHiAt Config.ref4 1).Literal 0x01 ∧
      Config.ref4.cap < (unLe16 (lo8 (lenHiAt Config.ref4 1).rx.len) 0x01).toNat ∧
      (unLe16 (lo8 (lenHiAt Config.ref4 0).rx.len) 0x01).toNat = Config.ref4.cap ∧
      (unLe16 (lo8 (lenHiAt Config.ref4 1).rx.len) 0x00).toNat = 1 ∧
      (unLe16 (lo8 (lenHiAt Config.ref4 0).rx.len) 0x00).toNat = 0 ∧
      Config.ref4.crcEnable = true ∧ (lenHiAt noCrc 0).cfg.crcEnable = false := by
  unfold State.Literal
  decide

/-- The receiver at the last byte of a full buffer. -/
def lastOfFull : State :=
  { st with rx := { RxRegs.reset with state := .body, len := 256, cnt := 255 } }

theorem witness_RxBody :
    (rxAt .body 0 0x7B6D 0).rx.state = .body ∧ (rxAt .body 0 0x7B6D 0).Literal 0x70 ∧
      (rxAt .body 0 0x7B6D 0).rx.cnt.toNat < (rxAt .body 0 0x7B6D 0).rx.len.toNat ∧
      (rxAt .body 1 0xDC6B 0).rx.cnt.toNat + 1 = (rxAt .body 1 0xDC6B 0).rx.len.toNat ∧
      lastOfFull.Literal 0xAA ∧ lastOfFull.rx.cnt.toNat < lastOfFull.rx.len.toNat ∧
      lastOfFull.rx.len.toNat ≤ lastOfFull.cfg.cap := by
  unfold State.Literal
  decide

theorem witness_RxChecksum :
    (rxAt .crcLo 2 0x61F1 0).Literal 0xF1 ∧ (rxAt .crcHi 2 0x61F1 0xF1).Literal 0x61 ∧
      unLe16 (lo8 (rxAt .crcHi 2 0x61F1 0xF1).rx.ckrx) 0x61 = (rxAt .crcHi 2 0x61F1 0xF1).rx.ck ∧
      (rxAt .crcHi 2 0x61F1 0xF1).Literal 0x60 ∧
      unLe16 (lo8 (rxAt .crcHi 2 0x61F1 0xF1).rx.ckrx) 0x60 ≠
        (rxAt .crcHi 2 0x61F1 0xF1).rx.ck := by
  unfold State.Literal
  decide

theorem witness_RxFrame :
    (∃ t, exec (.opRxStep (some 0x70)) (rxAt .body 0 0x7B6D 0) = .next t) ∧
      (∃ t, exec (.opRxStep (some 0x60)) (rxAt .crcHi 2 0x61F1 0xF1) = .next t) :=
  ⟨next?_some (by decide +kernel), next?_some (by decide +kernel)⟩

theorem witness_RxCompletes :
    (lastOfFull.rx.state = .body → lastOfFull.rx.cnt.toNat < lastOfFull.cfg.cap) ∧
      (rxAt .body 256 0 0).rx.state = .body ∧ (rxAt .body 256 0 0).Literal 0x00 ∧
      (rxAt .body 256 0 0).cfg.cap ≤ (rxAt .body 256 0 0).rx.cnt.toNat := by
  unfold State.Literal
  decide

theorem witness_RxReceivesFrame :
    let inputs : List (Option Byte) :=
      [some 0x7E, none, some 0x02, some 0x00, some 0x70, none, none, some 0x00, some 0xF1,
        some 0x61]
    st.cfg.start ≠ st.cfg.esc ∧ st.cfg.cap ≤ 65535 ∧
      ([0x70, 0x00] : List Byte).length ≤ st.cfg.cap ∧ st.rx.state = .waitStart ∧
      inputs.reduceOption = st.cfg.frameBytes [0x70, 0x00] ∧ inputs.getLast? ≠ some none ∧
      0 < 9 ∧ 9 < inputs.length := by decide +kernel

/-- FRAME inside a frame: its marker breaks the one in progress (R126), and the rest is dropped by
the idle receiver (R121). -/
theorem test_wire_frame_inside_frame :
    next? (exec (.wireFrame [0x74]) (rxAt .body 1 0xA0EC 0))
      (fun t => t.rx.state == .waitStart && t.trace == [.raised .framingUnexpectedStart] &&
        t.buf == [(0, 0x70), (1, 0x00)]) = true := by decide +kernel

theorem witness_WireFrame :
    (rxAt .body 1 0xA0EC 0).rx.state ≠ .waitStart ∧ st.cfg.start ≠ st.cfg.esc ∧ st.cfg.cap ≤ 65535 ∧
      (List.replicate 256 (0xAA : Byte)).length ≤ st.cfg.cap ∧ st.rx.state = .waitStart := by
  decide +kernel

theorem witness_WireStart :
    st.rx.state = .waitStart ∧ (rxAt .lenLo 0 0xFFFF 0).rx.state ≠ .waitStart ∧
      (rxAt .lenLo 0 0xFFFF 0).rx.esc = false ∧ st.cfg.start ≠ st.cfg.esc ∧
      (escaped (rxAt .crcHi 2 0x61F1 0xF1)).rx.esc = true := by decide

theorem witness_WireEsc :
    st.cfg.start ≠ st.cfg.esc ∧ st.cfg.reserved 0x7D = true ∧ st.cfg.reserved 0x7E = true ∧
      (lastOfFull.rx.state = .body → lastOfFull.rx.cnt.toNat < lastOfFull.cfg.cap) ∧
      lastOfFull.rx.state ≠ .waitStart ∧ lastOfFull.rx.esc = false ∧ st.rx.state = .waitStart ∧
      (escaped lastOfFull).rx.esc = true ∧
      ((escaped lastOfFull).rx.state = .body →
        (escaped lastOfFull).rx.cnt.toNat < lastOfFull.cfg.cap) := by
  decide

theorem witness_RxResynchronizes :
    st.cfg.start ≠ st.cfg.esc ∧ st.cfg.cap ≤ 65535 ∧
      ([0x74] : List Byte).length ≤ st.cfg.cap ∧ (rxAt .body 1 0xA0EC 0).rx.state ≠ .waitStart ∧
      (rxAt .body 1 0xA0EC 0).rx.esc = false ∧ st.cfg.start ∉ ([0x7D, 0x11] : List Byte) := by
  decide

theorem witness_RxSound :
    (rxAt .crcHi 2 0x61F1 0xF1).cfg.cap ≤ 65535 ∧ (rxAt .crcHi 2 0x61F1 0xF1).RxOk ∧
      ∃ t, exec (.opRxStep (some 0x61)) (rxAt .crcHi 2 0x61F1 0xF1) = .next t ∧
        (t.result == .rx .received) = true :=
  ⟨by decide, ⟨rfl, by decide, ⟨0xF1, by decide⟩, [0x70, 0x00], rfl, rfl, by decide +kernel⟩,
    next?_exists (by decide +kernel)⟩

theorem witness_TxBegin :
    256 ≤ st.cfg.cap ∧ st.cfg.cap ≤ 65535 ∧
      (st.bufPut (List.replicate 256 0xAA)).holds (List.replicate 256 0xAA) ∧
      ((under noCrc).bufPut [0x74]).holds [0x74] ∧
      (under noCrc).cfg.crcEnable = false := by
  unfold State.holds
  decide +kernel

theorem witness_TxMarkerAndDone :
    (txAt .start false 0 [true]).tx.state = .start ∧
      (txAt .start false 0 [true]).env.sinkReady = [true] ∧
      (txAt .start false 0 [false]).env.sinkReady = [false] ∧ st.tx.state = .done := by decide

theorem witness_TxBusy :
    (txAt .body false 0 [false]).logicalByte = some 0x7E ∧
      (txAt .body true 0 [false]).logicalByte = some 0x7E ∧
      (txAt .body false 1 [false]).logicalByte = some 0x41 ∧
      (txAt .body false 1 [false]).env.sinkReady = [false] ∧
      (txAt .start false 0 [false]).tx.state ≠ .done ∧
      (next? (exec .opTxStep (txAt .start false 0 [false])) fun _ => true) = true := by
  decide +kernel

theorem witness_TxAccepted :
    (txAt .body false 0 [true]).logicalByte = some 0x7E ∧ st.cfg.reserved 0x7E = true ∧
      (txAt .body false 0 [true]).tx.escSent = false ∧
      (txAt .body true 0 [true]).logicalByte = some 0x7E ∧
      (txAt .body true 0 [true]).tx.escSent = true ∧
      (txAt .body false 1 [true]).logicalByte = some 0x41 ∧ st.cfg.reserved 0x41 = false ∧
      (txAt .body false 1 [true]).tx.idx + 1 = (txAt .body false 1 [true]).tx.len ∧
      (txAt .lenLo false 0 [true]).logicalByte = some 0x02 ∧
      (txAt .lenHi false 0 [true]).logicalByte = some 0x00 ∧
      (txAt .crcLo false 2 [true]).logicalByte = some 0x1B ∧
      (txAt .crcHi false 2 [true]).logicalByte = some 0x1A ∧
      (txAt .crcHi false 2 [true]).env.sinkReady = [true] := by decide +kernel

theorem witness_TxCompletes :
    (txAt .body false 2 []).tx.state = .body ∧
      (txAt .body false 2 []).bufGet (txAt .body false 2 []).tx.idx.toNat =
        .error (.bufUnwritten 2) ∧
      (txAt .body false 256 []).bufGet (txAt .body false 256 []).tx.idx.toNat =
        .error (.bufIndex 256) ∧
      (txAt .body false 1 []).bufGet (txAt .body false 1 []).tx.idx.toNat = .ok 0x41 ∧
      st.tx.state = .done := by decide

theorem witness_TxSendsFrame :
    let answers := [true, false, true, true, true, false, false, true, false, true, true, true]
    let s := txAt .done false 0 answers
    s.cfg.cap ≤ 65535 ∧ ([0x7E, 0x41] : List Byte).length ≤ s.cfg.cap ∧ s.holds [0x7E, 0x41] ∧
      s.env.sinkReady = answers ++ [] ∧
      answers.count true = (s.cfg.frameBytes [0x7E, 0x41]).length ∧
      answers.getLast? = some true := by
  unfold State.holds
  decide +kernel

theorem identity_passes_v14 : IdentityPasses Config.ref4 v14 :=
  ⟨[0x50, 0x42, 0x30, 0x31], by decide +kernel, by decide +kernel, by decide +kernel, rfl⟩

theorem identity_fails_v1 : ¬IdentityPasses Config.ref4 v1 :=
  fun ⟨_, _, _, h, _⟩ => absurd h (by decide +kernel)

theorem firmware_passes_v1 : FirmwarePasses Config.ref4 v1 :=
  ⟨⟨[0xDE, 0xAD, 0xBE, 0xEF], by decide +kernel⟩, by decide +kernel⟩

theorem firmware_fails_v3 : ¬FirmwarePasses Config.ref4 v3 :=
  fun ⟨_, _, _, _, h⟩ => absurd h (by decide +kernel)

theorem witness_VerIdentity :
    st.bufGetBytes 1 (45 + st.cfg.p) = .error (.bufUnwritten 1) ∧
      (st.bufPut (0x71 :: v14)).bufGetBytes 1 (45 + st.cfg.p) = .ok v14 ∧
      IdentityPasses Config.ref4 v14 ∧
      (st.bufPut (0x71 :: v1)).bufGetBytes 1 (45 + st.cfg.p) = .ok v1 ∧
      ¬IdentityPasses Config.ref4 v1 :=
  ⟨by decide, by decide +kernel, identity_passes_v14, by decide +kernel, identity_fails_v1⟩

theorem witness_VerFirmware :
    st.bufGetBytes 1 (45 + st.cfg.p) = .error (.bufUnwritten 1) ∧
      (st.bufPut (0x72 :: v1)).bufGetBytes 1 (45 + st.cfg.p) = .ok v1 ∧
      FirmwarePasses Config.ref4 v1 ∧
      (st.bufPut (0x72 :: v3)).bufGetBytes 1 (45 + st.cfg.p) = .ok v3 ∧
      ¬FirmwarePasses Config.ref4 v3 :=
  ⟨by decide, by decide +kernel, firmware_passes_v1, by decide +kernel, firmware_fails_v3⟩

theorem witness_GateDrops :
    st.ctl.activated = false ∧
      ∀ i ∈ [Instr.cmdBegin v14, .cmdSend v1, .cmdWrite [], .cmdEnd [], .cmdCheckCrc [],
          .cmdAppRun [], .cmdEraseUserData [], .cmdReserved 0x77 []],
        i.format = .cmd ∧ i ≠ .cmdActivate [] := by decide +kernel

theorem witness_GateDrops_not_activate : ∀ args, Instr.cmdEnd [] ≠ .cmdActivate args :=
  fun _ h => by cases h

theorem witness_Activate :
    st.cfg.signature.length = 8 ∧ sig = st.cfg.signature ∧ sig.dropLast ++ [0x46] ≠ sig ∧
      sig ++ [0x00] ≠ st.cfg.signature := by decide

/-- An activated session with nothing staged. -/
def active : State := session .rxWait true false false false

theorem witness_Begin :
    active.ctl.activated = true ∧ v14.length = 45 + active.cfg.p ∧
      IdentityPasses active.cfg v14 ∧ v1.length = 45 + active.cfg.p ∧
      ¬IdentityPasses active.cfg v1 ∧ (v14 ++ [0]).length ≠ 45 + active.cfg.p :=
  ⟨rfl, by decide +kernel, identity_passes_v14, by decide +kernel, identity_fails_v1,
    by decide +kernel⟩

theorem witness_Send :
    active.ctl.activated = true ∧ v1.length = 45 + active.cfg.p ∧
      FirmwarePasses active.cfg v1 ∧ v3.length = 45 + active.cfg.p ∧
      ¬FirmwarePasses active.cfg v3 ∧ (v1 ++ [0]).length ≠ 45 + active.cfg.p :=
  ⟨rfl, by decide +kernel, firmware_passes_v1, by decide +kernel, firmware_fails_v3,
    by decide +kernel⟩

/-- A session that may write, its staged range running past the address space. -/
def stagedHigh : State :=
  { session .rxWait true false true true with
    ctl := { (session .rxWait true false true true).ctl with
      stagedAddr := 0xFFFFFFFF, stagedLen := 2 } }

theorem witness_Write :
    let s := session .rxWait true false true true
    let unwritten := { s with plain := [(0, 0xDE)] }
    s.ctl.activated = true ∧ s.ctl.updateInProgress = true ∧ s.ctl.stagedValid = true ∧
      flashSize < stagedHigh.ctl.stagedAddr.toNat + stagedHigh.ctl.stagedLen.toNat ∧
      s.ctl.stagedAddr.toNat + s.ctl.stagedLen.toNat ≤ flashSize ∧
      unwritten.plainGetBytes 0 unwritten.ctl.stagedLen.toNat = .error (.plainUnwritten 1) ∧
      Memory.wf s.env.flash ∧ Memory.wf goodFlash ∧
      s.plainGetBytes 0 s.ctl.stagedLen.toNat = .ok [0xDE, 0xAD, 0xBE, 0xEF] ∧
      flashGetBytes goodFlash s.ctl.stagedAddr.toNat s.ctl.stagedLen.toNat =
        [0xDE, 0xAD, 0xBE, 0xEF] ∧
      flashGetBytes s.env.flash s.ctl.stagedAddr.toNat s.ctl.stagedLen.toNat ≠
        [0xDE, 0xAD, 0xBE, 0xEF] ∧
      (within s { Env.unknown with writeAnswer := [.ok] }).env.writeAnswer = .ok :: [] ∧
      (within s { Env.unknown with writeAnswer := [.fail []] }).env.writeAnswer = .fail [] :: [] := by
  decide +kernel

theorem witness_WriteRefused :
    (session .rxWait true false false true).ctl.activated = true ∧
      (session .rxWait true false false true).ctl.updateInProgress = false ∧
      (session .rxWait true false true false).ctl.activated = true ∧
      (session .rxWait true false true false).ctl.stagedValid = false := by decide

theorem witness_EndCommand : active.ctl.activated = true := by decide

theorem witness_CheckCrc :
    active.ctl.activated = true ∧ active.ctl.updateInProgress = false ∧
      (session .rxWait true false true false).ctl.activated = true ∧
      (session .rxWait true false true false).ctl.updateInProgress = true := by decide

theorem witness_AppRun :
    active.ctl.activated = true ∧ active.ctl.updateInProgress = false ∧
      fwCheckValue active.cfg active.env.flash = false ∧
      fwCheckValue active.cfg goodFlash = true ∧
      (session .rxWait true false true false).ctl.activated = true ∧
      (session .rxWait true false true false).ctl.updateInProgress = true := by decide +kernel

theorem witness_EraseUserData :
    active.ctl.activated = true ∧ active.cfg.hasUserData = true ∧
      ({ active with cfg := noUd } : State).ctl.activated = true ∧
      ({ active with cfg := noUd } : State).cfg.hasUserData = false := by decide

/-- The empty packet about to be received (T3). -/
def awaitingEmpty : State :=
  { active with
    rx := { state := .crcHi, esc := false, len := 0, cnt := 0, ck := 0x1D0F, ckrx := 0x0F }
    env := { Env.unknown with serialIn := [some 0x1D] } }

theorem witness_UnknownDropped :
    awaitingEmpty.ctl.state = .rxWait ∧
      ∃ s1, rxWaitPull awaitingEmpty = .ok (.stepped .received s1) ∧ s1.rx.len = 0 :=
  ⟨rfl, _, rfl, rfl⟩

/-- Surroundings with one answer listed for every port. -/
def answering : Env :=
  { Env.unknown with
    serialIn := [none], sinkReady := [false], txEmpty := [true], sectorErased := [true]
    eraseEffect := [[]], writeAnswer := [.fail []], clock := [3000], strap := [true] }

theorem witness_PortAnswers :
    answering.serialIn = none :: [] ∧ answering.sinkReady = false :: [] ∧
      answering.clock = 3000 :: [] ∧ answering.strap = true :: [] ∧
      answering.txEmpty = true :: [] ∧ answering.writeAnswer = .fail [] :: [] ∧
      answering.sectorErased = true :: [] ∧ answering.eraseEffect = [] :: [] ∧
      (0xFFFFFFFC : Word32).toNat + 4 ≤ flashSize ∧ (Region.app, 0) ∈ writing.env.confirmed ∧
      (Region.app, 1) ∉ answering.confirmed := by decide

/-- R69: a confirmed sector answers true and takes no answer; any other takes the listed one. -/
theorem test_sectorErased_confirmed :
    let s := within st { answering with sectorErased := [false, true], confirmed := [(.app, 0)] }
    (s.sectorErased .app 0).1 = true ∧ (s.sectorErased .app 0).2.env = s.env ∧
      (s.sectorErased .app 1).1 = false ∧ (s.sectorErased .app 1).2.env.sectorErased = [true] := by
  decide

/-- U9: a write leaves no application sector confirmed. -/
theorem test_write_unconfirms :
    next? (step writing) (fun t => t.env.confirmed == [(.ud, 1)] && t.env.writeAnswer == []) =
      true := by decide +kernel

theorem witness_PollInit :
    st.ctl.state = .init ∧ st.cfg.bootPolicy = .timer ∧ (under strapCfg).ctl.state = .init ∧
      (under strapCfg).cfg.bootPolicy = .strap := by decide

theorem witness_PollQuiet :
    inMain.ctl.state = .main ∧ (session .begin true true true true).ctl.state = .begin ∧
      (session .handoff false true false false).ctl.state = .handoff := by decide

/-- A valid application waiting to be booted, the clock listed. -/
def bootWait (clock : Word32) (input : Option Byte) : State :=
  within (session .rxWait false true false false)
    { Env.unknown with clock := [clock], serialIn := [input] }

theorem witness_PollRxWait_auto_boot :
    let s := bootWait 3000 none
    s.ctl.state = .rxWait ∧ s.cfg.bootPolicy = .timer ∧ s.ctl.activated = false ∧
      s.ctl.firmwareValid = true ∧ s.cfg.tBoot ≤ s.now.1 - s.ctl.tBoot := by decide

theorem witness_PollRxWait_one_byte :
    (bootWait 2999 none).now.1 - (bootWait 2999 none).ctl.tBoot < (bootWait 2999 none).cfg.tBoot ∧
      (∃ r s1, rxStep (bootWait 2999 none).now.2.serialGet.1
        (bootWait 2999 none).now.2.serialGet.2 = .ok (r, s1) ∧ r = .notReceived) ∧
      (∃ s1, rxStep (awaiting active 0x74 0xC5 0xC5BF).serialGet.1
        (awaiting active 0x74 0xC5 0xC5BF).serialGet.2 = .ok (.received, s1)) ∧
      (∃ s1, rxStep (awaiting active 0x74 0xC4 0xC5BF).serialGet.1
        (awaiting active 0x74 0xC4 0xC5BF).serialGet.2 = .ok (.broken, s1)) :=
  ⟨by decide, ⟨_, _, rfl, rfl⟩, ⟨_, rfl⟩, ⟨_, rfl⟩⟩

/-- A packet whose only byte stands nowhere. -/
def awaitingUnwritten : State := { awaiting active 0x74 0xC5 0xC5BF with buf := [] }

/-- A payload byte that does not fit. -/
def awaitingBeyond : State :=
  within { active with rx := (rxAt .body 256 0 0).rx } { Env.unknown with serialIn := [some 0] }

theorem witness_PollRxWait_stops :
    (∃ s1, rxStep awaitingUnwritten.serialGet.1 awaitingUnwritten.serialGet.2 =
        .ok (.received, s1) ∧
      s1.bufGetBytes 0 s1.rx.len.toNat = .error (.bufUnwritten 0)) ∧
      rxStep awaitingBeyond.serialGet.1 awaitingBeyond.serialGet.2 = .error (.bufIndex 256) :=
  ⟨⟨_, rfl, rfl⟩, rfl⟩

/-- The erase sequence of the application at a sector, the queries' answers listed. -/
def erasingAt (k : Word32) (answers : List Bool) : State :=
  { clearing with
    ctl := { clearing.ctl with eraseIdx := k }
    env := { Env.unknown with sectorErased := answers, eraseEffect := [[]] } }

theorem witness_PollErase :
    (erasingAt 3 []).ctl.state = .flashClear ∧
      (erasingAt 3 []).ctl.eraseIdx.toNat = Config.ref4.sectors .app ∧
      (erasingAt 2 [true]).ctl.eraseIdx.toNat < Config.ref4.sectors .app ∧
      ((erasingAt 2 [true]).sectorErased .app 2).1 = true ∧
      ((erasingAt 0 [false, true]).sectorErased .app 0).1 = false ∧
      ((((erasingAt 0 [false, true]).sectorErased .app 0).2.sectorErase .app 0).sectorErased
        .app 0).1 = true ∧
      ((((erasingAt 0 [false, false]).sectorErased .app 0).2.sectorErase .app 0).sectorErased
        .app 0).1 = false := by decide +kernel

/-- A delaying state armed at `FFFFFFFE` (M4, M5). -/
def delaying (p : CtlPhase) (sub : CtlSub) (clock : Word32) : State :=
  { session p true true false false with
    ctl := { CtlRegs.reset with state := p, sub := sub, tResp := 0xFFFFFFFE }
    env := { Env.unknown with clock := [clock] } }

theorem witness_PollDelays :
    (∀ p ∈ [CtlPhase.sendResp, .sendEventFlashClear, .sendEventUserDataClear, .appRun],
      (delaying p .enter 0).ctl.state = p ∧ (delaying p .enter 0).ctl.sub = .enter ∧
      (delaying p .poll 2).ctl.sub = .poll ∧
      (delaying p .poll 2).now.1 - (delaying p .poll 2).ctl.tResp < st.cfg.tRespDelay ∧
      st.cfg.tRespDelay ≤ (delaying p .poll 3).now.1 - (delaying p .poll 3).ctl.tResp) ∧
    (delaying .appRun2 .poll 97).now.1 - (delaying .appRun2 .poll 97).ctl.tResp < st.cfg.tSettle ∧
    st.cfg.tSettle ≤
      (delaying .appRun2 .poll 98).now.1 - (delaying .appRun2 .poll 98).ctl.tResp := by
  decide +kernel

/-- A transmitting state at the last byte, the sink's answer listed. -/
def transmitting (p : CtlPhase) (accepts : Bool) : State :=
  { txAt .crcHi false 2 [accepts] with ctl := { CtlRegs.reset with state := p } }

theorem witness_PollTransmits :
    ∀ p ∈ [CtlPhase.sendResp1, .appRun1, .sendEventFlashClear1, .sendEventUserDataClear1],
      (transmitting p true).ctl.state = p ∧
      next? (exec .opTxStep (transmitting p true)) (fun u => u.tx.state == .done) = true ∧
      next? (exec .opTxStep (transmitting p false)) (fun u => u.tx.state == .crcHi) = true := by
  decide +kernel

/-- A transmitting state at a payload byte that nothing has written. -/
def transmittingUnwritten : State :=
  { txAt .body false 2 [] with ctl := { CtlRegs.reset with state := .sendResp1 } }

theorem witness_ModelStops :
    st.cfg.cap < 257 ∧ 1 ≤ st.cfg.cap ∧
      (∃ i, i < 1 ∧ memGet? st.buf i = none) ∧
      exec .opTxStep transmittingUnwritten = .fault (.bufUnwritten 2) ∧
      transmittingUnwritten.ctl.state = .sendResp1 ∧ (erasingAt 4 []).ctl.state = .flashClear ∧
      (erasingAt 4 []).cfg.sectors .app < (erasingAt 4 []).ctl.eraseIdx.toNat :=
  ⟨by decide, by decide, ⟨0, by decide, rfl⟩, rfl, rfl, rfl, by decide⟩

theorem witness_Transitions : inMain.caller = [] ∧ ∃ t, step inMain = .next t :=
  ⟨rfl, next?_some (by decide +kernel)⟩

theorem witness_InvKept : Invariant writing ∧ ∃ t, step writing = .next t :=
  ⟨writing_invariant, next?_some (by decide +kernel)⟩

theorem witness_InvProgress : Invariant inMain ∧ Invariant writing ∧ Invariant clearing :=
  ⟨inMain_invariant, writing_invariant, clearing_invariant⟩

/-- A session not yet activated about to receive `ACTIVATE`. -/
def activating : State := (session .rxWait false false false false).withNext (.cmdActivate sig)

theorem witness_Activation :
    (writing.caller = [] ∧ writing.ctl.state ≠ .init ∧ writing.ctl.activated = true ∧
      ∃ t, step writing = .next t) ∧
    activating.caller = [] ∧ activating.ctl.activated = false ∧
      ∃ t, step activating = .next t ∧ t.ctl.activated = true :=
  ⟨⟨rfl, by decide, rfl, next?_some (by decide +kernel)⟩, by decide +kernel, by decide +kernel,
    next?_exists (p := fun t => t.ctl.activated) (by decide +kernel)⟩

theorem witness_FlashAccess :
    (Invariant writing ∧ ∃ t, step writing = .next t ∧ (t.trace.contains
      (.flashWrite 0x08004000 [0xDE, 0xAD, 0xBE, 0xEF] true) &&
        t.env.flash != writing.env.flash && t.env.confirmed == [(.ud, 1)]) = true ∧
      writing.env.confirmed = [(.app, 0), (.ud, 1)]) ∧
    Invariant clearing ∧ ∃ t, step clearing = .next t ∧
      t.trace.contains (.sectorErase .app 2) = true :=
  ⟨⟨writing_invariant, by
      obtain ⟨t, h⟩ := next?_exists (o := step writing) (p := fun t => t.trace.contains
        (.flashWrite 0x08004000 [0xDE, 0xAD, 0xBE, 0xEF] true) &&
          t.env.flash != writing.env.flash && t.env.confirmed == [(.ud, 1)]) (by decide +kernel)
      exact ⟨t, h.1, h.2, rfl⟩⟩,
    clearing_invariant, next?_exists (by decide +kernel)⟩

theorem witness_FlagsSet :
    ((erasingAt 3 []).caller = [] ∧ (erasingAt 3 []).ctl.updateInProgress = false ∧
      ∃ t, step (erasingAt 3 []) = .next t ∧ t.ctl.updateInProgress = true) ∧
    active.ctl.firmwareValid = false ∧
      ∃ t, step (awaiting (within active { Env.unknown with flash := goodFlash })
        0x75 0xD5 0xD59E) = .next t ∧ t.ctl.firmwareValid = true :=
  ⟨⟨rfl, rfl, next?_exists (p := fun t => t.ctl.updateInProgress) (by decide +kernel)⟩, rfl,
    next?_exists (p := fun t => t.ctl.firmwareValid) (by decide +kernel)⟩

end Sys2Proof.Tests
end

section
/-! Proofs for spec/00_scope.md: which configurations have a meaning. -/

namespace Sys2Proof.Machine

/-- R9: the buffer of a legal configuration holds the longest command packet (an opcode and one
chunk) and the progress event. -/
theorem cap_bounds_of_wf {c : Config} (h : c.WF) : 46 + c.p ≤ c.cap ∧ 10 ≤ c.cap := by
  obtain ⟨-, -, -, hchunk, hevent, -⟩ := h
  exact ⟨hchunk, hevent⟩

/-- Settles O8: each of the two shortages breaks one bound of R9, so the configuration is not legal
and `step` refuses it. -/
theorem smallBufferRefused : Obligations.SmallBufferRefused := by
  intro s hsmall
  refine step_refused fun hwf => ?_
  obtain ⟨hchunk, hevent⟩ := cap_bounds_of_wf hwf
  cases hsmall with
  | inl hshort => exact Nat.not_le_of_lt hshort hchunk
  | inr hshort => exact Nat.not_le_of_lt hshort hevent

end Sys2Proof.Machine
end

section
/-! Proofs for spec/40_frame_receiver.md: the receiver's operations byte by byte (R120 to R132), and
the reception of a whole frame (R145). -/

namespace Sys2Proof.Machine

/-! ### `rx_step` as an operation -/

/-- An `rx_step` that answers is an operation that goes on with the answer recorded. -/
theorem exec_rxStep_of_ok {input : Option Byte} {s t : State} {r : RxResult}
    (h : rxStep input s = .ok (r, t)) : exec (.opRxStep input) s = .next (t.returning (.rx r)) := by
  simp only [exec, execOpRxStep, rxStepOp, h]

/-- `s` with the escape consumed, as a literal finds it (R123). -/
def State.rxUnescaped (s : State) : State := { s with rx := { s.rx with esc := false } }

/-- A byte that R123 delivers as a literal is handled by the receiver's state, the escape done. -/
theorem exec_rxStep_literal {s t : State} {b : Byte} {r : RxResult} (hb : s.Literal b)
    (h : rxLiteral b s.rxUnescaped = .ok (r, t)) :
    exec (.opRxStep (some b)) s = .next (t.returning (.rx r)) :=
  exec_rxStep_of_ok ((rxStep_literal hb).trans h)

/-! ### Arming and bytes that are no literals (R120 to R126) -/

/-- An armed receiver is left as it is by arming it again (R120, R127). -/
theorem rxAbort_of_armed {s : State} (hw : s.rx.state = .waitStart) (he : s.rx.esc = false) :
    s.rxAbort = s := by
  unfold State.rxAbort; rw [← hw, ← he]

/-- Settles O11: an `rx_step` that answers `RECEIVED` or `BROKEN` leaves the receiver armed (R133),
and arming is idempotent. -/
theorem rxBegin_holds : Obligations.RxBegin := by
  have armed : ∀ s : State, s.rx.state = .waitStart → s.rx.esc = false →
      exec .opRxBegin s = .next s :=
    fun s hw he => congrArg Host.Outcome.next (rxAbort_of_armed hw he)
  refine ⟨fun s => rfl, armed, fun s t input h hres => ?_⟩
  obtain ⟨r, u, hstep, rfl⟩ := exec_rxStep_next h
  have hr : r ≠ .notReceived := by
    rintro rfl
    simp at hres
  obtain ⟨hw, he⟩ := rxStep_armed hstep hr
  exact armed _ hw he

/-- Settles O12. -/
theorem rxNone : Obligations.RxNone := fun s => exec_rxStep_of_ok (rxStep_none s)

/-- Settles O13: in `WAIT_START` the byte either is `START` or is discarded. -/
theorem rxIdle_holds : Obligations.RxIdle := by
  intro s b hw
  rw [exec_rxStep_of_ok (rxStep_idle hw b)]
  by_cases hb : b = s.cfg.start
  · rw [rxIdle, if_pos hb, if_pos hb]; rfl
  · rw [rxIdle, if_neg hb, if_neg hb]; rfl

/-- Settles O14: the three classes of R123 that are no literals. -/
theorem rxClassified : Obligations.RxClassified := by
  intro s hdistinct hw
  refine ⟨fun he => ⟨?_, ?_⟩, fun he b hstart hesc => ?_⟩
  · exact exec_rxStep_of_ok (rxStep_prefix hw he)
  · exact exec_rxStep_of_ok (rxStep_unexpected hw he hdistinct)
  · exact exec_rxStep_of_ok (rxStep_invalid hw he (not_reserved_iff.2 ⟨hstart, hesc⟩))

/-! ### Literals (R128 to R132) -/

/-- Settles O15: `LEN_LO` has one outcome; after `LEN_HI` the assembled length is above `CAP`, or in
`1..CAP`, or 0, and then R131 goes by `CRC_ENABLE`. -/
theorem rxLength : Obligations.RxLength := by
  refine ⟨fun s b hst hb => ?_, fun s b hst hb => ⟨fun hlong => ?_, fun hpos hfits => ?_,
    fun hzero hcrc => ?_, fun hzero hcrc => ?_⟩⟩
  · exact exec_rxStep_literal hb (rxLiteral_lenLo (s := s.rxUnescaped) hst b)
  · exact exec_rxStep_literal hb (rxLiteral_lenHi_long (s := s.rxUnescaped) hst hlong)
  · have hne : unLe16 (lo8 s.rx.len) b ≠ 0 := fun h0 => by simp [h0] at hpos
    exact exec_rxStep_literal hb (rxLiteral_lenHi_body (s := s.rxUnescaped) hst hfits hne)
  all_goals
    have hempty := rxLiteral_lenHi_empty (s := s.rxUnescaped) hst (BitVec.eq_of_toNat_eq hzero)
  · rw [rxPayloadComplete_crc (by exact hcrc)] at hempty
    exact exec_rxStep_literal hb hempty
  · rw [rxPayloadComplete_bare (by exact hcrc)] at hempty
    exact exec_rxStep_literal hb hempty

/-- A stored literal is read back at `buf[rx_cnt]`, and no other read changes (R130). -/
theorem bufGet_rxStore {s : State} (hc : s.rx.cnt.toNat < s.cfg.cap) (b : Byte) (i : Nat) :
    (s.rxStore b).bufGet i = if i = s.rx.cnt.toNat then .ok b else s.bufGet i := by
  by_cases hi : i = s.rx.cnt.toNat
  · rw [if_pos hi]
    exact bufGet_ok_iff.2 ⟨by rw [hi]; exact hc, by simp [memGet?_memSet, hi]⟩
  · simp only [State.bufGet, rxStore_cfg, rxStore_buf, memGet?_memSet, if_neg hi]

/-- Settles O16: the literal either is not the last one, or completes the payload, with or without a
checksum to follow (R131). -/
theorem rxBody : Obligations.RxBody := by
  intro s b hst hb hlt hfits
  have hc : s.rx.cnt.toNat < s.cfg.cap := hlt.trans_le hfits
  have hget : ∀ i, (s.rxUnescaped.rxStore b).bufGet i = _ := bufGet_rxStore hc b
  by_cases hmore : s.rx.cnt.toNat + 1 < s.rx.len.toNat
  · have hne : s.rx.cnt + 1 ≠ s.rx.len := fun h => hmore.ne ((succ_eq_iff hlt).1 h)
    have hstep := rxLiteral_body_more (s := s.rxUnescaped) hst hc hne b
    exact ⟨_, exec_rxStep_literal hb hstep, hget, by simp [hmore, ← hst, State.rxUnescaped],
      by simp [hmore], rfl, rfl, rfl, rfl, rfl, rfl, rfl⟩
  · have hlast : s.rx.cnt + 1 = s.rx.len := (succ_eq_iff hlt).2 (by omega)
    have hstep := rxLiteral_body_last (s := s.rxUnescaped) hst hc hlast b
    cases hcrc : s.cfg.crcEnable
    · rw [rxPayloadComplete_bare (by exact hcrc)] at hstep
      exact ⟨_, exec_rxStep_literal hb hstep, hget, by simp [hmore, State.rxUnescaped],
        by simp [hmore], rfl, rfl, rfl, rfl, rfl, rfl, rfl⟩
    · rw [rxPayloadComplete_crc (by exact hcrc)] at hstep
      exact ⟨_, exec_rxStep_literal hb hstep, hget, by simp [hmore, State.rxUnescaped],
        by simp, rfl, rfl, rfl, rfl, rfl, rfl, rfl⟩

/-- Settles O17: `CRC_LO` has one outcome; after `CRC_HI` the checksums agree or differ. -/
theorem rxChecksum : Obligations.RxChecksum := by
  refine ⟨fun s b hst hb => ?_, fun s b hst hb => ⟨fun hmatch => ?_, fun hdiffer => ?_⟩⟩
  · exact exec_rxStep_literal hb (rxLiteral_crcLo (s := s.rxUnescaped) hst b)
  · exact exec_rxStep_literal hb (rxLiteral_crcHi_match (s := s.rxUnescaped) hst hmatch)
  · exact exec_rxStep_literal hb (rxLiteral_crcHi_mismatch (s := s.rxUnescaped) hst hdiffer)

/-! ### A whole frame (R145) -/

/-- `s` with the marker and the low byte of the length `w` received (R121, R128). -/
def State.rxLenLo (w : Word16) (s : State) : State :=
  { s with rx := { s.rx with
    state := .lenHi, esc := false, len := zext16 (lo8 w), cnt := 0
    ck := s.cfg.ckUpdate s.cfg.ckSeed (lo8 w) } }

/-- `s` with a payload received up to its last byte: stored in `buf`, counted, and summed with its
length (R128 to R130). -/
def State.rxPayload (payload : List Byte) (s : State) : State :=
  { s with
    buf := memSetBytes s.buf 0 payload
    rx := { s.rx with
      state := .body, esc := false
      len := BitVec.ofNat 16 payload.length, cnt := BitVec.ofNat 16 payload.length
      ck := s.cfg.checksum (framedBytes payload) } }

theorem escape_le16 (c : Config) (w : Word16) :
    c.escape (le16 w) = c.escapeByte (lo8 w) ++ c.escapeByte (hi8 w) := by
  simp [le16, escape_cons]

@[simp] theorem rxStoreAll_nil (s : State) : s.rxStoreAll [] = s := by
  simp only [State.rxStoreAll, memSetBytes, List.length_nil, List.foldl_nil,
    BitVec.add_zero]

/-- What "payload complete" answers does not depend on the state it leaves (R131). -/
theorem rxPayloadComplete_rxGo (s : State) (p : RxPhase) :
    rxPayloadComplete (s.rxGo p) = rxPayloadComplete s := by
  cases hc : s.cfg.crcEnable
  · rw [rxPayloadComplete_bare hc, rxPayloadComplete_bare (by exact hc)]; rfl
  · rw [rxPayloadComplete_crc hc, rxPayloadComplete_crc (by exact hc)]; rfl

/-- The second length literal and the payload's literals complete the payload. -/
theorem rxStoreAll_rxLenLo {s : State} {payload : List Byte} {w : Word16}
    (hlen : payload.length = w.toNat) :
    (((s.rxLenLo w).rxLenHi (hi8 w)).rxGo .body).rxStoreAll payload = s.rxPayload payload := by
  have hw : BitVec.ofNat 16 payload.length = w := by rw [hlen]; simp
  have hhi : setHi8 (zext16 (lo8 w)) (hi8 w) = w := by rw [setHi8_zext16, unLe16_lo8_hi8]
  simp [State.rxStoreAll, State.rxPayload, State.rxLenHi, State.rxLenLo, State.rxGo, hhi, hw,
    framedBytes_of_length hlen, Config.checksum, le16]

/-- The marker and the length bytes of a frame bring an idle receiver to the second length literal
(R121, R128). -/
theorem Delivers.length {s : State} (hw : s.rx.state = .waitStart) (w : Word16) :
    Delivers (s.cfg.start :: s.cfg.escape (le16 w)) s (rxLiteral (hi8 w) (s.rxLenLo w)) := by
  have hmarker : Delivers [s.cfg.start] s (.ok (.notReceived, rxIdle s.cfg.start s)) :=
    ⟨[], _, s, rfl, .nil s, rxStep_idle hw _⟩
  rw [rxIdle, if_pos rfl] at hmarker
  have hlo := Delivers.literal (s := { s with
    rx := { s.rx with state := .lenLo, esc := false, cnt := 0, ck := s.cfg.ckSeed } })
    (by simp) rfl (lo8 w)
  rw [rxLiteral_lenLo rfl] at hlo
  have hhi := Delivers.literal (s := s.rxLenLo w) (by simp [State.rxLenLo]) rfl (hi8 w)
  rw [escape_le16]
  exact hmarker.append (hlo.append hhi)

/-- The marker, length and payload of a frame, received by an idle receiver (R121, R128 to R131). -/
theorem Delivers.framed {s : State} {payload : List Byte} (hw : s.rx.state = .waitStart)
    (hcap : s.cfg.cap ≤ 65535) (hfits : payload.length ≤ s.cfg.cap) :
    Delivers (s.cfg.start :: s.cfg.escape (framedBytes payload)) s
      (.ok (rxPayloadComplete (s.rxPayload payload))) := by
  obtain ⟨w, hlen⟩ : ∃ w : Word16, payload.length = w.toNat :=
    ⟨BitVec.ofNat 16 payload.length, by rw [BitVec.toNat_ofNat]; omega⟩
  have hw' : setHi8 (s.rxLenLo w).rx.len (hi8 w) = w := by
    rw [State.rxLenLo, setHi8_zext16, unLe16_lo8_hi8]
  have hhead := Delivers.length hw w
  rw [framedBytes_of_length hlen, escape_append, ← List.cons_append, ← rxStoreAll_rxLenLo hlen]
  by_cases hnil : payload = []
  · subst hnil
    have hzero : w = 0 := BitVec.eq_of_toNat_eq hlen.symm
    rw [rxLiteral_lenHi_empty rfl (hw'.trans hzero), ← rxPayloadComplete_rxGo _ .body] at hhead
    rw [rxStoreAll_nil]
    simpa using hhead
  · have hne : w ≠ 0 := by
      rintro rfl
      exact hnil (List.length_eq_zero_iff.1 hlen)
    have hle : (setHi8 (s.rxLenLo w).rx.len (hi8 w)).toNat ≤ s.cfg.cap := by rwa [hw', ← hlen]
    rw [rxLiteral_lenHi_body rfl hle (by rwa [hw'])] at hhead
    refine hhead.append
      (.body (s := ((s.rxLenLo w).rxLenHi (hi8 w)).rxGo .body) rfl rfl hnil ?_ hle)
    show 0 + payload.length = (setHi8 (s.rxLenLo w).rx.len (hi8 w)).toNat
    rw [hw', hlen, Nat.zero_add]

/-- An armed receiver whose `rx_len` is the payload's length and whose `buf` had the payload written
has delivered it (R133, R145). -/
theorem received_of_written {s t : State} {payload : List Byte} (hcap : s.cfg.cap ≤ 65535)
    (hfits : payload.length ≤ s.cfg.cap) (hst : t.rx.state = .waitStart)
    (hrx : t.rx.esc = false ∧ t.rx.len = BitVec.ofNat 16 payload.length)
    (hbuf : t.buf = memSetBytes s.buf 0 payload) (honly : RxOnly s t) :
    Received payload s (t.returning (.rx .received)) := by
  obtain ⟨hesc, hlen⟩ := hrx
  have ⟨_, _, _, _, hcfg, _⟩ := honly
  refine ⟨rfl, hst, hesc, ?_, ?_, fun i => ?_, honly⟩
  · rw [returning_rx, hlen, BitVec.toNat_ofNat]; omega
  · exact bufGetBytes_of_written hbuf (by rw [returning_cfg, hcfg]; exact hfits)
  · rw [returning_buf, hbuf, written_memSetBytes]

/-- The bytes of a frame deliver its payload to an idle receiver with the last byte, with or without
a checksum after the payload (R131, R132). -/
theorem Delivers.frame {s : State} {payload : List Byte} (hw : s.rx.state = .waitStart)
    (hcap : s.cfg.cap ≤ 65535) (hfits : payload.length ≤ s.cfg.cap) :
    ∃ t, Delivers (s.cfg.frameBytes payload) s (.ok (.received, t)) ∧
      Received payload s (t.returning (.rx .received)) ∧ t.trace = s.trace := by
  have hbody := Delivers.framed hw hcap hfits
  unfold Config.frameBytes Config.frameBody
  cases hcrc : s.cfg.crcEnable
  · rw [rxPayloadComplete_bare (by exact hcrc)] at hbody
    refine ⟨(s.rxPayload payload).rxGo .waitStart, by simpa using hbody, ?_, rfl⟩
    exact received_of_written hcap hfits rfl ⟨rfl, rfl⟩ rfl ⟨rfl, rfl, rfl, rfl, rfl, rfl⟩
  · rw [rxPayloadComplete_crc (by exact hcrc)] at hbody
    have hlo := Delivers.literal (s := (s.rxPayload payload).rxGo .crcLo) (by simp) rfl
      (lo8 (s.cfg.checksum (framedBytes payload)))
    rw [rxLiteral_crcLo rfl] at hlo
    have hhi := hlo.append (.literal (by simp) rfl (hi8 (s.cfg.checksum (framedBytes payload))))
    rw [rxLiteral_crcHi_match rfl (by simp [setHi8_zext16, State.rxPayload])] at hhi
    rw [if_pos rfl, escape_append, escape_le16]
    refine ⟨_, hbody.append hhi, ?_, rfl⟩
    exact received_of_written hcap hfits rfl ⟨rfl, rfl⟩ rfl ⟨rfl, rfl, rfl, rfl, rfl, rfl⟩

/-- Settles O20: "no byte" between the bytes of the frame changes nothing (R122). -/
theorem rxReceivesFrame : Obligations.RxReceivesFrame := by
  intro s payload inputs _ hcap hfits hw hinputs hlast
  obtain ⟨t, hdelivers, hreceived, htrace⟩ := Delivers.frame hw hcap hfits
  obtain ⟨hrun, hsilent⟩ := hdelivers.run hinputs hlast
  exact ⟨⟨_, hrun, hreceived, htrace⟩, hsilent⟩

end Sys2Proof.Machine
end

section
/-! Proofs for spec/41_frame_transmitter.md: the marker and `T_DONE` (R165, R169). -/

namespace Sys2Proof.Machine

/-- A `tx_step` that answers is an operation that goes on with the answer recorded. -/
theorem exec_txStep_of_ok {s t : State} {r : TxResult} (h : txStep s = .ok (r, t)) :
    exec .opTxStep s = .next (t.returning (.tx r)) := by
  simp only [exec, execOpTxStep, h]

/-- An accepted marker leads to the low length byte and changes no other register (R165). -/
theorem advanced_of_start (c : Config) {tx : TxRegs} (h : tx.state = .start) :
    tx.advanced c = { tx with state := .lenLo } := by
  simp only [TxRegs.advanced, h]

/-- The marker where the sink's next answer is listed (R165). -/
theorem txMarker_listed {s : State} {accepted : Bool} {rest : List Bool}
    (hs : s.tx.state = .start) (hready : s.env.sinkReady = accepted :: rest) :
    ∃ t, txMarker s = (.notTransmitted, t) ∧
      t.returning (.tx .notTransmitted) = s.offered s.cfg.start accepted rest
        (if accepted then { s.tx with state := .lenLo } else s.tx) .notTransmitted := by
  obtain ⟨ok, ready, drawn, hanswer, hmarker⟩ := txMarker_cases s
  obtain ⟨rfl, rfl, rfl⟩ := hanswer _ _ hready
  rw [advanced_of_start s.cfg hs] at hmarker
  exact ⟨_, hmarker, rfl⟩

/-- Settles O28: the marker goes out raw under either answer of the sink, and a finished transmission
answers `TRANSMITTED` without a call of the sink. -/
theorem txMarkerAndDone : Obligations.TxMarkerAndDone := by
  refine ⟨fun s accepted rest hs hready => ?_, fun s hs => exec_txStep_of_ok (txStep_done hs)⟩
  obtain ⟨t, hmarker, hoffered⟩ := txMarker_listed hs hready
  rw [← hoffered]
  exact exec_txStep_of_ok ((txStep_start hs).trans (congrArg _ hmarker))

end Sys2Proof.Machine
end

section
/-! Proofs for spec/43_control_fsm.md: the polls of the erase states (R221 to R227), of `INIT` (R211),
of the states that call no port (R212, R220, R238), of the delaying states (R240) and of the
transmitting states (R225, R232, R236). -/

namespace Sys2Proof.Machine

/-! ### One pass of an erase state (R221, R222, R223, R226, R227) -/

/-- A sector that reads erased is skipped (R221 (2)). -/
theorem eraseSector_of_erased {s : State} {r : Region} {k : Nat}
    (h : (s.sectorErased r k).1 = true) : eraseSector r k s = (true, (s.sectorErased r k).2) := by
  rw [eraseSector, show s.sectorErased r k = (true, (s.sectorErased r k).2) from Prod.ext h rfl]

/-- Any other sector is erased, and the second query decides (R221 (2)). -/
theorem eraseSector_of_not_erased {s : State} {r : Region} {k : Nat}
    (h : (s.sectorErased r k).1 = false) :
    eraseSector r k s = ((s.sectorErased r k).2.sectorErase r k).sectorErased r k := by
  rw [eraseSector, show s.sectorErased r k = (false, (s.sectorErased r k).2) from Prod.ext h rfl]

/-- The call that a skipped sector takes. -/
theorem trace_of_erased {s : State} {r : Region} {k : Nat} (h : (s.sectorErased r k).1 = true) :
    (s.sectorErased r k).2.trace = s.trace ++ [.sectorErased r k true] := by
  rw [sectorErased_trace, h]

/-- The calls that any other sector takes. -/
theorem trace_of_not_erased {s : State} {r : Region} {k : Nat} {ok : Bool}
    (h : (s.sectorErased r k).1 = false)
    (h2 : (((s.sectorErased r k).2.sectorErase r k).sectorErased r k).1 = ok) :
    (((s.sectorErased r k).2.sectorErase r k).sectorErased r k).2.trace =
      s.trace ++ [.sectorErased r k false, .sectorErase r k, .sectorErased r k ok] := by
  simp [h, h2]

/-- The treatment of a sector writes neither `plain` nor a register or a byte that the poll's packet
is built from: it calls ports only. -/
theorem eraseSector_kept {s u : State} {r : Region} {k : Nat} {ok : Bool}
    (h : eraseSector r k s = (ok, u)) : Unsent s u ∧ u.ctl = s.ctl ∧ u.plain = s.plain := by
  rcases eraseSector_cases r k s with ⟨_, ⟨env, -, rfl⟩, hcase⟩ | ⟨_, env, _, -, -, -, hcase⟩ <;>
  · obtain ⟨-, rfl⟩ := Prod.mk.inj (h.symm.trans hcase)
    exact ⟨.refl s, rfl, rfl⟩

/-- What a completed sequence sets (R226, R227) is in the control FSM's registers alone. -/
theorem unsent_eraseCompleted (s : State) (r : Region) : Unsent s (s.eraseCompleted r) := by
  cases r <;> exact .refl s

/-- Past the last sector the sequence completes, without a call of a port (R221 (1)). -/
theorem pollErase_completed {s : State} {r : Region} (hk : s.ctl.eraseIdx.toNat = s.cfg.sectors r) :
    ∃ t, pollErase r s = .next t ∧ Quiet s t ∧
      Queued [s.ctl.eraseOp, 0x00] ((s.eraseCompleted r).ctl.enters .sendResp) s t :=
  ⟨_, if_pos hk, by simp [Quiet], queued_respond (by simp) (unsent_eraseCompleted s r)⟩

/-- A good sector is reported by a progress event (R223). -/
theorem pollErase_good {s u : State} {r : Region} (hk : s.ctl.eraseIdx.toNat < s.cfg.sectors r)
    (h : eraseSector r s.ctl.eraseIdx.toNat s = (true, u)) :
    ∃ t, pollErase r s = .next t ∧
      Queued (s.ctl.eraseOp :: 0xFF :: (le32 (BitVec.ofNat 32 (s.cfg.sectors r)) ++
        le32 (s.ctl.eraseIdx + BitVec.ofNat 32 s.cfg.progressDoneBias)))
        (s.ctl.enters (eventPhase r)) s t ∧
      t.plain = s.plain ∧ t.env = u.env ∧ t.trace = u.trace := by
  obtain ⟨hunsent, hctl, hplain⟩ := eraseSector_kept h
  have hqueued := queued_event (op := s.ctl.eraseOp) (total := BitVec.ofNat 32 (s.cfg.sectors r))
    (done := s.ctl.eraseIdx + BitVec.ofNat 32 s.cfg.progressDoneBias) r hunsent
  rw [hctl] at hqueued
  refine ⟨_, ?_, hqueued, hplain, rfl, rfl⟩
  simp only [pollErase, if_neg hk.ne, if_pos hk, h]

/-- A bad sector ends the sequence, the error named (R222). -/
theorem pollErase_bad {s u : State} {r : Region} (hk : s.ctl.eraseIdx.toNat < s.cfg.sectors r)
    (h : eraseSector r s.ctl.eraseIdx.toNat s = (false, u)) :
    ∃ t, pollErase r s = .next t ∧
      Queued (s.ctl.eraseOp :: 0x01 :: le32 s.ctl.eraseIdx) (s.ctl.enters .sendResp) s t ∧
      t.plain = s.plain ∧ t.env = u.env ∧
      t.trace = u.trace ++ [.raised (.flashErase s.ctl.eraseIdx.toNat)] := by
  obtain ⟨hunsent, hctl, hplain⟩ := eraseSector_kept h
  have hqueued := queued_respond (op := s.ctl.eraseOp) (st := 0x01) (extra := le32 s.ctl.eraseIdx)
    (u := u.raise (.flashErase s.ctl.eraseIdx.toNat)) (by simp) hunsent
  rw [raise_ctl, hctl] at hqueued
  refine ⟨_, ?_, hqueued, hplain, rfl, rfl⟩
  simp only [pollErase, if_neg hk.ne, if_pos hk, h]

/-- Settles O52: the sequence completes, or the treatment of the next sector gives a verdict that the
poll reports. -/
theorem pollErase_holds : Obligations.PollErase := by
  intro s r hstate n k event sends first erased second
  have hpoll : exec .opCtlPoll s = pollErase r s := by cases r <;> exact exec_ctlPoll hstate
  have hsends : eventPhase r = sends := by cases r <;> rfl
  have hverdict {ok : Bool} (h1 : first = false) (h2 : second = ok) :
      eraseSector r k s = (ok, (erased.sectorErased r k).2) :=
    (eraseSector_of_not_erased h1).trans (Prod.ext h2 rfl)
  rw [hpoll, ← hsends]
  refine ⟨fun hk => ?completed, fun hk h1 => ?skipped, fun hk h1 h2 => ?erased, fun hk h1 h2 => ?bad⟩
  case completed =>
    obtain ⟨t, hnext, hquiet, hqueued⟩ := pollErase_completed hk
    rw [eraseCompleted_ctl] at hqueued
    exact ⟨t, hnext, hquiet, hqueued⟩
  case skipped =>
    obtain ⟨t, hnext, hqueued, hplain, henv, htrace⟩ :=
      pollErase_good hk (eraseSector_of_erased h1)
    exact ⟨t, hnext, hqueued, hplain, henv, htrace.trans (trace_of_erased h1)⟩
  case erased =>
    obtain ⟨t, hnext, hqueued, hplain, henv, htrace⟩ := pollErase_good hk (hverdict h1 h2)
    exact ⟨t, hnext, hqueued, hplain, henv, htrace.trans (trace_of_not_erased h1 h2)⟩
  case bad =>
    obtain ⟨t, hnext, hqueued, hplain, henv, htrace⟩ := pollErase_bad hk (hverdict h1 h2)
    rw [trace_of_not_erased h1 h2, List.append_assoc] at htrace
    exact ⟨t, hnext, hqueued, hplain, henv, htrace⟩

/-! ### `INIT` (R211) -/

/-- R211 (1) as one update: the flag, and the call of the check unless the build skips it. -/
theorem initCheck_eq (s : State) :
    let v := s.cfg.debugSkipCheck || fwCheckValue s.cfg s.env.flash
    initCheck s = { s with
      ctl := { s.ctl with firmwareValid := v }
      trace := s.trace ++ if s.cfg.debugSkipCheck then [] else [.fwCheck v] } := by
  obtain ⟨v, events, hcheck, ⟨hskip, rfl, rfl⟩ | ⟨hskip, rfl, rfl⟩⟩ := initCheck_cases s <;>
    simp [hcheck, hskip]

/-- The timer variant never boots from `INIT`. -/
theorem initBoots_timer {s : State} (h : s.cfg.bootPolicy = .timer) : s.initBoots = false := by
  simp [State.initBoots, h]

theorem initBoots_strap {s : State} (h : s.cfg.bootPolicy = .strap) :
    s.initBoots = (!s.ctl.activated && s.ctl.firmwareValid &&
      s.cfg.strapAbsentPolicy == .bootIfValid) := by
  simp [State.initBoots, h, Bool.and_assoc, Bool.and_comm s.ctl.firmwareValid]

/-- Settles O49: the check, the sample of the boot variant, and the handoff only where the strap
variant boots. -/
theorem pollInit_holds : Obligations.PollInit := by
  intro s hstate v checked
  have hpoll : exec .opCtlPoll s = .next (pollInit s) := exec_ctlPoll hstate
  have hcheck : initCheck s = { s with
      ctl := { s.ctl with firmwareValid := v }
      trace := s.trace ++ checked } := initCheck_eq s
  constructor
  · intro htimer
    have hsample : initSample (initCheck s) = { s with
        ctl := { s.ctl with firmwareValid := v, tBoot := s.now.1 }
        env := s.now.2.env
        trace := s.trace ++ checked ++ [.clockMs s.now.1] } := by
      rw [hcheck, initSample_timer (by exact htimer)]; rfl
    rw [hpoll, pollInit_eq, hsample, initBoots_timer (by exact htimer)]
    rfl
  · intro hstrap strap boots
    have hsample : initSample (initCheck s) = { s with
        ctl := { s.ctl with firmwareValid := v, activated := strap }
        env := s.strapAsserted.2.env
        trace := s.trace ++ checked ++ [.strapAsserted strap] } := by
      rw [hcheck, initSample_strap (by exact hstrap)]; rfl
    have hboots : (initSample (initCheck s)).initBoots = boots := by
      rw [hsample, initBoots_strap (by exact hstrap)]
    rw [hpoll, pollInit_eq, hboots, hsample]
    clear_value boots
    cases boots with
    | true => rfl
    | false => simp only [Bool.false_eq_true, if_false, List.append_nil]; rfl

/-! ### The polls that call no port (R212, R220, R238) -/

/-- Settles O50: the action of each of the three states, as R210 selects it. -/
theorem pollQuiet : Obligations.PollQuiet :=
  ⟨fun _ hmain => exec_ctlPoll hmain, fun _ hbegin => exec_ctlPoll hbegin,
    fun _ hhandoff => exec_ctlPoll hhandoff⟩

/-! ### The delaying states (R240) -/

/-- `u` goes on to `p`; the way to `HANDOFF` performs the handoff (R214, R237). -/
def State.leaveFor (p : CtlPhase) (u : State) : State :=
  { u with
    ctl := u.ctl.enters p
    trace := u.trace ++ if p = .handoff then [.handoff] else [] }

theorem go_eq_leaveFor {p : CtlPhase} (h : p ≠ .handoff) : State.go p = State.leaveFor p := by
  funext u
  rw [State.leaveFor, if_neg h, List.append_nil]; rfl

theorem doHandoff_eq_leaveFor : State.doHandoff = State.leaveFor .handoff := rfl

/-- Settles O53: all five states wait alike (R240) and leave, `APP_RUN_2` by the handoff. -/
theorem pollDelays : Obligations.PollDelays := by
  intro s t next hstate
  have hpoll : exec .opCtlPoll s = .next (pollDelay t (State.leaveFor next) s) := by
    rcases hstate with ⟨hs, rfl, rfl⟩ | ⟨hs, rfl, rfl⟩ | ⟨hs, rfl, rfl⟩ | ⟨hs, rfl, rfl⟩ |
      ⟨hs, rfl, rfl⟩
    case inr.inr.inr.inr => exact doHandoff_eq_leaveFor ▸ exec_ctlPoll hs
    all_goals
      rw [← go_eq_leaveFor (by simp)]
      exact exec_ctlPoll hs
  rw [hpoll]
  refine ⟨fun hsub => ?_, fun hsub hwait => ?_, fun hsub hdone => ?_⟩
  · rw [pollDelay_enter hsub]; rfl
  · rw [pollDelay_wait hsub hwait]; rfl
  · rw [pollDelay_done hsub hdone]; rfl

/-! ### The transmitting states (R225, R232, R236) -/

/-- The operation `tx_step` is `tx_step` with its answer recorded. -/
theorem exec_txStep_next {s t : State} (h : exec .opTxStep s = .next t) :
    ∃ r u, txStep s = .ok (r, u) ∧ t = u.returning (.tx r) := by
  cases hstep : txStep s with
  | error f => simp [exec, execOpTxStep, hstep] at h
  | ok answer =>
    obtain ⟨r, u⟩ := answer
    rw [exec_txStep_of_ok hstep] at h
    cases h
    exact ⟨r, u, rfl, rfl⟩

/-- A transmitting state's poll is one `tx_step` whose answer it keeps to itself (R232). -/
theorem pollTransmit_of_exec {s u : State} (h : exec .opTxStep s = .next u) (f : State → State) :
    pollTransmit f s = .next (if u.tx.state = .done
      then f { u with result := s.result } else { u with result := s.result }) := by
  obtain ⟨r, w, hstep, rfl⟩ := exec_txStep_next h
  rw [pollTransmit_of hstep, ← txStep_result hstep]
  rfl

/-- Settles O54: the four states differ only in where the finished frame leads. -/
theorem pollTransmits : Obligations.PollTransmits := by
  intro s u hstep stays
  refine ⟨fun hs => ?_, fun hs => ?_, fun hs => ?_, fun hs => ?_⟩ <;>
    exact (exec_ctlPoll hs).trans (pollTransmit_of_exec hstep _)

end Sys2Proof.Machine
end

section
/-! Proofs for spec/44_commands.md: `ACTIVATE` (R261), `SEND` (R263), `END` (R265) and `CHECK_CRC`
(R266). Each command writes some session flags and answers; what the answer leaves is
`queued_respond`, and the states answered from are `Unsent`. -/

namespace Sys2Proof.Machine

/-! ### `SEND` (R263) -/

/-- A packet is one opcode and one chunk exactly when its operands are one chunk (R263). -/
theorem packetLength_eq_iff {c : Config} {args : List Byte} :
    packetLength args = 1 + c.chunkSize ↔ args.length = 45 + c.p := by
  unfold packetLength Config.chunkSize; omega

/-- What a command that opens a chunk finds: `plain` and the trace as R192 and R193 say, nothing
staged, and everything an answer is built from as it was. -/
theorem verOpen_leaves {chunk : List Byte} {s : State} (hl : chunk.length = 45 + s.cfg.p) :
    ∃ raised, Opened chunk s (verOpen chunk s).2.plain raised ∧
      (verOpen chunk s).2.trace = s.trace ++ raised ∧
      (verOpen chunk s).2.env = s.env ∧
      (verOpen chunk s).2.ctl = { s.ctl with stagedValid := false } ∧
      Unsent s (verOpen chunk s).2 ∧
      ((openChunk s.cfg chunk).isSome → raised = []) := by
  obtain ⟨plain, raised, hopened, hverOpen, hraised, -⟩ := verOpen_cases chunk s hl
  rw [hverOpen]
  exact ⟨raised, hopened, rfl, rfl, rfl, .refl s, hraised⟩

section
variable {s : State} {args : List Byte} (ha : s.ctl.activated = true)
include ha

theorem exec_send_pass (hl : args.length = 45 + s.cfg.p) (h : FirmwarePasses s.cfg args) :
    exec (.cmdSend args) s = .next (((verOpen args s).2.stage (chunkAddress args)
      (chunkLength args)).respond 0x72 0x00 []) := by
  rw [exec_send ha, if_neg (not_not.2 (packetLength_eq_iff.2 hl)), verFirmware_pass h]

theorem exec_send_fail (hl : args.length = 45 + s.cfg.p) (h : ¬FirmwarePasses s.cfg args) :
    exec (.cmdSend args) s = .next ((verOpen args s).2.respond 0x72 0x01 []) := by
  rw [exec_send ha, if_neg (not_not.2 (packetLength_eq_iff.2 hl)), verFirmware_fail h]

theorem exec_send_wrong_length (hl : args.length ≠ 45 + s.cfg.p) :
    exec (.cmdSend args) s = .next (s.unstage.respond 0x72 0x01 []) := by
  rw [exec_send ha, if_pos (packetLength_eq_iff.not.2 hl)]

end

/-- Settles O38: the chunk that passes was opened without an error and is staged over the discarded
one; in the two other cases the discarded one is not replaced. -/
theorem send : Obligations.Send := by
  intro s args ha
  refine ⟨fun hl hpass => ?passes, fun hl hfail => ?fails, fun hl => ?wrongLength⟩
  case passes =>
    obtain ⟨raised, hopened, htrace, henv, hctl, hunsent, hraised⟩ := verOpen_leaves hl
    obtain rfl := hraised hpass.opened
    have hqueued := queued_respond (op := 0x72) (st := 0x00) (extra := [])
      (u := (verOpen args s).2.stage (chunkAddress args) (chunkLength args)) (by simp) hunsent
    rw [stage_ctl, hctl] at hqueued
    exact ⟨_, exec_send_pass ha hl hpass, hopened, htrace.trans (List.append_nil _), henv, hqueued⟩
  case fails =>
    obtain ⟨raised, hopened, htrace, henv, hctl, hunsent, -⟩ := verOpen_leaves hl
    have hqueued := queued_respond (op := 0x72) (st := 0x01) (extra := []) (by simp) hunsent
    rw [hctl] at hqueued
    exact ⟨_, raised, exec_send_fail ha hl hfail, hopened, htrace, henv, hqueued⟩
  case wrongLength =>
    exact ⟨_, exec_send_wrong_length ha hl, ⟨rfl, rfl, rfl⟩, queued_respond (by simp) (.refl s)⟩

/-! ### `ACTIVATE` (R261) -/

theorem exec_activate_signature {s : State} (hl : s.cfg.signature.length = 8) :
    exec (.cmdActivate s.cfg.signature) s = .next (s.activate.respond 0x70 0x00 []) :=
  if_pos ⟨by rw [packetLength, hl], rfl⟩

theorem exec_activate_other {s : State} {args : List Byte} (h : args ≠ s.cfg.signature) :
    exec (.cmdActivate args) s = .next (s.go .main) :=
  if_neg fun hsignature => h hsignature.2

/-- Settles O36: the signature has eight bytes, so a packet that carries it has the length that R261
asks for. -/
theorem activate : Obligations.Activate := by
  intro s args hl
  constructor
  · rintro rfl
    exact ⟨_, exec_activate_signature hl, ⟨rfl, rfl, rfl⟩, queued_respond (by simp) (.refl s)⟩
  · exact exec_activate_other

/-! ### `END` (R265) -/

/-- Settles O41: the answer is queued from the state with the flag cleared. -/
theorem endCommand : Obligations.EndCommand := fun s args ha =>
  ⟨_, exec_end ha args, ⟨rfl, rfl, rfl⟩, queued_respond (by simp) (.refl s)⟩

/-! ### `CHECK_CRC` (R266) -/

theorem exec_checkCrc_refused {s : State} (ha : s.ctl.activated = true)
    (hu : s.ctl.updateInProgress = true) (args : List Byte) :
    exec (.cmdCheckCrc args) s = .next ((s.raise .precondition).respond 0x75 0x02 []) := by
  rw [exec_checkCrc ha, if_pos hu]

theorem exec_checkCrc_runs {s : State} (ha : s.ctl.activated = true)
    (hu : s.ctl.updateInProgress = false) (args : List Byte) :
    exec (.cmdCheckCrc args) s = .next ((s.fwCheck.2.setFirmwareValid s.fwCheck.1).respond 0x75
      (if s.fwCheck.1 then 0x00 else 0x01) []) := by
  rw [exec_checkCrc ha, if_neg (Bool.eq_false_iff.1 hu)]

/-- Settles O42: the update in progress decides whether the check is run. -/
theorem checkCrc : Obligations.CheckCrc := by
  intro s args ha v
  constructor
  · intro hu
    exact ⟨_, exec_checkCrc_refused ha hu args, queued_respond (by simp) (.refl s), rfl, rfl, rfl⟩
  · intro hu
    exact ⟨_, exec_checkCrc_runs ha hu args, queued_respond (by simp) (.refl s), rfl, rfl, rfl⟩

end Sys2Proof.Machine
end

section
/-! Proofs for spec/30_encoding.md: the escape code (R87 to R89), the size of a frame (R90), the frame's
body (R80 to R84), and the two directions of the round trip between instructions and bytes. -/

namespace Sys2Proof

/-! ### The escape code (R87 to R89) -/

theorem unescape_pair {c : Config} {b : Byte} (hb : c.reserved b = true) (rest : List Byte) :
    c.unescape false (c.esc :: b :: rest) = (c.unescape false rest).map (b :: ·) := by
  simp only [Config.unescape, Bool.false_eq_true, if_false, if_true, hb]
  cases c.unescape false rest <;> rfl

theorem unescape_literal {c : Config} {b : Byte} (hb : c.reserved b = false) (rest : List Byte) :
    c.unescape false (b :: rest) = (c.unescape false rest).map (b :: ·) := by
  obtain ⟨hstart, hesc⟩ := not_reserved_iff.1 hb
  simp only [Config.unescape, Bool.false_eq_true, if_false, hesc, hstart]
  cases c.unescape false rest <;> rfl

theorem unescape_invalid {c : Config} {b : Byte} (hb : c.reserved b = false) (rest : List Byte) :
    c.unescape false (c.esc :: b :: rest) = .error .invalidEscape := by
  simp [Config.unescape, hb]

theorem unescape_escapeByte (c : Config) (b : Byte) (rest : List Byte) :
    c.unescape false (c.escapeByte b ++ rest) = (c.unescape false rest).map (b :: ·) := by
  cases hb : c.reserved b
  · rw [escapeByte_literal hb]; exact unescape_literal hb rest
  · rw [escapeByte_reserved hb]; exact unescape_pair hb rest

theorem unescape_escape (c : Config) (bytes : List Byte) :
    c.unescape false (c.escape bytes) = .ok bytes := by
  induction bytes with
  | nil => simp [Config.unescape]
  | cons b bytes ih => rw [escape_cons, unescape_escapeByte, ih]; rfl

/-- Settles O3: the four clauses are the escape code's reading of a whole escaped sequence, of a pair,
of a byte that needs no escape, and of a pair that is none. -/
theorem escapeLossless : Obligations.EscapeLossless := fun c _ =>
  ⟨unescape_escape c, fun _ rest hb => unescape_pair hb rest,
    fun _ rest hb => unescape_literal hb rest,
    fun _ rest hb => unescape_invalid hb rest⟩

/-- Bytes that the escape code reads are the escaped form of what it reads; a pending escape stands
for the `ESC` already taken. -/
theorem escape_of_unescape {c : Config} {pending : Bool} {bytes out : List Byte}
    (h : c.unescape pending bytes = .ok out) :
    c.escape out = if pending then c.esc :: bytes else bytes := by
  induction bytes generalizing pending out with
  | nil => cases pending <;> simp [Config.unescape] at h; subst h; rfl
  | cons b rest ih =>
    have literal {p : List Byte} (hb : c.escapeByte b = p)
        (h' : (match c.unescape false rest with
          | .ok out => (.ok (b :: out) : Except DecodeError (List Byte))
          | .error e => .error e) = .ok out) : c.escape out = p ++ rest := by
      cases hu : c.unescape false rest with
      | error e => rw [hu] at h'; cases h'
      | ok out' => rw [hu] at h'; cases h'; rw [escape_cons, hb, ih hu]; rfl
    cases pending with
    | true =>
      simp only [Config.unescape, if_true] at h
      split at h
      · next hb => exact literal (escapeByte_reserved hb) h
      · cases h
    | false =>
      simp only [Config.unescape, Bool.false_eq_true, if_false] at h
      split at h
      · next hesc => rw [ih h, hesc]; rfl
      · next hesc =>
        split at h
        · cases h
        · next hstart =>
          exact literal (escapeByte_literal (not_reserved_iff.2 ⟨hstart, hesc⟩)) h

/-! ### The size of a frame (R90) -/

theorem escape_length (c : Config) (bytes : List Byte) :
    (c.escape bytes).length = bytes.length + bytes.countP c.reserved := by
  induction bytes with
  | nil => rfl
  | cons b bytes ih =>
    cases hb : c.reserved b <;>
      simp [escape_cons, Config.escapeByte, hb, ih] <;> omega

theorem frameBody_length (c : Config) (payload : List Byte) :
    (c.frameBody payload).length = 2 + payload.length + if c.crcEnable then 2 else 0 := by
  cases hc : c.crcEnable <;> simp [Config.frameBody, hc]

/-- Settles O4: each byte of the body is sent once, and once more where it needs an escape. -/
theorem frameSize : Obligations.FrameSize := by
  intro c payload n ck
  have hbody : (c.frameBody payload).length = 2 + n + ck := frameBody_length c payload
  have hframe : (c.frameBytes payload).length =
      1 + (2 + n + ck) + (c.frameBody payload).countP c.reserved := by
    rw [Config.frameBytes, List.length_cons, escape_length, hbody]; omega
  have hcount := List.countP_le_length (p := c.reserved) (l := c.frameBody payload)
  exact ⟨hframe, by omega, by omega⟩

/-! ### The frame's body (R80 to R84) -/

/-- A body that follows its own length, with a checksum or without, is read back. -/
theorem parseBody_frameBody {c : Config} {payload : List Byte} (hcap : c.cap ≤ 65535)
    (hfits : payload.length ≤ c.cap) : c.parseBody (c.frameBody payload) = .ok payload := by
  obtain ⟨w, hlen⟩ : ∃ w : Word16, payload.length = w.toNat :=
    ⟨BitVec.ofNat 16 payload.length, by rw [BitVec.toNat_ofNat]; omega⟩
  have hbody : c.frameBody payload = lo8 w :: hi8 w :: (payload ++
      if c.crcEnable then le16 (c.checksum (lo8 w :: hi8 w :: payload)) else []) := by
    simp [Config.frameBody, framedBytes_of_length hlen, le16]
  rw [hbody]
  simp only [Config.parseBody, unLe16_lo8_hi8, ← hlen, if_neg (Nat.not_lt.2 hfits),
    List.length_append, List.take_left, List.drop_left]
  simp

/-- A body that is read is the body of the payload it is read as. -/
theorem frameBody_of_parseBody {c : Config} {body payload : List Byte}
    (h : c.parseBody body = .ok payload) : c.frameBody payload = body := by
  match body with
  | [] => cases h
  | [_] => cases h
  | l0 :: l1 :: rest =>
    simp only [Config.parseBody] at h
    split at h
    next => cases h
    split at h
    next => cases h
    next hlong =>
      by_cases hck : rest.drop (unLe16 l0 l1).toNat =
          if c.crcEnable then le16 (c.checksum (l0 :: l1 :: rest.take (unLe16 l0 l1).toNat)) else []
      case neg => rw [if_neg hck] at h; cases h
      rw [if_pos hck] at h
      cases h
      have hlen : (rest.take (unLe16 l0 l1).toNat).length = (unLe16 l0 l1).toNat := by
        rw [List.length_take]; omega
      rw [Config.frameBody, framedBytes_of_length hlen, le16_unLe16]
      simp only [List.cons_append, List.nil_append]
      rw [← hck, List.take_append_drop]

/-- A frame's body has at least its length bytes. -/
theorem escape_frameBody_cons (c : Config) (payload : List Byte) :
    ∃ b rest, c.escape (c.frameBody payload) = b :: rest := by
  refine List.exists_cons_of_length_pos ?_
  rw [escape_length, frameBody_length]; omega

/-! ### Instructions and bytes -/

theorem regionOfOpcode_opcodeOfRegion (r : Region) : regionOfOpcode (opcodeOfRegion r) = some r := by
  cases r <;> rfl

theorem opcodeOfRegion_of_regionOfOpcode {op : Byte} {r : Region} (h : regionOfOpcode op = some r) :
    opcodeOfRegion r = op := by
  unfold regionOfOpcode at h
  split at h
  · next hop => cases h; exact hop.symm
  · split at h
    · next hop => cases h; exact hop.symm
    · cases h

/-- An opcode outside R95's table is none of the assigned ones. -/
theorem not_assigned_iff {c : Config} {op : Byte} :
    c.assigned op = false ↔ op ≠ 0x70 ∧ op ≠ 0x71 ∧ op ≠ 0x72 ∧ op ≠ 0x73 ∧ op ≠ 0x74 ∧
      op ≠ 0x75 ∧ op ≠ 0x76 ∧ ¬(op = 0x78 ∧ c.hasUserData = true) := by
  by_cases h : op = 120#8
  · subst h; cases hu : c.hasUserData <;> simp [Config.assigned, assignedOpcodes, hu]
  · simp [Config.assigned, assignedOpcodes, h]

theorem decodeCommand_reserved {c : Config} {op : Byte} (h : c.assigned op = false)
    (args : List Byte) : decodeCommand c (op :: args) = .ok (.cmdReserved op args) := by
  obtain ⟨h0, h1, h2, h3, h4, h5, h6, h8⟩ := not_assigned_iff.1 h
  simp only [decodeCommand, if_neg h0, if_neg h1, if_neg h2, if_neg h3, if_neg h4, if_neg h5,
    if_neg h6, if_neg h8]

theorem decodeResponse_eraseFail (r : Region) (k : Word32) :
    decodeResponse ([opcodeOfRegion r, 0x01] ++ le32 k) = .ok (.rspEraseFail r k) := by
  simp [le32, decodeResponse, regionOfOpcode_opcodeOfRegion, unLe32_le32]

theorem decodeResponse_progress (r : Region) (total done : Word32) :
    decodeResponse ([opcodeOfRegion r, 0xFF] ++ le32 total ++ le32 done) =
      .ok (.evtProgress r total done) := by
  simp [le32, decodeResponse, regionOfOpcode_opcodeOfRegion, unLe32_le32]

/-- A frame on the wire decodes to its payload (R80). -/
theorem decodeWire_frameBytes {c : Config} {payload : List Byte}
    (hcap : c.cap ≤ 65535) (hfits : payload.length ≤ c.cap) :
    decodeWire c (c.frameBytes payload) = .ok (.wireFrame payload) := by
  obtain ⟨b, rest, hcons⟩ := escape_frameBody_cons c payload
  have hbody : c.unescape false (b :: rest) = .ok (c.frameBody payload) :=
    hcons ▸ unescape_escape c _
  simp only [Config.frameBytes, hcons, decodeWire, if_true, hbody, parseBody_frameBody hcap hfits]

theorem decodeWire_esc {c : Config} {l : Byte} (hdistinct : c.start ≠ c.esc)
    (hl : c.reserved l = true) : decodeWire c [c.esc, l] = .ok (.wireEsc l) := by
  simp [decodeWire, hdistinct.symm, hl]

/-- Settles O1: a command by its opcode, a response by its length and status, a frame by the inverse
of each of its layers. -/
theorem decodeEncode : Obligations.DecodeEncode := by
  intro c i hwf hi hop
  obtain ⟨hdistinct, ⟨-, hcap⟩, -⟩ := hwf
  cases i with
  | cmdActivate args => rfl
  | cmdBegin args => rfl
  | cmdSend args => rfl
  | cmdWrite args => rfl
  | cmdEnd args => rfl
  | cmdCheckCrc args => rfl
  | cmdAppRun args => rfl
  | cmdEraseUserData args =>
    have hud : c.hasUserData = true := by simpa [Instr.wf] using (Bool.and_eq_true_iff.1 hi).2
    simp [decode, encode, Instr.format, decodeCommand, hud]
  | cmdReserved op args =>
    exact decodeCommand_reserved (by simpa using (Bool.and_eq_true_iff.1 hi).2) args
  | rspOk op => rfl
  | rspFail op => rfl
  | rspEraseFail r k => exact decodeResponse_eraseFail r k
  | rspPrecond op => rfl
  | evtProgress r total done => exact decodeResponse_progress r total done
  | wireFrame payload => exact decodeWire_frameBytes hcap (of_decide_eq_true hi)
  | wireStart => simp [decode, encode, Instr.format, decodeWire]
  | wireEsc l => exact decodeWire_esc hdistinct hi
  | opReset | opRxBegin | opRxStep _ | opTxBegin _ | opTxStep | opVerIdentity | opVerFirmware
  | opCtlPoll => exact absurd rfl hop

/-- A packet that decodes is the packet of the command (R94, R95, R110). -/
theorem encode_of_decodeCommand {c : Config} {bytes : List Byte} {i : Instr}
    (h : decodeCommand c bytes = .ok i) : i.format = .cmd ∧ encode c i = bytes := by
  cases bytes with
  | nil => cases h
  | cons op args =>
    obtain rfl := Except.ok.inj h
    repeat' split
    all_goals simp_all [Instr.format, encode]

/-- A response that decodes is the packet of that response: two, six or ten bytes (R106 to R108). -/
theorem encode_of_decodeResponse {c : Config} {bytes : List Byte} {i : Instr}
    (h : decodeResponse bytes = .ok i) : i.format = .rsp ∧ encode c i = bytes := by
  unfold decodeResponse at h
  split at h
  case h_1 op st =>
    repeat' split at h
    all_goals first
      | (next hst => subst hst; cases h; exact ⟨rfl, rfl⟩)
      | cases h
  case h_2 op st k0 k1 k2 k3 =>
    repeat' split at h
    case h_1 hst _ r hr =>
      cases h
      exact ⟨rfl, by simp [encode, opcodeOfRegion_of_regionOfOpcode hr, le32_unLe32, hst]⟩
    all_goals cases h
  case h_3 op st t0 t1 t2 t3 d0 d1 d2 d3 =>
    repeat' split at h
    case h_1 hst _ r hr =>
      cases h
      exact ⟨rfl, by simp [encode, opcodeOfRegion_of_regionOfOpcode hr, le32_unLe32, hst]⟩
    all_goals cases h
  case h_4 => cases h

/-- Bytes of the wire that decode are the symbol's or the frame's. -/
theorem encode_of_decodeWire {c : Config} {bytes : List Byte} {i : Instr}
    (h : decodeWire c bytes = .ok i) : i.format = .wire ∧ encode c i = bytes := by
  cases bytes with
  | nil => cases h
  | cons b rest =>
    simp only [decodeWire] at h
    split at h
    next hstart =>
      subst hstart
      cases rest with
      | nil => cases h; exact ⟨rfl, rfl⟩
      | cons b' rest =>
        simp only at h
        cases hu : c.unescape false (b' :: rest) with
        | error e => rw [hu] at h; cases h
        | ok body =>
          simp only [hu] at h
          cases hp : c.parseBody body with
          | error e => rw [hp] at h; cases h
          | ok payload =>
            simp only [hp] at h
            cases h
            refine ⟨rfl, ?_⟩
            rw [encode, Config.frameBytes, frameBody_of_parseBody hp, escape_of_unescape hu]
            rfl
    split at h
    next hesc =>
      subst hesc
      split at h
      · split at h
        · cases h; exact ⟨rfl, rfl⟩
        · cases h
      · cases h
      · cases h
    cases h

/-- Settles O2: no format reads two encodings as one instruction. -/
theorem encodeDecode : Obligations.EncodeDecode := by
  intro c fmt bytes i _ h
  cases fmt with
  | cmd => exact encode_of_decodeCommand h
  | rsp => exact encode_of_decodeResponse h
  | wire => exact encode_of_decodeWire h
  | op => cases h

/-- Settles O5: the words are closed, and the decoder computes on them. -/
theorem decodedWords : Obligations.DecodedWords := by
  unfold Obligations.DecodedWords
  decide +kernel

end Sys2Proof
end

section
/-! Proofs for spec/40_frame_receiver.md: what an `rx_step` leaves alone (R306) and when it answers
(R133), the symbols of the wire (30_encoding.md R80, R86, R87), resynchronization (R147), and what a
delivered frame means (R24, R148). -/

namespace Sys2Proof.Machine

/-! ### What an `rx_step` leaves alone (R306) -/

/-- The four framing errors (R300). -/
def framingErrors : List ErrorClass :=
  [.framingUnexpectedStart, .framingInvalidEscape, .framingOversize, .framingChecksum]

/-- An `rx_step` raises nothing, or one framing error, and then it answers `BROKEN`. -/
theorem rxStep_raises {input : Option Byte} {s t : State} {r : RxResult}
    (h : rxStep input s = .ok (r, t)) :
    t.trace = s.trace ∨ ∃ e ∈ framingErrors, t.trace = s.trace ++ [.raised e] ∧ r = .broken := by
  rcases rxStep_cases h with ⟨rfl, rfl, rfl⟩ | ⟨b, rfl, hw, rfl, rfl⟩ | ⟨rfl, hw, he, rfl, rfl⟩ |
    ⟨b, rfl, hw, he, hb, rfl, rfl⟩ | ⟨rfl, hw, he, rfl, rfl⟩ | ⟨b, rfl, hw, hb, hl⟩
  · exact .inl rfl
  · unfold rxIdle; split <;> exact .inl rfl
  · exact .inl rfl
  · exact .inr ⟨_, by simp [framingErrors], rfl, rfl⟩
  · exact .inr ⟨_, by simp [framingErrors], rfl, rfl⟩
  · rcases rxLiteral_cases (by exact hw) hl with ⟨hs, rfl, rfl⟩ | ⟨hs, h1, rfl, rfl⟩ |
      ⟨hs, h2, hp⟩ | ⟨hs, h1, h2, rfl, rfl⟩ | ⟨hs, h1, h2, rfl, rfl⟩ | ⟨hs, h1, h2, hp⟩ |
      ⟨hs, rfl, rfl⟩ | ⟨hs, h1, rfl, rfl⟩ | ⟨hs, h1, rfl, rfl⟩
    · exact .inl rfl
    · exact .inr ⟨_, by simp [framingErrors], rfl, rfl⟩
    · rcases rxPayloadComplete_cases hp with ⟨_, rfl, rfl⟩ | ⟨_, rfl, rfl⟩ <;> exact .inl rfl
    · exact .inl rfl
    · exact .inl rfl
    · rcases rxPayloadComplete_cases hp with ⟨_, rfl, rfl⟩ | ⟨_, rfl, rfl⟩ <;> exact .inl rfl
    · exact .inl rfl
    · exact .inl rfl
    · exact .inr ⟨_, by simp [framingErrors], rfl, rfl⟩

/-- A read of `buf` other than the one at a written index does not see the write. -/
theorem bufGet_of_memSet {s t : State} {a i : Nat} {b : Byte} (hc : t.cfg = s.cfg)
    (hb : t.buf = memSet s.buf a b) (hi : i ≠ a) : t.bufGet i = s.bufGet i := by
  simp only [State.bufGet, hc, hb, memGet?_memSet, if_neg hi]

/-- Settles O18: the only byte of `buf` an `rx_step` writes is the literal of `BODY`. -/
theorem rxFrame : Obligations.RxFrame := by
  intro s t input h
  obtain ⟨r, u, hstep, rfl⟩ := exec_rxStep_next h
  obtain ⟨honly, -⟩ := rxStep_only hstep
  obtain ⟨hbuf, -⟩ := rxStep_writes hstep
  have ⟨_, _, _, _, hcfg, _⟩ := honly
  refine ⟨honly, fun hbody => ?_, fun i hi => ?_, ?_⟩
  · exact hbuf.elim id fun ⟨hs, _⟩ => absurd hs hbody
  · rcases hbuf with hsame | ⟨-, -, b, hset⟩
    · simp only [State.bufGet, returning_cfg, returning_buf, hcfg, hsame]
    · exact bufGet_of_memSet (t := u.returning _) hcfg hset hi
  · rcases rxStep_raises hstep with hsame | ⟨e, he, htrace, rfl⟩
    · exact .inl hsame
    · exact .inr ⟨e, htrace, rfl, he⟩

/-! ### When an `rx_step` answers (R133) -/

theorem exec_rxStep_of_error {input : Option Byte} {s : State} {f : Fault}
    (h : rxStep input s = .error f) : exec (.opRxStep input) s = .fault f := by
  simp only [exec, execOpRxStep, rxStepOp, h]

/-- Settles O19. -/
theorem rxCompletes : Obligations.RxCompletes := by
  intro s input
  constructor
  · intro hcnt
    obtain ⟨⟨r, t⟩, hstep⟩ := rxStep_total input hcnt
    exact ⟨_, r, exec_rxStep_of_ok hstep, rfl, rxStep_armed (t := t) hstep⟩
  · rintro b rfl hbody hb hcap
    exact exec_rxStep_of_error ((rxStep_literal hb).trans
      (rxLiteral_body_fault (s := s.rxUnescaped) hbody hcap b))

/-! ### The symbols of the wire (R80, R86, R87) -/

/-- Settles O21: the row is the run of its bytes, and a run with no pause between the bytes is one of
those that `rxReceivesFrame` speaks of. -/
theorem wireFrame : Obligations.WireFrame := by
  refine ⟨fun s payload => rxFeed_eq_rxRun _ s, fun s payload hdistinct hcap hfits hw => ?_⟩
  obtain ⟨⟨t, hrun, hreceived, htrace⟩, -⟩ := rxReceivesFrame s payload
    ((s.cfg.frameBytes payload).map some) hdistinct hcap hfits hw
    (by simp [List.reduceOption]) (by simp [List.getLast?_map])
  exact ⟨t, (rxFeed_eq_rxRun _ s).trans hrun, hreceived, htrace⟩

theorem rxFeed_one (b : Byte) (s : State) : rxFeed [b] s = exec (.opRxStep (some b)) s := by
  simp only [rxFeed, exec, execOpRxStep]
  cases rxStepOp (some b) s <;> rfl

/-- Settles O22: the row is one `rx_step` on the marker, which is idle's (R121) or classified
(R126). -/
theorem wireStart : Obligations.WireStart := by
  intro s
  have hone : exec .wireStart s = exec (.opRxStep (some s.cfg.start)) s := rxFeed_one _ s
  refine ⟨fun hw => ?_, fun hw he hdistinct => ?_, fun _ => hone⟩
  · rw [hone, rxIdle_holds s _ hw, if_pos rfl]
  · exact hone.trans ((rxClassified s hdistinct hw).1 he).2

/-- The recorded result of an earlier operation has no influence on an `rx_step`. -/
theorem exec_rxStep_returning (input : Option Byte) (s : State) (r : OpResult) :
    exec (.opRxStep input) (s.returning r) = exec (.opRxStep input) s := by
  simp only [exec, execOpRxStep, rxStepOp, rxStep_returning]
  cases rxStep input s <;> rfl

theorem rxOnly_trans {s t u : State} (h : RxOnly s t) (h' : RxOnly t u) : RxOnly s u := by
  obtain ⟨a, b, c, d, e, f⟩ := h
  obtain ⟨a', b', c', d', e', f'⟩ := h'
  exact ⟨a'.trans a, b'.trans b, c'.trans c, d'.trans d, e'.trans e, f'.trans f⟩

/-- A literal keeps `rx_esc`, or ends the frame, which clears it (R127). -/
theorem rxLiteral_esc {s t : State} {b : Byte} {r : RxResult} (hw : s.rx.state ≠ .waitStart)
    (he : s.rx.esc = false) (h : rxLiteral b s = .ok (r, t)) : t.rx.esc = false := by
  rcases rxLiteral_cases hw h with ⟨hs, rfl, rfl⟩ | ⟨hs, h1, rfl, rfl⟩ |
    ⟨hs, h2, hp⟩ | ⟨hs, h1, h2, rfl, rfl⟩ | ⟨hs, h1, h2, rfl, rfl⟩ | ⟨hs, h1, h2, hp⟩ |
    ⟨hs, rfl, rfl⟩ | ⟨hs, h1, rfl, rfl⟩ | ⟨hs, h1, rfl, rfl⟩
  · exact he
  · rfl
  · rcases rxPayloadComplete_cases hp with ⟨_, rfl, rfl⟩ | ⟨_, rfl, rfl⟩ <;> exact he
  · exact he
  · exact he
  · rcases rxPayloadComplete_cases hp with ⟨_, rfl, rfl⟩ | ⟨_, rfl, rfl⟩ <;> exact he
  · exact he
  · exact he
  · exact he

/-- A raw reserved byte stores nothing, so it needs no room in `buf`. -/
theorem rxStep_reserved_total {s : State} {b : Byte} (hb : s.cfg.reserved b = true)
    (he : s.rx.esc = false ∨ s.rx.state = .waitStart) : ∃ p, rxStep (some b) s = .ok p := by
  by_cases hw : s.rx.state = .waitStart
  · exact ⟨_, rxStep_idle hw b⟩
  · have he := he.resolve_right hw
    by_cases hesc : b = s.cfg.esc
    · exact ⟨_, hesc ▸ rxStep_prefix hw he⟩
    · obtain rfl := (reserved_iff.1 hb).resolve_right hesc
      exact ⟨_, rxStep_unexpected hw he hesc⟩

/-- The first byte of an escape pair is dropped by an idle receiver, armed as the escape, or taken as
the literal of the escape before it; the second finds a receiver that takes it. -/
theorem rxStep_pair {s : State} {b : Byte} (hdistinct : s.cfg.start ≠ s.cfg.esc)
    (hb : s.cfg.reserved b = true) (hcnt : s.rx.state = .body → s.rx.cnt.toNat < s.cfg.cap) :
    ∃ r u p, rxStep (some s.cfg.esc) s = .ok (r, u) ∧ rxStep (some b) u = .ok p ∧
      (s.rx.state = .waitStart → u = s) ∧
      (s.rx.state ≠ .waitStart → s.rx.esc = false → u = { s with rx := { s.rx with esc := true } }) := by
  by_cases hw : s.rx.state = .waitStart
  · have hidle : rxStep (some s.cfg.esc) s = .ok (.notReceived, s) := by
      rw [rxStep_idle hw, rxIdle, if_neg hdistinct.symm]
    exact ⟨_, s, _, hidle, rxStep_idle hw b, fun _ => rfl, fun h => absurd hw h⟩
  · cases he : s.rx.esc
    · obtain ⟨p, hp⟩ := rxStep_total (s := { s with rx := { s.rx with esc := true } }) (some b) hcnt
      exact ⟨_, _, p, rxStep_prefix hw he, hp, fun h => absurd h hw, fun _ _ => rfl⟩
    · have hesc : s.cfg.reserved s.cfg.esc = true := reserved_iff.2 (.inr rfl)
      obtain ⟨⟨r, u⟩, hlit⟩ := rxLiteral_total (s := s.rxUnescaped) s.cfg.esc hcnt
      have hstep := (rxStep_escaped hw he hesc).trans hlit
      have ⟨⟨_, _, _, _, hcfg, _⟩, _⟩ := rxStep_only hstep
      obtain ⟨p, hp⟩ := rxStep_reserved_total (s := u) (by rw [hcfg]; exact hb)
        (.inl (rxLiteral_esc (s := s.rxUnescaped) hw rfl hlit))
      exact ⟨r, u, p, hstep, hp, fun h => absurd h hw, fun _ h => by cases h⟩

/-- Settles O23: the pair is two `rx_step`s; which receiver the second one meets depends on how the
first was taken. -/
theorem wireEsc : Obligations.WireEsc := by
  have hrun : ∀ (s : State) (b : Byte), exec (.wireEsc b) s = rxRun [some s.cfg.esc, some b] s :=
    fun s b => rxFeed_eq_rxRun [s.cfg.esc, b] s
  refine ⟨hrun, fun s b hdistinct hb hcnt => ?_⟩
  obtain ⟨r, u, ⟨r', t⟩, hfirst, hsecond, hidle, harmed⟩ := rxStep_pair hdistinct hb hcnt
  have hex := exec_rxStep_of_ok hfirst
  have hext := exec_rxStep_of_ok hsecond
  have hext' := (exec_rxStep_returning (some b) u (.rx r)).trans hext
  refine ⟨t.returning (.rx r'), ?_, rxOnly_trans (rxStep_only hfirst).1 (rxStep_only hsecond).1,
    fun hw he => ?_, fun _ => ⟨_, hex, hext'⟩, fun hw => ?_⟩
  · rw [hrun]
    simp only [rxRun, List.map_cons, List.map_nil, runOps, hex, hext']
  · rw [← harmed hw he]; exact hext
  · rw [← hidle hw]; exact hext

/-! ### Resynchronization (R147) -/

/-- An idle receiver drops bytes among which there is no `START` (R121). -/
theorem rxRun_noise {noise : List Byte} {s : State} (hw : s.rx.state = .waitStart)
    (hnoise : s.cfg.start ∉ noise) :
    ∃ r, rxRun (noise.map some) s = .next (s.returning r) := by
  have hsilent : Silent (noise.map some) s s := by
    induction noise with
    | nil => exact .nil s
    | cons b noise ih =>
      simp only [List.mem_cons, not_or] at hnoise
      refine .cons ?_ (ih hnoise.2)
      rw [rxStep_idle hw, rxIdle, if_neg (Ne.symm hnoise.1)]
  cases noise with
  | nil => exact ⟨s.result, rfl⟩
  | cons b noise => exact ⟨_, hsilent.run (by simp) s.result⟩

theorem rxRun_append {xs ys : List (Option Byte)} {s t : State} (h : rxRun xs s = .next t) :
    rxRun (xs ++ ys) s = rxRun ys t := by
  rw [rxRun, List.map_append]; exact runOps_append h

/-- Settles O24: the marker aborts the frame, the noise meets an idle receiver, and so does the
complete frame after it. -/
theorem rxResynchronizes : Obligations.RxResynchronizes := by
  intro s noise payload hdistinct hcap hfits hw he hnoise
  have hbroken := exec_rxStep_of_ok (rxStep_unexpected hw he hdistinct)
  refine ⟨⟨_, (rxFeed_one _ s).trans hbroken, rfl, rfl⟩, ?_⟩
  obtain ⟨r, hdropped⟩ := rxRun_noise (s := (s.rxAbort.raise .framingUnexpectedStart).returning
    (.rx .broken)) rfl hnoise
  obtain ⟨⟨t, hframe, hreceived, -⟩, -⟩ := rxReceivesFrame (((s.rxAbort.raise
    .framingUnexpectedStart).returning (.rx .broken)).returning r) payload
    ((s.cfg.frameBytes payload).map some) hdistinct hcap hfits rfl
    (by simp [List.reduceOption]) (by simp [List.getLast?_map])
  have hstart : rxRun [some s.cfg.start] s = .next ((s.rxAbort.raise
      .framingUnexpectedStart).returning (.rx .broken)) := by
    simp only [rxRun, List.map_cons, List.map_nil, runOps, hbroken]
  refine ⟨t, ?_, hreceived⟩
  rw [List.cons_append, List.map_cons, List.map_append, ← List.singleton_append,
    rxRun_append hstart, rxRun_append hdropped, hframe]

/-! ### What a delivered frame means (R24, R148) -/

/-- `buf` holds the packet of `rx_len` bytes, and where checksums are enabled the one received is its
checksum. -/
def State.Delivered (s : State) : Prop :=
  ∃ payload, payload.length = s.rx.len.toNat ∧ s.holds payload ∧
    (s.cfg.crcEnable = true → s.rx.ckrx = s.cfg.checksum (framedBytes payload))

/-- A pending escape means nothing to the other registers. -/
theorem rxOk_with_esc {s : State} (hw : s.rx.state ≠ .waitStart) (h : s.RxOk) (e : Bool) :
    ({ s with rx := { s.rx with esc := e } } : State).RxOk := by
  have hholds := holds_congr (s := s) (t := { s with rx := { s.rx with esc := e } }) rfl rfl
  simp only [State.RxOk, hholds] at h ⊢
  cases hs : s.rx.state <;> simp only [hs] at h ⊢
  case waitStart => exact absurd hs hw
  all_goals exact h

/-- An armed receiver satisfies R21. -/
theorem rxOk_of_armed {s : State} (hw : s.rx.state = .waitStart) (he : s.rx.esc = false) : s.RxOk := by
  simp only [State.RxOk, hw, he]

/-- The second length literal completes the checksum of the length (R129). -/
theorem checksum_rxLenHi {s : State} {b0 : Byte} (hlen : s.rx.len = zext16 b0)
    (hck : s.rx.ck = s.cfg.checksum [b0]) (b : Byte) :
    (s.rxLenHi b).rx.ck = s.cfg.checksum (le16 (s.rxLenHi b).rx.len) := by
  simp only [State.rxLenHi, hlen, hck, setHi8_zext16, le16_unLe16]
  exact (checksum_concat s.cfg [b0] b).symm

/-- A complete payload is delivered, or its checksum is awaited (R131). -/
theorem rxPayloadComplete_sound {s t : State} {packet : List Byte} {r : RxResult}
    (h : (r, t) = rxPayloadComplete s) (he : s.rx.esc = false) (hfits : s.rx.len.toNat ≤ s.cfg.cap)
    (hl : packet.length = s.rx.len.toNat) (hholds : s.holds packet)
    (hck : s.rx.ck = s.cfg.checksum (framedBytes packet)) :
    t.RxOk ∧ (r = .received → t.Delivered) := by
  rcases rxPayloadComplete_cases h with ⟨hc, rfl, rfl⟩ | ⟨hc, rfl, rfl⟩
  · exact ⟨⟨hc, hfits, packet, hl, holds_of_congr hholds rfl rfl, hck⟩,
      fun h => by cases h⟩
  · refine ⟨rxOk_of_armed rfl he, fun _ => ⟨packet, hl, holds_of_congr hholds rfl rfl, fun h => ?_⟩⟩
    rw [rxGo_cfg, hc] at h; cases h

/-- A literal keeps what the registers mean, and completes only a payload whose checksum agrees. -/
theorem rxLiteral_sound {s t : State} {b : Byte} {r : RxResult} (hw : s.rx.state ≠ .waitStart)
    (he : s.rx.esc = false) (hok : s.RxOk) (h : rxLiteral b s = .ok (r, t)) :
    t.RxOk ∧ (r = .received → t.Delivered) := by
  unfold State.RxOk at hok
  rcases rxLiteral_cases hw h with ⟨hs, rfl, rfl⟩ | ⟨hs, hlong, rfl, rfl⟩ |
    ⟨hs, hempty, hp⟩ | ⟨hs, hfits, hne, rfl, rfl⟩ | ⟨hs, hcap, hmore, rfl, rfl⟩ |
    ⟨hs, hcap, hlast, hp⟩ | ⟨hs, rfl, rfl⟩ | ⟨hs, hmatch, rfl, rfl⟩ | ⟨hs, hdiffer, rfl, rfl⟩ <;>
    simp only [hs] at hok
  · obtain ⟨hcnt, hck⟩ := hok
    refine ⟨⟨hcnt, b, rfl, ?_⟩, fun h => by cases h⟩
    show s.cfg.ckUpdate s.rx.ck b = _
    rw [hck]; rfl
  · exact ⟨rxOk_of_armed rfl rfl, fun h => by cases h⟩
  · obtain ⟨hcnt, b0, hlen, hck⟩ := hok
    have hzero : (s.rxLenHi b).rx.len = 0 := hempty
    refine rxPayloadComplete_sound (packet := []) hp he (by simp [hzero]) (by simp [hzero]) rfl ?_
    rw [framedBytes_of_length (w := 0) rfl, List.append_nil, ← hzero]
    exact checksum_rxLenHi hlen hck b
  · obtain ⟨hcnt, b0, hlen, hck⟩ := hok
    have hpos : 0 < (setHi8 s.rx.len b).toNat :=
      Nat.pos_of_ne_zero fun h0 => hne (BitVec.eq_of_toNat_eq h0)
    refine ⟨⟨?_, hfits, [], ?_, rfl, ?_⟩, fun h => by cases h⟩
    · show s.rx.cnt.toNat < (setHi8 s.rx.len b).toNat
      rw [hcnt]; exact hpos
    · show 0 = s.rx.cnt.toNat
      rw [hcnt]; rfl
    · rw [List.append_nil]; exact checksum_rxLenHi hlen hck b
  · obtain ⟨hlt, hfits, stored, hl, hholds, hck⟩ := hok
    have hcnt := toNat_succ_of_lt hlt
    have hne : s.rx.cnt.toNat + 1 ≠ s.rx.len.toNat := fun h => hmore ((succ_eq_iff hlt).2 h)
    have hstate : (s.rxStore b).rx.state = .body := hs
    refine ⟨?_, fun h => by cases h⟩
    simp only [State.RxOk, hstate]
    refine ⟨?_, hfits, stored ++ [b], ?_, holds_store (s := s) rfl rfl hl hcap hholds, ?_⟩
    · rw [rxStore_rx]; simp only [hcnt]; omega
    · rw [rxStore_rx, List.length_append, hl]; exact hcnt.symm
    · rw [rxStore_rx, ← List.append_assoc]
      simp only [hck, rxStore_cfg]
      exact (checksum_concat _ _ b).symm
  · obtain ⟨hlt, hfits, stored, hl, hholds, hck⟩ := hok
    have hlen : (stored ++ [b]).length = s.rx.len.toNat := by
      rw [List.length_append, hl]; exact (succ_eq_iff hlt).1 hlast
    refine rxPayloadComplete_sound hp he hfits hlen (holds_store (s := s) rfl rfl hl hcap hholds) ?_
    rw [framedBytes_of_length hlen, rxStore_rx, ← List.append_assoc]
    simp only [hck, rxStore_cfg]
    exact (checksum_concat _ _ b).symm
  · obtain ⟨hc, hfits, packet, hl, hholds, hck⟩ := hok
    exact ⟨⟨hc, hfits, ⟨b, rfl⟩, packet, hl, holds_of_congr hholds rfl rfl, hck⟩,
      fun h => by cases h⟩
  · obtain ⟨hc, hfits, -, packet, hl, hholds, hck⟩ := hok
    exact ⟨rxOk_of_armed rfl he,
      fun _ => ⟨packet, hl, holds_of_congr hholds rfl rfl, fun _ => hmatch.trans hck⟩⟩
  · exact ⟨rxOk_of_armed rfl he, fun h => by cases h⟩

/-- Every `rx_step` keeps what the registers mean, and delivers only what it received (R24, R148). -/
theorem rxStep_sound {input : Option Byte} {s t : State} {r : RxResult} (hok : s.RxOk)
    (h : rxStep input s = .ok (r, t)) : t.RxOk ∧ (r = .received → t.Delivered) := by
  rcases rxStep_cases h with ⟨rfl, rfl, rfl⟩ | ⟨b, rfl, hw, rfl, rfl⟩ | ⟨rfl, hw, he, rfl, rfl⟩ |
    ⟨b, rfl, hw, he, hb, rfl, rfl⟩ | ⟨rfl, hw, he, rfl, rfl⟩ | ⟨b, rfl, hw, hb, hl⟩
  · exact ⟨hok, fun h => by cases h⟩
  · refine ⟨?_, fun h => by cases h⟩
    unfold rxIdle
    split
    · exact ⟨rfl, rfl⟩
    · exact hok
  · exact ⟨rxOk_with_esc hw hok true, fun h => by cases h⟩
  · exact ⟨rxOk_of_armed rfl rfl, fun h => by cases h⟩
  · exact ⟨rxOk_of_armed rfl rfl, fun h => by cases h⟩
  · exact rxLiteral_sound (s := s.rxUnescaped) hw rfl (rxOk_with_esc hw hok false) hl

/-- Settles O25. -/
theorem rxSound : Obligations.RxSound := by
  intro s t input _ hok h
  obtain ⟨r, u, hstep, rfl⟩ := exec_rxStep_next h
  obtain ⟨hkept, hdelivered⟩ := rxStep_sound hok hstep
  have ⟨⟨_, _, _, _, hcfg, _⟩, _⟩ := rxStep_only hstep
  refine ⟨rxOk_of_congr hkept rfl rfl rfl, fun hres => ?_⟩
  obtain ⟨payload, hl, hholds, hck⟩ := hdelivered (by cases hres; rfl)
  exact ⟨payload, hl, holds_of_congr hholds rfl rfl, by rw [← hcfg]; exact hck⟩

end Sys2Proof.Machine
end

section
/-! Proofs for spec/41_frame_transmitter.md: `tx_begin` (R161), what a `tx_step` does and leaves alone
(R163 to R168), what the transmitter's registers mean (R26 to R30), and the frame it sends (R180). -/

namespace Sys2Proof.Machine

/-! ### `tx_begin` (R161) -/

theorem exec_txBegin_of_error {s : State} {n : Nat} {r : Refusal} (h : txBegin n s = .error r) :
    exec (.opTxBegin n) s = .refused r := by
  simp only [exec, execOpTxBegin, h]

theorem exec_txBegin_of_holds {s : State} {packet : List Byte} (hfits : packet.length ≤ s.cfg.cap)
    (h : s.holds packet) : exec (.opTxBegin packet.length) s = .next (txLoad packet s) := by
  simp only [exec, execOpTxBegin, txBegin_eq hfits h]

/-- Settles O26. -/
theorem txBegin_holds : Obligations.TxBegin := by
  rintro s n packet hfits hcap rfl h
  exact ⟨_, exec_txBegin_of_holds hfits h, txLoad_loaded (by omega)⟩

theorem txBegin_long {s : State} {n : Nat} (h : s.cfg.cap < n) :
    txBegin n s = .error (.packetTooLong n) := if_pos h

/-- A packet with an unwritten byte cannot be read, so it is refused (R43). -/
theorem txBegin_unwritten {s : State} {n i : Nat} (hfits : n ≤ s.cfg.cap) (hi : i < n)
    (hnone : memGet? s.buf i = none) : txBegin n s = .error (.packetUnwritten n) := by
  rcases txBegin_cases n s with ⟨hlong, -⟩ | ⟨-, -, h⟩ | ⟨-, packet, hread, -⟩
  · omega
  · exact h
  · obtain ⟨hl, hbytes⟩ := bufGetBytes_ok_iff.1 hread
    obtain ⟨-, hbyte⟩ := hbytes i hi
    rw [Nat.zero_add, hnone, List.getElem?_eq_getElem (by omega)] at hbyte
    cases hbyte

/-! ### One `tx_step` (R163 to R168) -/

/-- A `tx_step` writes the transmitter's registers, the transmit stream, the sink's answers and the
trace, in which it logs calls of the sink only. -/
theorem txStep_only {s t : State} {r : TxResult} (h : txStep s = .ok (r, t)) :
    ∃ tx env events, t = { s with tx := tx, env := env, trace := s.trace ++ events } ∧
      env.flash = s.env.flash ∧ env.confirmed = s.env.confirmed ∧ env.serialIn = s.env.serialIn ∧
      ∀ e ∈ events, ∃ b ok, e = .serialPut b ok := by
  rcases txStep_cases h with ⟨-, -, ht⟩ | ⟨-, b, ok, ready, drawn, tx, -, rfl, -⟩
  · exact ⟨s.tx, s.env, [], by rw [List.append_nil, ht], rfl, rfl, rfl, by simp⟩
  · exact ⟨tx, _, [.serialPut b ok], rfl, rfl, rfl, rfl,
      fun e he => ⟨b, ok, List.mem_singleton.1 he⟩⟩

theorem txStep_of_unreadable {s : State} {f : Fault} (hs : s.tx.state = .body)
    (h : s.bufGet s.tx.idx.toNat = .error f) : txStep s = .error f := by
  simp only [txStep, hs, h]

theorem exec_txStep_of_error {s : State} {f : Fault} (h : txStep s = .error f) :
    exec .opTxStep s = .fault f := by
  simp only [exec, execOpTxStep, h]

/-- Settles O31. -/
theorem txCompletes : Obligations.TxCompletes := by
  refine ⟨fun s f hs h => exec_txStep_of_error (txStep_of_unreadable hs h), fun s hread => ?_⟩
  obtain ⟨⟨r, t⟩, hstep⟩ := txStep_total hread
  refine ⟨_, exec_txStep_of_ok hstep, ?_⟩
  rcases txStep_cases hstep with ⟨hdone, rfl, rfl⟩ | ⟨hne, b, ok, ready, drawn, tx, -, rfl, rfl, -⟩
  · simp [hdone]
  · refine ⟨?_, ?_, fun h => absurd h hne, fun _ => ⟨b, ok, rfl, rfl⟩, rfl, rfl, rfl, rfl, rfl, rfl,
      rfl, rfl⟩ <;> by_cases htx : tx.state = .done <;> simp [htx]

section
variable {s : State} {cur : Byte} {rest : List Bool}

/-- A refused offer of a logical byte (R164). -/
theorem txEmit_busy (hready : s.env.sinkReady = false :: rest) :
    ∃ t, txEmit cur s = (.notTransmitted, t) ∧ t.returning (.tx .notTransmitted) = s.offered
      (if s.cfg.reserved cur ∧ s.tx.escSent = false then s.cfg.esc else cur) false rest s.tx
      .notTransmitted := by
  by_cases h : s.cfg.reserved cur = true ∧ s.tx.escSent = false
  · simp only [txEmit, h, sink_listed hready, and_self, if_true, Bool.not_false, Bool.and_self]
    exact ⟨_, rfl, rfl⟩
  · have hb : ¬(s.cfg.reserved cur && !s.tx.escSent) = true := by simpa using h
    simp only [txEmit, if_neg hb, if_neg h, sink_listed hready]
    exact ⟨_, rfl, rfl⟩

/-- An accepted `ESC` before a reserved byte (R167). -/
theorem txEmit_escape (hready : s.env.sinkReady = true :: rest) (hr : s.cfg.reserved cur = true)
    (he : s.tx.escSent = false) :
    ∃ t, txEmit cur s = (.notTransmitted, t) ∧ t.returning (.tx .notTransmitted) =
      s.offered s.cfg.esc true rest { s.tx with escSent := true } .notTransmitted := by
  simp only [txEmit, hr, he, sink_listed hready, if_true, Bool.not_false, Bool.and_self]
  exact ⟨_, rfl, rfl⟩

/-- An accepted logical byte, which needs no `ESC` or has had it (R167, R168). -/
theorem txEmit_literal (hready : s.env.sinkReady = true :: rest)
    (h : s.cfg.reserved cur = false ∨ s.tx.escSent = true) :
    ∃ t, txEmit cur s = (txResult t, t) ∧ t.returning (.tx (txResult t)) =
      s.offered cur true rest (TxRegs.advanced s.cfg { s.tx with escSent := false })
        (if (TxRegs.advanced s.cfg { s.tx with escSent := false }).state = .done then .transmitted
          else .notTransmitted) := by
  have hb : ¬(s.cfg.reserved cur && !s.tx.escSent) = true := by rcases h with h | h <;> simp [h]
  simp only [txEmit, if_neg hb, sink_listed hready, txAdvance_eq]
  exact ⟨_, rfl, rfl⟩

end

/-- Settles O29: the refused offer of a logical byte, and any refused offer. -/
theorem txBusy : Obligations.TxBusy := by
  refine ⟨fun s cur rest hcur hready => ?_, fun s t rest hne hready h => ?_⟩
  · obtain ⟨t, hemit, hoffered⟩ := txEmit_busy (cur := cur) hready
    rw [← hoffered]
    exact exec_txStep_of_ok ((txStep_logical hcur).trans (congrArg _ hemit))
  · obtain ⟨r, u, hstep, rfl⟩ := exec_txStep_next h
    rcases txStep_cases hstep with ⟨hdone, -⟩ |
      ⟨-, b, ok, ready, drawn, tx, hsinks, rfl, rfl, hcase⟩
    · exact absurd hdone hne
    · obtain ⟨rfl, rfl, rfl⟩ := hsinks _ _ hready
      rcases hcase with ⟨-, rfl⟩ | ⟨hok, -⟩ | ⟨_, -, -, hok, -⟩
      · exact ⟨rfl, by simp [hne], rfl⟩
      · cases hok
      · cases hok

/-- Settles O30: the registers after an accepted logical byte are `TxRegs.advanced`. -/
theorem txAccepted : Obligations.TxAccepted := by
  intro s cur rest hcur hready after
  refine ⟨fun hr he => ?_, fun h => ⟨TxRegs.advanced s.cfg { s.tx with escSent := false }, ?_, ?_⟩⟩
  · obtain ⟨t, hemit, hoffered⟩ := txEmit_escape hready hr he
    rw [← hoffered]
    exact exec_txStep_of_ok ((txStep_logical hcur).trans (congrArg _ hemit))
  · obtain ⟨t, hemit, hoffered⟩ := txEmit_literal hready h
    rw [← hoffered]
    exact exec_txStep_of_ok ((txStep_logical hcur).trans (congrArg _ hemit))
  · refine ⟨advanced_escSent _ _, advanced_len _ _, advanced_ck _ _, ?_⟩
    cases hs : s.tx.state <;> simp [TxRegs.advanced, hs, Config.txAfterBody, after]

/-! ### What the transmitter's registers mean (R26 to R30) -/

theorem txPacket_of_congr {s t : State} (h : s.TxPacket) (hc : t.cfg = s.cfg) (hb : t.buf = s.buf)
    (hl : t.tx.len = s.tx.len) (hk : t.tx.ck = s.tx.ck) : t.TxPacket := by
  simp only [State.TxPacket, hc, hl, hk, holds_congr hc hb]
  exact h

theorem txOk_of_congr {s t : State} (h : s.TxOk) (ht : t.tx = s.tx) (hc : t.cfg = s.cfg)
    (hb : t.buf = s.buf) : t.TxOk := by
  simp only [State.TxOk, State.TxPacket, ht, hc, holds_congr hc hb]
  exact h

/-- Until the frame has gone out its packet stands in `buf`. -/
theorem txPacket_of_txOk {s : State} (h : s.TxOk) (hne : s.tx.state ≠ .done) : s.TxPacket := by
  unfold State.TxOk at h
  cases hs : s.tx.state <;> simp only [hs] at h
  case done => exact absurd hs hne
  all_goals exact h.1

/-- The state after the body (R168) is one of the two that may follow it. -/
theorem txOk_afterBody {s : State} (hs : s.tx.state = Config.txAfterBody s.cfg) (hp : s.TxPacket)
    (he : s.tx.escSent = false) : s.TxOk := by
  unfold Config.txAfterBody at hs
  cases hc : s.cfg.crcEnable <;> simp only [hc, if_true, Bool.false_eq_true, if_false] at hs <;>
    simp only [State.TxOk, hs]
  · exact he
  · exact ⟨hp, hc⟩

/-- The advance after an accepted literal keeps what the registers mean (R168). -/
theorem txOk_of_advanced {s t : State} (h : s.TxOk) (hne : s.tx.state ≠ .done)
    (ht : t.tx = TxRegs.advanced s.cfg { s.tx with escSent := false }) (hc : t.cfg = s.cfg)
    (hb : t.buf = s.buf) : t.TxOk := by
  have hp : t.TxPacket := txPacket_of_congr (txPacket_of_txOk h hne) hc hb (by simp [ht]) (by simp [ht])
  have he : t.tx.escSent = false := by simp [ht]
  unfold State.TxOk at h
  cases hs : s.tx.state <;> simp only [hs] at h <;> simp only [TxRegs.advanced, hs, ← hc] at ht
  case done => exact absurd hs hne
  case start =>
    simp only [State.TxOk, ht]
    exact ⟨hp, h.2.2⟩
  case lenLo =>
    simp only [State.TxOk, ht]
    exact ⟨hp, h.2⟩
  case lenHi =>
    by_cases hl : s.tx.len = 0
    · exact txOk_afterBody (by rw [ht, if_pos hl]) hp he
    · rw [if_neg hl] at ht
      simp only [State.TxOk, ht, h.2]
      exact ⟨hp, Nat.pos_of_ne_zero fun h0 => hl (BitVec.eq_of_toNat_eq h0)⟩
  case body =>
    obtain ⟨-, hlt⟩ := h
    by_cases hl : s.tx.idx + 1 = s.tx.len
    · exact txOk_afterBody (by rw [ht, if_pos hl]) hp he
    · rw [if_neg hl] at ht
      have hne' : s.tx.idx.toNat + 1 ≠ s.tx.len.toNat := fun h => hl ((succ_eq_iff hlt).2 h)
      simp only [State.TxOk, ht]
      refine ⟨hp, ?_⟩
      rw [toNat_succ_of_lt hlt]; omega
  case crcLo =>
    simp only [State.TxOk, ht]
    exact ⟨hp, hc ▸ h.2⟩
  case crcHi =>
    simp only [State.TxOk, ht]

/-- Whether the `ESC` of a logical byte has been sent matters to no other register. -/
theorem txOk_of_escape {s t : State} {cur : Byte} (h : s.TxOk) (hcur : s.logicalByte = some cur)
    (ht : t.tx = { s.tx with escSent := true }) (hc : t.cfg = s.cfg) (hb : t.buf = s.buf) : t.TxOk := by
  simp only [State.TxOk, State.TxPacket, ht, hc, holds_congr hc hb] at h ⊢
  cases hs : s.tx.state <;> simp only [hs] at h ⊢
  case start => simp [State.logicalByte, hs] at hcur
  case done => simp [State.logicalByte, hs] at hcur
  all_goals exact h

theorem txStep_sound {s t : State} {r : TxResult} (h : s.TxOk) (hstep : txStep s = .ok (r, t)) :
    t.TxOk := by
  rcases txStep_cases hstep with ⟨-, -, rfl⟩ | ⟨hne, b, ok, ready, drawn, tx, -, rfl, -, hcase⟩
  · exact h
  · rcases hcase with ⟨-, rfl⟩ | ⟨-, hs, -, rfl⟩ | ⟨cur, hcur, -, -, hcase⟩
    · exact txOk_of_congr h rfl rfl rfl
    · have he : { s.tx with escSent := false } = s.tx := by
        simp only [State.TxOk, hs] at h
        rw [← h.2.1]
      exact txOk_of_advanced h hne (by rw [he]) rfl rfl
    · rcases hcase with ⟨-, -, -, rfl⟩ | ⟨-, -, rfl⟩
      · exact txOk_of_escape h hcur rfl rfl rfl
      · exact txOk_of_advanced h hne rfl rfl rfl

/-- What `tx_begin` leaves of a packet that `buf` holds (R161). -/
theorem txOk_txLoad {s : State} {packet : List Byte} (hfits : packet.length ≤ s.cfg.cap)
    (hcap : s.cfg.cap ≤ 65535) (h : s.holds packet) : (txLoad packet s).TxOk := by
  have hlen : (txLoad packet s).tx.len.toNat = packet.length := by
    show (BitVec.ofNat 16 packet.length).toNat = packet.length
    rw [BitVec.toNat_ofNat]; omega
  refine ⟨⟨?_, packet, hlen.symm, holds_of_congr h rfl rfl, fun hc => ?_⟩, rfl, rfl⟩
  · rw [hlen]; exact hfits
  · exact if_pos hc

/-- Under R28 and R29 the payload byte to send can be read. -/
theorem bufGet_of_txOk {s : State} (h : s.TxOk) (hs : s.tx.state = .body) :
    ∃ b, s.bufGet s.tx.idx.toNat = .ok b := by
  simp only [State.TxOk, hs] at h
  obtain ⟨⟨-, packet, hl, hholds, -⟩, hlt⟩ := h
  obtain ⟨-, hbytes⟩ := bufGetBytes_ok_iff.1 hholds
  obtain ⟨hcap, hbyte⟩ := hbytes s.tx.idx.toNat (by omega)
  rw [Nat.zero_add] at hcap hbyte
  exact ⟨packet[s.tx.idx.toNat]'(by omega), bufGet_ok_iff.2 ⟨hcap, by
    rw [hbyte, List.getElem?_eq_getElem]⟩⟩

/-! ### The frame on the wire (R180) -/

/-- The literals of the frame's body that are still to be sent. -/
def TxRegs.literals (c : Config) (packet : List Byte) (tx : TxRegs) : List Byte :=
  let ck := if c.crcEnable then le16 tx.ck else []
  match tx.state with
  | .start => le16 tx.len ++ packet ++ ck
  | .lenLo => le16 tx.len ++ packet ++ ck
  | .lenHi => hi8 tx.len :: packet ++ ck
  | .body => packet.drop tx.idx.toNat ++ ck
  | .crcLo => [lo8 tx.ck, hi8 tx.ck]
  | .crcHi => [hi8 tx.ck]
  | .done => []

/-- The bytes of the frame that the sink has still to accept. -/
def TxRegs.wire (c : Config) (packet : List Byte) (tx : TxRegs) : List Byte :=
  if tx.state = .start then c.start :: c.escape (tx.literals c packet)
  else (c.escape (tx.literals c packet)).drop (if tx.escSent then 1 else 0)

/-- The transmitter is sending `packet`, which is what `buf` holds; an `ESC` that has gone out belongs
to the literal next to be sent (R27, R162). -/
structure Sending (packet : List Byte) (s : State) : Prop where
  ok : s.TxOk
  len : s.tx.len.toNat = packet.length
  holds : s.holds packet
  ck : s.cfg.crcEnable = true → s.tx.ck = s.cfg.checksum (framedBytes packet)
  escaped : s.tx.escSent = true → ∃ cur, s.logicalByte = some cur ∧ s.cfg.reserved cur = true

theorem literals_afterBody (c : Config) (packet : List Byte) (tx : TxRegs) :
    { tx with state := Config.txAfterBody c }.literals c packet =
      if c.crcEnable then le16 tx.ck else [] := by
  cases hc : c.crcEnable <;> simp [TxRegs.literals, Config.txAfterBody, hc, le16]

/-- The logical byte of a state is the first literal still to be sent, and the advance leaves the
others. -/
theorem literals_cons {packet : List Byte} {s : State} {cur : Byte} (h : Sending packet s)
    (hcur : s.logicalByte = some cur) :
    s.tx.literals s.cfg packet = cur :: (s.tx.advanced s.cfg).literals s.cfg packet := by
  have hok := h.ok
  have hlen := h.len
  unfold State.logicalByte at hcur
  unfold State.TxOk at hok
  cases hs : s.tx.state <;> simp only [hs, reduceCtorEq, Option.some.injEq] at hcur hok
  case lenLo => simp [TxRegs.advanced, TxRegs.literals, hs, le16, hcur]
  case lenHi =>
    by_cases hzero : s.tx.len = 0
    · have hnil : packet = [] := by
        rw [hzero] at hlen; exact List.length_eq_zero_iff.1 hlen.symm
      simp only [TxRegs.advanced, hs, if_pos hzero, literals_afterBody]
      simp [TxRegs.literals, hs, hcur, hnil]
    · simp only [TxRegs.advanced, hs, if_neg hzero]
      simp [TxRegs.literals, hs, hcur, hok.2]
  case body =>
    obtain ⟨-, hlt⟩ := hok
    have hbyte : packet[s.tx.idx.toNat]? = some cur := by
      obtain ⟨-, hbytes⟩ := bufGetBytes_zero_ok_iff.1 h.holds
      split at hcur
      · rw [← hbytes _ (by omega)]; exact hcur
      · cases hcur
    obtain ⟨hidx, hbyte⟩ := List.getElem?_eq_some_iff.1 hbyte
    have hfirst : s.tx.literals s.cfg packet = cur :: (packet.drop (s.tx.idx.toNat + 1) ++
        if s.cfg.crcEnable then le16 s.tx.ck else []) := by
      simp only [TxRegs.literals, hs, List.drop_eq_getElem_cons hidx, hbyte, List.cons_append]
    rw [hfirst]
    by_cases hlast : s.tx.idx + 1 = s.tx.len
    · have hnil : packet.drop (s.tx.idx.toNat + 1) = [] :=
        List.drop_eq_nil_of_le (by rw [(succ_eq_iff hlt).1 hlast]; omega)
      have := literals_afterBody s.cfg packet { s.tx with idx := s.tx.idx + 1 }
      simp only [TxRegs.advanced, hs, if_pos hlast, this, hnil, List.nil_append]
    · simp only [TxRegs.advanced, hs, if_neg hlast, TxRegs.literals, toNat_succ_of_lt hlt]
  case crcLo => simp [TxRegs.advanced, TxRegs.literals, hs, hcur]
  case crcHi => simp [TxRegs.advanced, TxRegs.literals, hs, hcur]

theorem literals_with_esc (c : Config) (packet : List Byte) (tx : TxRegs) (e : Bool) :
    { tx with escSent := e }.literals c packet = tx.literals c packet := by
  unfold TxRegs.literals; cases tx.state <;> rfl

theorem advanced_with_esc (c : Config) (tx : TxRegs) (e : Bool) :
    TxRegs.advanced c { tx with escSent := e } = { tx.advanced c with escSent := e } := by
  obtain ⟨state, escSent, len, idx, ck⟩ := tx
  cases state <;> rfl

/-- While a packet is sent, the marker is next, a literal is, or nothing is left. -/
theorem Sending.cases {packet : List Byte} {s : State} (h : Sending packet s) :
    s.tx.state = .start ∨ s.tx.state = .done ∨ ∃ cur, s.logicalByte = some cur := by
  rcases logicalByte_cases s with hcur | hs | hs | ⟨hs, hunreadable⟩
  · exact .inr (.inr hcur)
  · exact .inl hs
  · exact .inr (.inl hs)
  · obtain ⟨b, hb⟩ := bufGet_of_txOk h.ok hs
    exact absurd hb (hunreadable b)

theorem logicalByte_ne {s : State} {cur : Byte} (h : s.logicalByte = some cur) :
    s.tx.state ≠ .start ∧ s.tx.state ≠ .done := by
  constructor <;> intro hs <;> simp [State.logicalByte, hs] at h

theorem wire_start {c : Config} {packet : List Byte} {tx : TxRegs} (hs : tx.state = .start)
    (he : tx.escSent = false) : tx.wire c packet = c.start :: (tx.advanced c).wire c packet := by
  simp [TxRegs.wire, TxRegs.advanced, TxRegs.literals, hs, he]

section
variable {packet : List Byte} {s : State} {cur : Byte} (h : Sending packet s)
  (hcur : s.logicalByte = some cur)
include h hcur

/-- The `ESC` of a reserved literal goes first (R87). -/
theorem wire_escape (hr : s.cfg.reserved cur = true) (he : s.tx.escSent = false) :
    s.tx.wire s.cfg packet = s.cfg.esc :: { s.tx with escSent := true }.wire s.cfg packet := by
  have hns := (logicalByte_ne hcur).1
  simp only [TxRegs.wire, if_neg hns, he, literals_with_esc, literals_cons h hcur, escape_cons,
    escapeByte_reserved hr]
  rfl

/-- A literal that needs no `ESC`, or whose `ESC` has gone out. -/
theorem wire_literal (hlit : s.cfg.reserved cur = false ∨ s.tx.escSent = true) :
    s.tx.wire s.cfg packet =
      cur :: (TxRegs.advanced s.cfg { s.tx with escSent := false }).wire s.cfg packet := by
  have hns := (logicalByte_ne hcur).1
  have hafter : (TxRegs.advanced s.cfg { s.tx with escSent := false }).wire s.cfg packet =
      s.cfg.escape ((s.tx.advanced s.cfg).literals s.cfg packet) := by
    rw [TxRegs.wire, if_neg (advanced_state_ne_start _ _), advanced_escSent, advanced_with_esc,
      literals_with_esc]
    rfl
  rw [hafter, TxRegs.wire, if_neg hns, literals_cons h hcur, escape_cons]
  cases he : s.tx.escSent
  · rw [escapeByte_literal (hlit.resolve_right (by simp [he]))]; rfl
  · obtain ⟨cur', hcur', hr⟩ := h.escaped he
    obtain rfl := Option.some.inj (hcur.symm.trans hcur')
    rw [escapeByte_reserved hr]; rfl

end

/-- Only a finished transmission has nothing left to send. -/
theorem wire_eq_nil_iff {packet : List Byte} {s : State} (h : Sending packet s) :
    s.tx.wire s.cfg packet = [] ↔ s.tx.state = .done := by
  constructor
  · intro hnil
    rcases h.cases with hs | hs | ⟨cur, hcur⟩
    · simp [TxRegs.wire, hs] at hnil
    · exact hs
    · by_cases hr : s.cfg.reserved cur = true ∧ s.tx.escSent = false
      · rw [wire_escape h hcur hr.1 hr.2] at hnil; cases hnil
      · rw [wire_literal h hcur (by simpa [← Bool.not_eq_true, or_iff_not_imp_left] using hr)] at hnil
        cases hnil
  · intro hs; simp [TxRegs.wire, TxRegs.literals, hs]

/-- What a `tx_step` returns, by the state it leaves (R168, R169). -/
def TxRegs.verdict (tx : TxRegs) : OpResult :=
  .tx (if tx.state = .done then .transmitted else .notTransmitted)

/-- From `s` to `t` the sink accepted `out`, the first bytes of what was to be sent of `packet`, and
`rest` is what it will answer. -/
structure Sent (packet : List Byte) (s t : State) (out : List Byte) (rest : List Bool) : Prop where
  sending : Sending packet t
  wire : s.tx.wire s.cfg packet = out ++ t.tx.wire t.cfg packet
  serialOut : t.env.serialOut = s.env.serialOut ++ out
  ready : t.env.sinkReady = rest
  buf : t.buf = s.buf

theorem Sent.trans {packet out out' : List Byte} {s t u : State} {rest rest' : List Bool}
    (h : Sent packet s t out rest) (h' : Sent packet t u out' rest') :
    Sent packet s u (out ++ out') rest' where
  sending := h'.sending
  wire := by rw [h.wire, h'.wire, List.append_assoc]
  serialOut := by rw [h'.serialOut, h.serialOut, List.append_assoc]
  ready := h'.ready
  buf := h'.buf.trans h.buf

theorem logicalByte_with_esc {s t : State} {e : Bool} (ht : t.tx = { s.tx with escSent := e })
    (hc : t.cfg = s.cfg) (hb : t.buf = s.buf) : t.logicalByte = s.logicalByte := by
  simp only [State.logicalByte, ht, hc, hb]

theorem Sending.of_kept {packet : List Byte} {s t : State} (h : Sending packet s) (hok : t.TxOk)
    (hc : t.cfg = s.cfg) (hb : t.buf = s.buf) (hl : t.tx.len = s.tx.len) (hk : t.tx.ck = s.tx.ck)
    (hesc : t.tx.escSent = true → ∃ cur, t.logicalByte = some cur ∧ t.cfg.reserved cur = true) :
    Sending packet t where
  ok := hok
  len := hl ▸ h.len
  holds := holds_of_congr h.holds hc hb
  ck := by rw [hc, hk]; exact h.ck
  escaped := hesc

/-- What the transmitter's registers become with one offer, answered `ok`: nothing changes, the marker
or an `ESC` has gone out, or a literal has. -/
inductive Offered (s : State) (ok : Bool) (b : Byte) (tx : TxRegs) : Prop where
  | refused (hok : ok = false) (htx : tx = s.tx)
  | marker (hok : ok = true) (hs : s.tx.state = .start) (hb : b = s.cfg.start)
      (htx : tx = s.tx.advanced s.cfg)
  | escape (cur : Byte) (hok : ok = true) (hcur : s.logicalByte = some cur)
      (hr : s.cfg.reserved cur = true) (he : s.tx.escSent = false) (hb : b = s.cfg.esc)
      (htx : tx = { s.tx with escSent := true })
  | literal (hok : ok = true) (hcur : s.logicalByte = some b)
      (h : s.cfg.reserved b = false ∨ s.tx.escSent = true)
      (htx : tx = TxRegs.advanced s.cfg { s.tx with escSent := false })

/-- A `tx_step` where the sink's next answer is listed. -/
theorem txStep_offered {s t : State} {r : TxResult} {ok : Bool} {rest : List Bool}
    (hstep : txStep s = .ok (r, t)) (hne : s.tx.state ≠ .done) (hready : s.env.sinkReady = ok :: rest) :
    ∃ b, Offered s ok b t.tx ∧ t.cfg = s.cfg ∧ t.buf = s.buf ∧ .tx r = t.tx.verdict ∧
      t.env.sinkReady = rest ∧ t.env.serialOut = s.env.serialOut ++ if ok then [b] else [] := by
  rcases txStep_cases hstep with ⟨hdone, -⟩ | ⟨-, b, ok', ready, drawn, tx, hsinks, rfl, rfl, hcase⟩
  · exact absurd hdone hne
  · obtain ⟨rfl, rfl, rfl⟩ := hsinks _ _ hready
    refine ⟨b, ?_, rfl, rfl, rfl, rfl, by cases ok' <;> simp⟩
    rcases hcase with ⟨hok, htx⟩ | ⟨hok, hs, hb, htx⟩ |
      ⟨cur, hcur, -, hok, ⟨hr, he, hb, htx⟩ | ⟨h, rfl, htx⟩⟩
    · exact .refused hok htx
    · exact .marker hok hs hb htx
    · exact .escape cur hok hcur hr he hb htx
    · exact .literal hok hcur h htx

/-- One step sends one byte where the sink accepts it, and nothing otherwise. -/
theorem Sending.step {packet : List Byte} {s : State} {ok : Bool} {rest : List Bool}
    (h : Sending packet s) (hne : s.tx.state ≠ .done) (hready : s.env.sinkReady = ok :: rest) :
    ∃ t out, exec .opTxStep s = .next t ∧ Sent packet s t out rest ∧
      out.length = [ok].count true ∧ t.result = t.tx.verdict := by
  obtain ⟨⟨r, t⟩, hstep⟩ := txStep_total fun hs => bufGet_of_txOk h.ok hs
  have hok := txStep_sound h.ok hstep
  obtain ⟨b, hoffered, hc, hb, hr, hrest, hout⟩ := txStep_offered hstep hne hready
  refine ⟨_, if ok then [b] else [], exec_txStep_of_ok hstep, ?_, by cases ok <;> rfl, hr⟩
  have sent (hsending : Sending packet t)
      (hwire : s.tx.wire s.cfg packet = (if ok then [b] else []) ++ t.tx.wire s.cfg packet) :
      Sent packet s (t.returning (.tx r)) (if ok then [b] else []) rest :=
    ⟨hsending.of_kept (txOk_of_congr hok rfl rfl rfl) rfl rfl rfl rfl hsending.escaped,
      by rw [returning_cfg, hc]; exact hwire, hout, hrest, hb⟩
  cases hoffered with
  | refused hno htx =>
    refine sent (h.of_kept hok hc hb (by rw [htx]) (by rw [htx]) fun he => ?_) (by rw [hno, htx]; rfl)
    rw [logicalByte_with_esc (e := s.tx.escSent) htx hc hb, hc]
    exact h.escaped (htx ▸ he)
  | marker hyes hs hstart htx =>
    have he : s.tx.escSent = false := by
      have := h.ok
      simp only [State.TxOk, hs] at this
      exact this.2.1
    refine sent (h.of_kept hok hc hb (by simp [htx]) (by simp [htx]) fun he' => ?_) ?_
    · rw [htx, advanced_escSent, he] at he'; cases he'
    · rw [wire_start hs he, hyes, hstart, htx]; rfl
  | escape cur hyes hcur hres he hesc htx =>
    refine sent (h.of_kept hok hc hb (by rw [htx]) (by rw [htx]) fun _ => ?_) ?_
    · rw [logicalByte_with_esc htx hc hb, hc]
      exact ⟨cur, hcur, hres⟩
    · rw [wire_escape h hcur hres he, hyes, hesc, htx]; rfl
  | literal hyes hcur hlit htx =>
    refine sent (h.of_kept hok hc hb (by simp [htx]) (by simp [htx]) fun he' => ?_) ?_
    · rw [htx, advanced_escSent] at he'; cases he'
    · rw [wire_literal h hcur hlit, hyes, htx]; rfl

/-- A run of steps sends one byte for each acceptance, as long as the frame does not end before the
answers do. -/
theorem Sending.run {packet : List Byte} {answers rest : List Bool} {s : State}
    (h : Sending packet s) (hready : s.env.sinkReady = answers ++ rest)
    (hlong : answers.dropLast.count true < (s.tx.wire s.cfg packet).length) :
    ∃ t out, runOps (List.replicate answers.length .opTxStep) s = .next t ∧
      Sent packet s t out rest ∧ out.length = answers.count true ∧
      (answers ≠ [] → t.result = t.tx.verdict) := by
  induction answers generalizing s with
  | nil =>
    exact ⟨s, [], rfl, ⟨h, rfl, by rw [List.append_nil], hready, rfl⟩, rfl, fun h => absurd rfl h⟩
  | cons a answers ih =>
    have hne : s.tx.state ≠ .done := fun hs => by
      rw [(wire_eq_nil_iff h).2 hs] at hlong; cases hlong
    obtain ⟨t, out, hstep, hsent, hlen, hres⟩ := h.step hne hready
    cases answers with
    | nil =>
      refine ⟨t, out, ?_, hsent, hlen, fun _ => hres⟩
      simp only [List.length_singleton, List.replicate_one, runOps, hstep]
    | cons a' answers =>
      have hlong' : (a' :: answers).dropLast.count true < (t.tx.wire t.cfg packet).length := by
        rw [hsent.wire, List.length_append, hlen, List.dropLast_cons_cons, ← List.singleton_append,
          List.count_append] at hlong
        omega
      obtain ⟨u, out', hrun, hsent', hlen', hres'⟩ := ih hsent.sending hsent.ready hlong'
      refine ⟨u, out ++ out', ?_, hsent.trans hsent', ?_, fun _ => hres' (by simp)⟩
      · rw [List.length_cons, List.replicate_succ, runOps, hstep]; exact hrun
      · rw [List.length_append, hlen, hlen', ← List.count_append]; rfl

/-- `tx_begin` is about to send the whole frame (R80, R161). -/
theorem sending_txLoad {s : State} {packet : List Byte} (hfits : packet.length ≤ s.cfg.cap)
    (hcap : s.cfg.cap ≤ 65535) (h : s.holds packet) :
    Sending packet (txLoad packet s) ∧
      (txLoad packet s).tx.wire s.cfg packet = s.cfg.frameBytes packet := by
  obtain ⟨-, -, hlen, -, hck⟩ := txLoad_loaded (s := s) (packet := packet) (by omega)
  refine ⟨⟨txOk_txLoad hfits hcap h, hlen, holds_of_congr h rfl rfl, fun hc => ?_, fun he => ?_⟩, ?_⟩
  · rw [hck]; exact if_pos hc
  · cases he
  · have hcrc : (if s.cfg.crcEnable then le16 (txLoad packet s).tx.ck else []) =
        if s.cfg.crcEnable then le16 (s.cfg.checksum (framedBytes packet)) else [] := by
      rw [hck]; cases s.cfg.crcEnable <;> rfl
    simp only [TxRegs.wire, TxRegs.literals, show (txLoad packet s).tx.state = .start from rfl, if_true,
      hcrc, Config.frameBytes, Config.frameBody, framedBytes_of_length hlen.symm]

/-- The answers up to the last acceptance. -/
theorem count_dropLast_of_getLast? {answers : List Bool} (h : answers.getLast? = some true) :
    answers.dropLast.count true + 1 = answers.count true := by
  conv_rhs => rw [← List.dropLast_append_getLast? true h]
  rw [List.count_append]; rfl

/-- Settles O32: the steps send one byte of the frame for each acceptance, so the frame is complete with
the last of the answers and not before. -/
theorem txSendsFrame : Obligations.TxSendsFrame := by
  intro s packet answers rest hcap hfits hholds hready hcount hlast
  obtain ⟨hsending, hwire⟩ := sending_txLoad hfits hcap hholds
  have hbegin : ∀ k, runOps (.opTxBegin packet.length :: List.replicate k .opTxStep) s =
      runOps (List.replicate k .opTxStep) (txLoad packet s) := fun k => by
    rw [runOps, exec_txBegin_of_holds hfits hholds]
  have hdrop := count_dropLast_of_getLast? hlast
  constructor
  · obtain ⟨t, out, hrun, hsent, hlen, hres⟩ := hsending.run hready
      (by rw [txLoad_cfg, hwire]; omega)
    have hall : t.tx.wire t.cfg packet = [] := by
      have := congrArg List.length hsent.wire
      rw [txLoad_cfg, hwire, List.length_append] at this
      exact List.length_eq_zero_iff.1 (by omega)
    have hdone := (wire_eq_nil_iff hsent.sending).1 hall
    have hout : out = s.cfg.frameBytes packet := by
      have := hsent.wire
      rw [hall, List.append_nil, txLoad_cfg, hwire] at this
      exact this.symm
    refine ⟨t, (hbegin _).trans hrun, ?_, hdone, by rw [hsent.serialOut, hout]; rfl, hsent.ready,
      hsent.buf⟩
    rw [hres (by rintro rfl; cases hlast), TxRegs.verdict, if_pos hdone]
  · intro k hpos hk
    have htake : (answers.take k).count true ≤ answers.dropLast.count true := by
      rw [List.dropLast_eq_take]
      exact (List.take_prefix_take_left (by omega)).sublist.count_le true
    have hready' : (txLoad packet s).env.sinkReady = answers.take k ++ (answers.drop k ++ rest) := by
      rw [← List.append_assoc, List.take_append_drop]; exact hready
    obtain ⟨t, out, hrun, hsent, hlen, hres⟩ := hsending.run hready' (by
      have := (List.dropLast_sublist (answers.take k)).count_le true
      rw [txLoad_cfg, hwire]; omega)
    have hne : t.tx.state ≠ .done := fun hdone => by
      have := congrArg List.length hsent.wire
      rw [(wire_eq_nil_iff hsent.sending).2 hdone, txLoad_cfg, hwire, List.append_nil] at this
      omega
    refine ⟨t, ?_, ?_⟩
    · rw [hbegin]
      rwa [List.length_take, min_eq_left hk.le] at hrun
    · rw [hres (by rw [ne_eq, ← List.length_eq_zero_iff, List.length_take]; omega), TxRegs.verdict,
        if_neg hne]

end Sys2Proof.Machine
end

section
/-! Proofs for spec/00_scope.md section 5 and 70_reset_and_hazards.md: which instruction a step runs
(R14, R345), what `reset` leaves (R42, R340), and the kinds of polls (43_control_fsm.md R210) with the
transitions they make (R250) and the session flags they set (10_state.md R33 to R35). -/

namespace Sys2Proof.Machine

/-! ### The instruction a step runs (R14, R213, R345) -/

theorem fetch_command {s s1 : State} {bytes : List Byte} {i : Instr} (hcaller : s.caller = [])
    (hs : s.ctl.state = .rxWait) (hpull : rxWaitPull s = .ok (.stepped .received s1))
    (hbytes : s1.packet = .ok bytes) (hi : decodeCommand s1.cfg bytes = .ok i) :
    fetch s = (i, s1) := by
  simp only [fetch, fetchCommand, hcaller, hs, hpull, hbytes, hi, if_true]

/-- Settles O6: the caller's line comes first; with nothing on it, the packet that the poll's byte has
completed. -/
theorem stepRunsNext : Obligations.StepRunsNext := by
  refine ⟨fun s i rest hwf hcaller => ?_, fun s s1 bytes i hwf hcaller hs hpull hbytes hi => ?_⟩
  · rw [step_of_wf hwf, fetch_caller hcaller]
  · rw [step_of_wf hwf, fetch_command hcaller hs hpull hbytes hi]

/-- A poll that completes a packet dispatches it (R213). -/
theorem pollRxWait_received {s s1 : State} (h : rxWaitPull s = .ok (.stepped .received s1)) :
    pollRxWait s = dispatch s1 := by
  simp only [pollRxWait, h]

/-- With nothing lined up, a step is a poll: where it runs the command of a received packet, that is
what dispatching the packet does (R215). -/
theorem step_eq_poll {s : State} (hwf : s.cfg.WF) (hcaller : s.caller = []) :
    step s = exec .opCtlPoll s := by
  rw [step_of_wf hwf]
  rcases fetch_cases hcaller with hpoll | ⟨s1, bytes, i, hs, hpull, hbytes, hi, hcommand⟩
  · rw [hpoll]
  · rw [hcommand, exec_ctlPoll hs]
    exact ((pollRxWait_received hpull).trans (dispatch_eq_exec hbytes hi)).symm

/-- Settles O7. -/
theorem stepPolls : Obligations.StepPolls := fun _ => step_eq_poll

/-! ### Reset (R42, R340, R341) -/

/-- Settles O9: the registers and both buffers are those of `State.resetWith`; in an empty buffer every
index inside it is unwritten. -/
theorem resetLeaves : Obligations.ResetLeaves := by
  intro s
  refine ⟨State.resetWith s.cfg s.env s.caller, rfl, rfl, rfl, rfl, rfl, rfl, rfl, rfl, rfl, rfl, rfl,
    fun i hi => ?_, fun i hi => ?_, rfl, rfl, rfl⟩
  · simp only [State.bufGet, if_pos hi]; rfl
  · simp only [State.plainGet, if_pos hi]; rfl

/-! ### The kinds of polls (R210) -/

/-- Where a delaying state leads (R224, R227, R231, R235, R237). -/
def CtlPhase.afterDelay : CtlPhase → Option CtlPhase
  | .sendResp => some .sendResp1
  | .sendEventFlashClear => some .sendEventFlashClear1
  | .sendEventUserDataClear => some .sendEventUserDataClear1
  | .appRun => some .appRun1
  | .appRun2 => some .handoff
  | _ => none

/-- Where a state that transmits an answer leads (R232, R236). -/
def CtlPhase.afterAnswer : CtlPhase → Option CtlPhase
  | .sendResp1 => some .main
  | .appRun1 => some .appRun2
  | _ => none

/-- The state that erases a region (R221, R227). -/
def erasePhase : Region → CtlPhase
  | .app => .flashClear
  | .ud => .userDataClear

/-- The state that transmits a region's event (R225, R227). -/
def reportPhase : Region → CtlPhase
  | .app => .sendEventFlashClear1
  | .ud => .sendEventUserDataClear1

/-- The sixteen states poll in nine ways (R210). -/
inductive Polled (s : State) : State → Prop where
  | init (hs : s.ctl.state = .init) : Polled s (pollInit s)
  | main (hs : s.ctl.state = .main) : Polled s (pollMain s)
  | rxWait {t : State} (hs : s.ctl.state = .rxWait) (h : pollRxWait s = .next t) : Polled s t
  | begin (hs : s.ctl.state = .begin) : Polled s (pollBegin s)
  | erase {t : State} (r : Region) (hs : s.ctl.state = erasePhase r) (h : pollErase r s = .next t) :
      Polled s t
  | delay (next : CtlPhase) (hs : s.ctl.state.afterDelay = some next) (d : Word32) :
      Polled s (pollDelay d (State.leaveFor next) s)
  | answer {t : State} (next : CtlPhase) (hs : s.ctl.state.afterAnswer = some next)
      (h : pollTransmit (State.go next) s = .next t) : Polled s t
  | report {t : State} (r : Region) (hs : s.ctl.state = reportPhase r)
      (h : pollTransmit (nextSector (erasePhase r)) s = .next t) : Polled s t
  | handoff (hs : s.ctl.state = .handoff) : Polled s s

theorem polled_of_poll {s t : State} (h : exec .opCtlPoll s = .next t) : Polled s t := by
  cases hs : s.ctl.state <;> rw [exec_ctlPoll hs] at h
  case rxWait => exact .rxWait hs h
  case flashClear => exact .erase .app hs h
  case userDataClear => exact .erase .ud hs h
  case sendEventFlashClear1 => exact .report .app hs h
  case sendEventUserDataClear1 => exact .report .ud hs h
  case appRun1 => exact .answer .appRun2 (by rw [hs]; rfl) h
  case sendResp1 => exact .answer .main (by rw [hs]; rfl) h
  all_goals obtain rfl := Host.Outcome.next.inj h
  case init => exact .init hs
  case main => exact .main hs
  case begin => exact .begin hs
  case handoff => exact .handoff hs
  case appRun2 => exact .delay .handoff (by rw [hs]; rfl) s.cfg.tSettle
  all_goals
    rw [go_eq_leaveFor (by simp)]
    exact .delay _ (by rw [hs]; rfl) s.cfg.tRespDelay

/-- A step of the polled machine that goes on is a poll under a legal configuration. -/
theorem step_polled {s t : State} (hcaller : s.caller = []) (h : step s = .next t) : Polled s t := by
  by_cases hwf : s.cfg.WF
  · exact polled_of_poll ((step_eq_poll hwf hcaller).symm.trans h)
  · rw [step_refused hwf] at h; cases h

/-! ### What dispatch and the polls do to the control FSM's registers -/

section
variable (chunk : List Byte) (s : State)

@[simp] theorem verOpen_ctl : (verOpen chunk s).2.ctl = { s.ctl with stagedValid := false } :=
  (verOpen_only chunk s).1
@[simp] theorem verOpen_env : (verOpen chunk s).2.env = s.env := (verOpen_only chunk s).2.1
@[simp] theorem verOpen_cfg : (verOpen chunk s).2.cfg = s.cfg := (verOpen_only chunk s).2.2.1
@[simp] theorem verOpen_rx : (verOpen chunk s).2.rx = s.rx := (verOpen_only chunk s).2.2.2.1
@[simp] theorem verOpen_caller : (verOpen chunk s).2.caller = s.caller :=
  (verOpen_only chunk s).2.2.2.2

end

@[simp] theorem sent_ctl (packet : List Byte) (s : State) : (s.send packet).ctl = s.ctl := rfl
@[simp] theorem sent_env (packet : List Byte) (s : State) : (s.send packet).env = s.env := rfl

/-- A written chunk is answered like any other command (R264). -/
@[simp] theorem writeStaged_ctl (a : Word32) (bytes : List Byte) (s : State) :
    (writeStaged a bytes s).ctl = s.ctl.enters .sendResp := by
  obtain ⟨ok, env, st, events, -, -, -, hw⟩ := writeStaged_cases a bytes s
  rw [hw]; rfl

/-- Dispatch answers, or enters one of the four states that a command leads to (R215). -/
theorem dispatched_state {s t : State} (h : Dispatched s t) :
    t.ctl.state ∈ [CtlPhase.main, .sendResp, .begin, .appRun, .userDataClear] := by
  cases h <;> simp [CtlRegs.enters]

/-- Dispatch activates the session only on the signature (R261, R310). -/
theorem dispatched_activated {s t : State} (h : Dispatched s t) :
    t.ctl.activated = s.ctl.activated ∨
      (t.ctl.activated = true ∧ s.packet = .ok (0x70 :: s.cfg.signature)) := by
  cases h with
  | activated hp => exact .inr ⟨rfl, hp⟩
  | refused op st u ha hu => rcases hu with rfl | rfl | rfl <;> exact .inl rfl
  | rejected chunk op st u ha hl hu => rcases hu with rfl | rfl <;> simp [CtlRegs.enters]
  | _ => simp [CtlRegs.enters]

/-- Dispatch sets no update in progress (R35). -/
theorem dispatched_update {s t : State} (h : Dispatched s t) :
    t.ctl.updateInProgress = s.ctl.updateInProgress ∨ t.ctl.updateInProgress = false := by
  cases h with
  | refused op st u ha hu => rcases hu with rfl | rfl | rfl <;> exact .inl rfl
  | rejected chunk op st u ha hl hu => rcases hu with rfl | rfl <;> simp [CtlRegs.enters]
  | _ => simp [CtlRegs.enters]

/-- Dispatch gives `firmware_valid` only the answer of a check of the flash as it is (R34). -/
theorem dispatched_firmware {s t : State} (h : Dispatched s t) :
    t.ctl.firmwareValid = s.ctl.firmwareValid ∨
      (t.ctl.firmwareValid = fwCheckValue s.cfg s.env.flash ∧ t.env.flash = s.env.flash) := by
  cases h with
  | refused op st u ha hu => rcases hu with rfl | rfl | rfl <;> exact .inl rfl
  | rejected chunk op st u ha hl hu => rcases hu with rfl | rfl <;> simp [CtlRegs.enters]
  | checked op st ha hu => exact .inr ⟨rfl, rfl⟩
  | runs ha hu hv => exact .inr ⟨hv.symm, rfl⟩
  | _ => simp [CtlRegs.enters]

/-- A transmitting state's poll writes no register of the control FSM until the frame has gone out. -/
theorem pollTransmit_ctl {f : State → State} {s t : State} (h : pollTransmit f s = .next t) :
    t.ctl = s.ctl ∨ ∃ u, u.ctl = s.ctl ∧ t = f u := by
  obtain ⟨r, u, hstep, rfl⟩ := pollTransmit_cases h
  obtain ⟨tx, env, events, rfl, -⟩ := txStep_only hstep
  split
  · exact .inr ⟨{ s with tx := tx, env := env, trace := s.trace ++ events }, rfl, rfl⟩
  · exact .inl rfl

/-- A delaying state's poll stays, its delay armed or running, or leaves for the next state. -/
theorem pollDelay_ctl (d : Word32) (next : CtlPhase) (s : State) : ∃ x sub,
    (pollDelay d (State.leaveFor next) s).ctl = { s.ctl with tResp := x, sub := sub } ∨
      (pollDelay d (State.leaveFor next) s).ctl = s.ctl.enters next := by
  obtain ⟨u, x, ⟨env, -, rfl⟩, ht | ht | ht⟩ := pollDelay_cases d (State.leaveFor next) s
  · exact ⟨x, .poll, .inl (by rw [ht])⟩
  · exact ⟨s.ctl.tResp, s.ctl.sub, .inl (by rw [ht])⟩
  · exact ⟨x, .poll, .inr (by rw [ht]; rfl)⟩

/-- An erase state's poll completes the sequence, or reports a sector and keeps the registers. -/
theorem pollErase_ctl {r : Region} {s t : State} (h : pollErase r s = .next t) :
    (s.ctl.eraseIdx.toNat = s.cfg.sectors r ∧ t.ctl = (s.eraseCompleted r).ctl.enters .sendResp) ∨
      ∃ p ∈ [CtlPhase.sendResp, eventPhase r], t.ctl = s.ctl.enters p := by
  rcases pollErase_cases h with ⟨hk, rfl⟩ | ⟨-, ok, env, events, -, -, ⟨-, rfl⟩ | ⟨-, rfl⟩⟩
  · exact .inl ⟨hk, rfl⟩
  · exact .inr ⟨.sendResp, by simp, rfl⟩
  · exact .inr ⟨eventPhase r, by simp, rfl⟩

/-! ### Transitions (R250) -/

/-- A poll leaves the control FSM in a state that R250 lists. -/
theorem polled_targets {s t : State} (h : Polled s t) : t.ctl.state ∈ s.ctl.state.targets := by
  cases h with
  | init hs =>
    obtain ⟨u, c, events, p, -, hu, -, -, rfl | ⟨rfl, -⟩⟩ := pollInit_cases s <;>
      simp [hs, hu, CtlPhase.targets]
  | main hs => simp [hs, pollMain, CtlPhase.targets]
  | rxWait hs h =>
    rcases pollRxWait_cases h with ⟨-, -, rfl⟩ |
      ⟨input, u, events, r, s1, hasked, -, hstep, -, ⟨-, hd⟩ | ⟨-, rfl⟩ | ⟨-, rfl⟩⟩
    · simp [hs, CtlPhase.targets]
    · have := dispatched_state hd
      rw [hs]; simp only [CtlPhase.targets, List.mem_cons] at this ⊢; tauto
    · simp [hs, CtlPhase.targets]
    · obtain ⟨hctl, -⟩ := pulled_only hasked hstep
      simp [hs, hctl, CtlPhase.targets]
  | begin hs => simp [hs, pollBegin, CtlPhase.targets]
  | erase r hs h =>
    rw [hs]
    rcases pollErase_ctl h with ⟨-, ht⟩ | ⟨p, hp, ht⟩
    · cases r <;> simp [ht, erasePhase, CtlRegs.enters, CtlPhase.targets]
    · cases r <;> simpa [ht, erasePhase, eventPhase, CtlRegs.enters, CtlPhase.targets] using hp
  | delay next hs d =>
    have hnext : s.ctl.state ∈ s.ctl.state.targets ∧ next ∈ s.ctl.state.targets := by
      cases hp : s.ctl.state <;> simp only [hp, CtlPhase.afterDelay, reduceCtorEq] at hs <;>
        obtain rfl := Option.some.inj hs <;> simp [CtlPhase.targets]
    obtain ⟨x, sub, ht | ht⟩ := pollDelay_ctl d next s <;> rw [ht]
    · exact hnext.1
    · exact hnext.2
  | answer next hs h =>
    have hnext : s.ctl.state ∈ s.ctl.state.targets ∧ next ∈ s.ctl.state.targets := by
      cases hp : s.ctl.state <;> simp only [hp, CtlPhase.afterAnswer, reduceCtorEq] at hs <;>
        obtain rfl := Option.some.inj hs <;> simp [CtlPhase.targets]
    rcases pollTransmit_ctl h with ht | ⟨u, -, rfl⟩
    · rw [ht]; exact hnext.1
    · exact hnext.2
  | report r hs h =>
    rcases pollTransmit_ctl h with ht | ⟨u, -, rfl⟩
    · rw [ht, hs]; cases r <;> simp [reportPhase, CtlPhase.targets]
    · rw [hs]; cases r <;> simp [nextSector, reportPhase, erasePhase, CtlPhase.targets]
  | handoff hs => simp [hs, CtlPhase.targets]

/-- Settles O55. -/
theorem transitions : Obligations.Transitions := fun _ _ hcaller h =>
  polled_targets (step_polled hcaller h)

/-! ### The session flags (R33 to R35) -/

/-- The session flags a poll leaves where it neither initializes nor dispatches: `activated` as it was,
`firmware_valid` as it was or cleared, `update_in_progress` set only by the end of the application's
erase sequence. -/
theorem polled_flags {s t : State} (h : Polled s t) (hi : s.ctl.state ≠ .init)
    (hw : s.ctl.state ≠ .rxWait) :
    t.ctl.activated = s.ctl.activated ∧
      (t.ctl.firmwareValid = s.ctl.firmwareValid ∨ t.ctl.firmwareValid = false) ∧
      (t.ctl.updateInProgress = s.ctl.updateInProgress ∨ t.ctl.updateInProgress = false ∨
        (s.ctl.state = .flashClear ∧ s.ctl.eraseIdx.toNat = s.cfg.appSectors)) := by
  cases h with
  | init hs => exact absurd hs hi
  | main hs => exact ⟨rfl, .inl rfl, .inl rfl⟩
  | rxWait hs h => exact absurd hs hw
  | begin hs => exact ⟨rfl, .inr rfl, .inr (.inl rfl)⟩
  | erase r hs h =>
    rcases pollErase_ctl h with ⟨hk, ht⟩ | ⟨p, -, ht⟩
    · rw [ht]
      cases r
      · exact ⟨rfl, .inl rfl, .inr (.inr ⟨hs, hk⟩)⟩
      · exact ⟨rfl, .inl rfl, .inl rfl⟩
    · rw [ht]; exact ⟨rfl, .inl rfl, .inl rfl⟩
  | delay next hs d =>
    obtain ⟨x, sub, ht | ht⟩ := pollDelay_ctl d next s <;> rw [ht] <;>
      exact ⟨rfl, .inl rfl, .inl rfl⟩
  | answer next hs h =>
    rcases pollTransmit_ctl h with ht | ⟨u, hu, rfl⟩
    · rw [ht]; exact ⟨rfl, .inl rfl, .inl rfl⟩
    · rw [go_ctl, hu]; exact ⟨rfl, .inl rfl, .inl rfl⟩
  | report r hs h =>
    rcases pollTransmit_ctl h with ht | ⟨u, hu, rfl⟩
    · rw [ht]; exact ⟨rfl, .inl rfl, .inl rfl⟩
    · rw [nextSector, go_ctl, hu]; exact ⟨rfl, .inl rfl, .inl rfl⟩
  | handoff hs => exact ⟨rfl, .inl rfl, .inl rfl⟩

/-- The only poll in `RX_WAIT` that writes a session flag is one that dispatches. -/
theorem polled_rxWait {s t : State} (h : Polled s t) (hw : s.ctl.state = .rxWait) :
    (t.ctl.activated = s.ctl.activated ∧ t.ctl.firmwareValid = s.ctl.firmwareValid ∧
      t.ctl.updateInProgress = s.ctl.updateInProgress) ∨
    ∃ s1, rxWaitPull s = .ok (.stepped .received s1) ∧ s1.ctl = s.ctl ∧ s1.cfg = s.cfg ∧
      Dispatched s1 t := by
  cases h with
  | rxWait hs h =>
    rcases pollRxWait_cases h with ⟨-, -, rfl⟩ |
      ⟨input, u, events, r, s1, hasked, -, hstep, hpull, ⟨rfl, hd⟩ | ⟨-, rfl⟩ | ⟨-, rfl⟩⟩
    · exact .inl ⟨rfl, rfl, rfl⟩
    all_goals obtain ⟨hctl, hcfg, -⟩ := pulled_only hasked hstep
    · exact .inr ⟨s1, hpull, hctl, hcfg, hd⟩
    · rw [go_ctl, hctl]; exact .inl ⟨rfl, rfl, rfl⟩
    · rw [hctl]; exact .inl ⟨rfl, rfl, rfl⟩
  | erase r hs h => cases r <;> cases hs.symm.trans hw
  | report r hs h => cases r <;> cases hs.symm.trans hw
  | delay next hs d => rw [hw] at hs; cases hs
  | answer next hs h => rw [hw] at hs; cases hs
  | _ hs => cases hs.symm.trans hw

theorem polled_init {s t : State} (h : Polled s t) (hi : s.ctl.state = .init) : t = pollInit s := by
  cases h with
  | init hs => rfl
  | erase r hs h => cases r <;> cases hs.symm.trans hi
  | report r hs h => cases r <;> cases hs.symm.trans hi
  | delay next hs d => rw [hi] at hs; cases hs
  | answer next hs h => rw [hi] at hs; cases hs
  | rxWait hs _ => cases hs.symm.trans hi
  | _ hs => cases hs.symm.trans hi

/-- Initialization takes `activated` from the strap and decides `firmware_valid` (R211). -/
theorem pollInit_flags (s : State) :
    (pollInit s).ctl.updateInProgress = s.ctl.updateInProgress ∧
      ((pollInit s).ctl.activated = true → s.ctl.activated = true ∨ s.cfg.bootPolicy = .strap) := by
  obtain ⟨u, c, events, p, -, hu, -, ⟨v, a, x, rfl, ha⟩, -⟩ := pollInit_cases s
  rw [hu]; exact ⟨rfl, ha⟩

/-- A flag that a poll leaves as it was is not newly set. -/
theorem not_newly_set {old new : Bool} {p : Prop} (hsame : new = old) (hold : old = false)
    (hnew : new = true) : p := by
  rw [hsame, hold] at hnew; cases hnew

/-- Settles O58: besides initialization only dispatch writes `activated`, and only on the signature. -/
theorem activation : Obligations.Activation := by
  intro s t hcaller h
  have hp := step_polled hcaller h
  by_cases hi : s.ctl.state = .init
  · refine ⟨fun hne => absurd hi hne, fun hf ht => .inl ⟨hi, ?_⟩⟩
    rw [polled_init hp hi] at ht
    exact ((pollInit_flags s).2 ht).resolve_left (Bool.eq_false_iff.1 hf)
  · by_cases hw : s.ctl.state = .rxWait
    · rcases polled_rxWait hp hw with ⟨hsame, -⟩ | ⟨s1, hpull, hctl, hcfg, hd⟩
      · exact ⟨fun _ ha => hsame.trans ha, fun hf ht => not_newly_set hsame hf ht⟩
      · rw [← hctl, ← hcfg]
        rcases dispatched_activated hd with hsame | ⟨hset, hpacket⟩
        · exact ⟨fun _ ha => hsame.trans ha, fun hf ht => not_newly_set hsame hf ht⟩
        · exact ⟨fun _ _ => hset, fun _ _ => .inr ⟨hctl ▸ hw, s1, hpull, hpacket⟩⟩
    · obtain ⟨hsame, -⟩ := polled_flags hp hi hw
      exact ⟨fun _ ha => hsame.trans ha, fun hf ht => not_newly_set hsame hf ht⟩

/-- Settles O60: besides initialization only dispatch sets `firmware_valid`, to the answer of a check;
dispatch sets no update in progress, and of the other polls only the one that ends the application's
erase sequence does. -/
theorem flagsSet : Obligations.FlagsSet := by
  intro s t hcaller h
  have hp := step_polled hcaller h
  by_cases hi : s.ctl.state = .init
  · refine ⟨fun hf ht => ?_, fun _ _ => .inl hi⟩
    rw [polled_init hp hi] at ht
    exact not_newly_set (pollInit_flags s).1 hf ht
  · by_cases hw : s.ctl.state = .rxWait
    · rcases polled_rxWait hp hw with ⟨-, hfw, hup⟩ | ⟨s1, hpull, hctl, hcfg, hd⟩
      · exact ⟨fun hf ht => not_newly_set hup hf ht, fun hf ht => not_newly_set hfw hf ht⟩
      · rw [← hctl, ← hcfg]
        refine ⟨fun hf ht => ?_, fun hf ht => .inr ⟨hctl ▸ hw, ?_⟩⟩
        · rcases dispatched_update hd with hup | hup
          · exact not_newly_set hup hf ht
          · exact not_newly_set hup rfl ht
        · rcases dispatched_firmware hd with hsame | ⟨hcheck, hflash⟩
          · exact not_newly_set hsame hf ht
          · rw [hflash, ← hcheck, ht]
    · obtain ⟨-, hfw, hup⟩ := polled_flags hp hi hw
      refine ⟨fun hf ht => ?_, fun hf ht => ?_⟩
      · rcases hup with hup | hup | hdone
        · exact not_newly_set hup hf ht
        · exact not_newly_set hup rfl ht
        · exact hdone
      · rcases hfw with hfw | hfw
        · exact not_newly_set hfw hf ht
        · exact not_newly_set hfw rfl ht

end Sys2Proof.Machine
end

section
/-! Proofs for spec/43_control_fsm.md section 8: the invariant after reset, that every step keeps it
(R252), and that under it every step goes on (R302). The invariant falls into three parts: what the data
registers and memories mean, what the session flags mean, and what is the case in each state of the
control FSM. -/

namespace Sys2Proof.Machine

/-! ### The three parts of the invariant -/

/-- The part that no register of the control FSM enters. -/
structure DataInv (s : State) : Prop where
  cfg : s.cfg.WF
  caller : s.caller = []
  rx : s.RxOk
  tx : s.TxOk
  buf : Memory.wfBelow s.cfg.cap s.buf
  plain : Memory.wfBelow s.cfg.p s.plain
  flash : Memory.wf s.env.flash

/-- The part about the session flags, whatever state the control FSM is in (R252 (b), (e)). -/
structure SessionInv (s : State) : Prop where
  update : s.ctl.updateInProgress = true → s.ctl.firmwareValid = false
  staged : s.ctl.stagedValid = true →
    s.cfg.appBase ≤ s.ctl.stagedAddr.toNat ∧
    s.ctl.stagedAddr.toNat + s.ctl.stagedLen.toNat ≤ s.cfg.appEnd ∧
    1 ≤ s.ctl.stagedLen.toNat ∧ s.ctl.stagedLen.toNat ≤ s.cfg.p ∧
    ∃ bytes, s.plainGetBytes 0 s.ctl.stagedLen.toNat = .ok bytes

/-- The erase cursor and the flags in a state that erases or reports (R37, R220, R222). -/
def ErasingOk (p : CtlPhase) (t : State) : Prop :=
  ∀ r sends, p.erasing = some (r, sends) →
    t.ctl.eraseOp = opcodeOfRegion r ∧ t.cfg.hasRegion r = true ∧
    (if sends then t.ctl.eraseIdx.toNat < t.cfg.sectors r
      else t.ctl.eraseIdx.toNat ≤ t.cfg.sectors r) ∧
    (r = .app → t.ctl.firmwareValid = false ∧ t.ctl.updateInProgress = false)

/-- The firmware in a state of an accepted `APP_RUN` (R238, R267). -/
def RunningOk (p : CtlPhase) (t : State) : Prop :=
  p.running = true → t.ctl.firmwareValid = true ∧ fwCheckValue t.cfg t.env.flash = true

/-- The part about the states of the control FSM (R252 (a), (c), (d), (f)). -/
structure PhaseInv (s : State) : Prop where
  gate : s.ctl.activated = false → s.ctl.state.ungated = true
  sending : s.tx.state ≠ .done → s.ctl.state.sending = true
  receiving : s.rx.state ≠ .waitStart → s.ctl.state = .rxWait ∨ s.ctl.state = .handoff
  handoff : s.trace.count .handoff = if s.ctl.state = .handoff then 1 else 0
  init : s.ctl.state = .init → s.ctl.updateInProgress = false
  erasing : ErasingOk s.ctl.state s
  running : RunningOk s.ctl.state s
  entered : s.ctl.state = .handoff → s.ctl.firmwareValid = true

theorem invariant_iff {s : State} : Invariant s ↔ DataInv s ∧ SessionInv s ∧ PhaseInv s :=
  ⟨fun h => ⟨⟨h.cfg, h.caller, h.rx, h.tx, h.buf, h.plain, h.flash⟩, ⟨h.update, h.staged⟩,
      ⟨h.gate, h.sending, h.receiving, h.handoff, h.init, h.erasing, h.running, h.entered⟩⟩,
    fun ⟨hd, hs, hp⟩ => ⟨hd.cfg, hd.caller, hd.rx, hd.tx, hd.buf, hd.plain, hd.flash, hp.gate,
      hs.update, hp.sending, hp.receiving, hs.staged, hp.handoff, hp.init, hp.erasing, hp.running,
      hp.entered⟩⟩

/-! ### What keeps the data part and the session part -/

theorem DataInv.of_kept {s t : State} (h : DataInv s) (hc : t.cfg = s.cfg) (hcaller : t.caller = s.caller)
    (hrx : t.RxOk) (htx : t.TxOk) (hb : Memory.wfBelow s.cfg.cap t.buf)
    (hp : Memory.wfBelow s.cfg.p t.plain) (hf : Memory.wf t.env.flash) : DataInv t :=
  ⟨hc ▸ h.cfg, hcaller ▸ h.caller, hrx, htx, hc ▸ hb, hc ▸ hp, hf⟩

/-- The registers of the receiver and the transmitter and the buffer are those of `s`. -/
def SameRegs (s t : State) : Prop :=
  t.cfg = s.cfg ∧ t.caller = s.caller ∧ t.rx = s.rx ∧ t.tx = s.tx ∧ t.buf = s.buf

theorem SameRegs.refl (s : State) : SameRegs s s := ⟨rfl, rfl, rfl, rfl, rfl⟩

theorem DataInv.of_same {s t : State} (h : DataInv s) (hst : SameRegs s t)
    (hp : Memory.wfBelow s.cfg.p t.plain) (hf : Memory.wf t.env.flash) : DataInv t := by
  obtain ⟨hc, hcaller, hrx, htx, hb⟩ := hst
  exact h.of_kept hc hcaller (rxOk_of_congr h.rx hrx hc hb) (txOk_of_congr h.tx htx hc hb)
    (hb ▸ h.buf) hp hf

theorem SessionInv.of_same {s t : State} (h : SessionInv s) (hc : t.cfg = s.cfg)
    (hp : t.plain = s.plain) (hup : t.ctl.updateInProgress = true → t.ctl.firmwareValid = false)
    (hst : t.ctl.stagedValid = true → s.ctl.stagedValid = true ∧
      t.ctl.stagedAddr = s.ctl.stagedAddr ∧ t.ctl.stagedLen = s.ctl.stagedLen) : SessionInv t where
  update := hup
  staged hv := by
    obtain ⟨hv, ha, hl⟩ := hst hv
    rw [hc, ha, hl, plainGetBytes_congr hc hp]
    exact h.staged hv

theorem SessionInv.of_ctl {s t : State} (h : SessionInv s) (hc : t.cfg = s.cfg)
    (hp : t.plain = s.plain) (hctl : t.ctl = s.ctl) : SessionInv t :=
  h.of_same hc hp (by rw [hctl]; exact h.update) (by rw [hctl]; exact fun hv => ⟨hv, rfl, rfl⟩)

/-- A session in which nothing is staged. -/
theorem SessionInv.of_unstaged {s : State}
    (hup : s.ctl.updateInProgress = true → s.ctl.firmwareValid = false)
    (hst : s.ctl.stagedValid = false) : SessionInv s :=
  ⟨hup, fun hv => by rw [hst] at hv; cases hv⟩

/-- Opening a chunk raises the authentication error or nothing (R193). -/
theorem raised_of_opened {chunk : List Byte} {s : State} {plain : Memory} {raised : List Event}
    (h : Opened chunk s plain raised) : ∀ e ∈ raised, e = .raised .authentication := by
  unfold Opened at h
  cases hopen : openChunk s.cfg chunk <;> simp only [hopen] at h
  · rw [h.2]; simp
  · rw [h.2.2]; simp

/-- The first bytes of a plaintext that was written can be read. -/
theorem plainGetBytes_of_written {s : State} {m : Memory} {plaintext : List Byte} {n : Nat}
    (hl : plaintext.length = s.cfg.p) (hw : Memory.Written plaintext m s.plain) (hn : n ≤ s.cfg.p) :
    s.plainGetBytes 0 n = .ok (plaintext.take n) := by
  refine plainGetBytes_ok_iff.2 ⟨by rw [List.length_take]; omega, fun j hj => ⟨by omega, ?_⟩⟩
  rw [Nat.zero_add, hw j, if_pos (by omega), List.getElem?_take_of_lt hj]

/-! ### A block that sends nothing, and one between two packets -/

/-- Nothing is being sent, and the block has not been left (R252 (c), (f)). -/
structure Listening (s : State) : Prop where
  data : DataInv s
  session : SessionInv s
  tx : s.tx.state = .done
  trace : s.trace.count .handoff = 0

/-- Nothing is being received either (R252 (d)): what holds where a poll can start to answer. -/
structure Ready (s : State) : Prop extends Listening s where
  rx : s.rx.state = .waitStart

/-- Events none of which is the handoff. -/
theorem count_handoff_append {xs ys : List Event} (h : xs.count .handoff = 0)
    (hys : Event.handoff ∉ ys) : (xs ++ ys).count .handoff = 0 := by
  rw [List.count_append, h, List.count_eq_zero.2 hys]

theorem listening_of_invariant {s : State} (h : Invariant s) (hsend : s.ctl.state.sending = false)
    (hh : s.ctl.state ≠ .handoff) : Listening s := by
  obtain ⟨hd, hs, hp⟩ := invariant_iff.1 h
  refine ⟨hd, hs, ?_, by rw [hp.handoff, if_neg hh]⟩
  by_contra hne
  exact Bool.eq_false_iff.1 hsend (hp.sending hne)

theorem ready_of_invariant {s : State} (h : Invariant s) (hsend : s.ctl.state.sending = false)
    (hw : s.ctl.state ≠ .rxWait) (hh : s.ctl.state ≠ .handoff) : Ready s := by
  refine ⟨listening_of_invariant h hsend hh, ?_⟩
  by_contra hne
  exact (h.receiving hne).elim hw hh

/-- Port calls that write and erase nothing. -/
theorem Listening.asked {s u : State} {events : List Event} (h : Listening s) (hu : Asked s u events)
    (he : Event.handoff ∉ events) : Listening u := by
  obtain ⟨env, ⟨hflash, -⟩, rfl⟩ := hu
  exact ⟨h.data.of_same (.refl s) h.data.plain (hflash ▸ h.data.flash),
    h.session.of_ctl rfl rfl rfl, h.tx, count_handoff_append h.trace he⟩

/-- One byte through the receiver, while nothing is being sent. -/
theorem Listening.received {s t : State} {input : Option Byte} {r : RxResult} (h : Listening s)
    (hstep : rxStep input s = .ok (r, t)) : Listening t := by
  obtain ⟨⟨htx, hctl, hplain, henv, hcfg, hcaller⟩, -⟩ := rxStep_only hstep
  obtain ⟨hbuf, htrace⟩ := rxStep_writes hstep
  have hdone : t.tx.state = .done := by rw [htx]; exact h.tx
  refine ⟨h.data.of_kept hcfg hcaller (rxStep_sound h.data.rx hstep).1 ?_ ?_ (hplain ▸ h.data.plain)
    (henv ▸ h.data.flash), h.session.of_ctl hcfg hplain hctl, hdone, ?_⟩
  · have := h.data.tx
    simp only [State.TxOk, h.tx] at this
    simp only [State.TxOk, htx, h.tx, this]
  · rcases hbuf with hsame | ⟨-, hcap, b, hset⟩
    · rw [hsame]; exact h.data.buf
    · rw [hset]; exact wfBelow_memSet h.data.buf hcap b
  · rcases htrace with hsame | ⟨-, e, hraised⟩
    · rw [hsame]; exact h.trace
    · rw [hraised]; exact count_handoff_append h.trace (by simp)

/-- An erase or a write of flash by a block between two packets, with the events it logs. -/
theorem Ready.flashed {s : State} {env : Env} {events : List Event} (h : Ready s)
    (hf : Memory.wf env.flash) (he : Event.handoff ∉ events) :
    Ready { s with env := env, trace := s.trace ++ events } :=
  ⟨⟨h.data.of_same (.refl s) h.data.plain hf, h.session.of_ctl rfl rfl rfl, h.tx,
    count_handoff_append h.trace he⟩, h.rx⟩

/-- A write to the control FSM's registers that respects R252 (b) and (e). -/
theorem Ready.with_ctl {s : State} {ctl : CtlRegs} (h : Ready s)
    (hs : SessionInv { s with ctl := ctl }) : Ready { s with ctl := ctl } :=
  ⟨⟨h.data.of_same (.refl s) h.data.plain h.data.flash, hs, h.tx, h.trace⟩, h.rx⟩

section
variable {s : State} (h : Ready s)
include h

theorem Ready.log {e : Event} (he : e ≠ .handoff) : Ready (s.log e) :=
  h.flashed h.data.flash (by simpa using he.symm)

theorem Ready.raise (e : ErrorClass) : Ready (s.raise e) := h.log (by simp)

theorem Ready.unstage : Ready s.unstage := h.with_ctl (.of_unstaged h.session.update rfl)

theorem Ready.activate : Ready s.activate :=
  h.with_ctl (h.session.of_same rfl rfl h.session.update fun hv => ⟨hv, rfl, rfl⟩)

theorem Ready.endUpdate : Ready (s.setUpdateInProgress false) :=
  h.with_ctl (h.session.of_same rfl rfl (fun hup => by cases hup) fun hv => ⟨hv, rfl, rfl⟩)

theorem Ready.startErase (op : Byte) : Ready (s.startErase op) :=
  h.with_ctl (h.session.of_same rfl rfl h.session.update fun hv => ⟨hv, rfl, rfl⟩)

/-- `firmware_valid` is set freely while no update is in progress (R252 (b)). -/
theorem Ready.setFirmwareValid (hu : s.ctl.updateInProgress = false) (v : Bool) :
    Ready (s.setFirmwareValid v) :=
  h.with_ctl (h.session.of_same rfl rfl (fun hup => absurd hup (Bool.eq_false_iff.1 hu))
    fun hv => ⟨hv, rfl, rfl⟩)

theorem Ready.fwCheck : Ready s.fwCheck.2 := h.log (by simp)

/-- The application's erase sequence ends with `firmware_valid` cleared (R220, R226). -/
theorem Ready.eraseCompleted (r : Region) (hf : r = .app → s.ctl.firmwareValid = false) :
    Ready (s.eraseCompleted r) := by
  cases r with
  | app => exact h.with_ctl (.of_unstaged (fun _ => hf rfl) rfl)
  | ud => exact h

/-- A chunk is opened (R192, R193). -/
theorem Ready.opened {chunk : List Byte} (hl : chunk.length = 45 + s.cfg.p) :
    Ready (verOpen chunk s).2 := by
  obtain ⟨plain, raised, hopened, hver, -, hwf⟩ := verOpen_cases chunk s hl
  have he : Event.handoff ∉ raised := fun hmem => by cases raised_of_opened hopened _ hmem
  rw [hver]
  exact ⟨⟨h.data.of_same (.refl s) (hwf h.data.plain) h.data.flash,
    .of_unstaged h.session.update rfl, h.tx, count_handoff_append h.trace he⟩, h.rx⟩

/-- A firmware chunk that passes is staged, its plaintext in `plain` (R195). -/
theorem Ready.staged {chunk : List Byte} (hl : chunk.length = 45 + s.cfg.p)
    (hpass : FirmwarePasses s.cfg chunk) :
    Ready ((verOpen chunk s).2.stage (chunkAddress chunk) (chunkLength chunk)) := by
  have hopen := h.opened hl
  obtain ⟨plain, raised, hopened, hver, -⟩ := verOpen_cases chunk s hl
  obtain ⟨⟨plaintext, hplaintext⟩, hpos, hp, hbase, hend⟩ := hpass
  unfold Opened at hopened
  simp only [hplaintext] at hopened
  obtain ⟨hlen, hwritten, -⟩ := hopened
  refine hopen.with_ctl ⟨hopen.session.update, fun _ => ?_⟩
  rw [hver]
  exact ⟨hbase, hend, hpos, hp, _, plainGetBytes_of_written hlen hwritten hp⟩

end

/-! ### The state of the control FSM a poll enters -/

theorem erasingOk_of_none {p : CtlPhase} (h : p.erasing = none) (t : State) : ErasingOk p t :=
  fun r sends he => by rw [h] at he; cases he

theorem runningOk_of_false {p : CtlPhase} (h : p.running = false) (t : State) : RunningOk p t :=
  fun hr => by rw [h] at hr; cases hr

/-- What the phase part asks in a state that is neither the first nor the last. -/
theorem PhaseInv.of_state {t : State} {p : CtlPhase} (hp : t.ctl.state = p)
    (hends : p ≠ .init ∧ p ≠ .handoff) (htrace : t.trace.count .handoff = 0)
    (hgate : t.ctl.activated = false → p.ungated = true)
    (hsend : t.tx.state ≠ .done → p.sending = true) (hrecv : t.rx.state ≠ .waitStart → p = .rxWait)
    (herase : ErasingOk p t) (hrun : RunningOk p t) : PhaseInv t := by
  subst hp
  exact ⟨hgate, hsend, fun hne => .inl (hrecv hne), by rw [htrace, if_neg hends.2],
    fun hi => absurd hi hends.1, herase, hrun, fun hh => absurd hh hends.2⟩

/-- A block that sends nothing may wait for bytes. -/
theorem Listening.waits {s : State} (h : Listening s) (hs : s.ctl.state = .rxWait) : Invariant s :=
  invariant_iff.2 ⟨h.data, h.session, .of_state hs (by decide) h.trace (fun _ => rfl)
    (fun hne => absurd h.tx hne) (fun _ => rfl) (erasingOk_of_none rfl s) (runningOk_of_false rfl s)⟩

/-- The application is entered with `firmware_valid` (R211, R214, R267). -/
theorem Listening.leaves {s : State} (h : Listening s) (hf : s.ctl.firmwareValid = true) :
    Invariant s.doHandoff := by
  refine invariant_iff.2 ⟨h.data.of_same (.refl s) h.data.plain h.data.flash,
    h.session.of_same rfl rfl h.session.update fun hv => ⟨hv, rfl, rfl⟩, ?_⟩
  refine ⟨fun _ => rfl, fun hne => absurd h.tx hne, fun _ => .inr rfl, ?_, fun hi => (by cases hi),
    erasingOk_of_none rfl s.doHandoff, runningOk_of_false rfl s.doHandoff, fun _ => hf⟩
  simp [h.trace]

section
variable {s : State} (h : Ready s)
include h

/-- A block between two packets may enter a state that sends nothing. -/
theorem Ready.goes {p : CtlPhase} (hends : p ≠ .init ∧ p ≠ .handoff)
    (hgate : s.ctl.activated = false → p.ungated = true) (herase : ErasingOk p s)
    (hrun : RunningOk p s) : Invariant (s.go p) :=
  invariant_iff.2 ⟨h.data.of_same (.refl s) h.data.plain h.data.flash,
    h.session.of_same rfl rfl h.session.update fun hv => ⟨hv, rfl, rfl⟩,
    .of_state rfl hends h.trace hgate (fun hne => absurd h.tx hne) (fun hne => absurd h.rx hne)
      herase hrun⟩

theorem Ready.goes_main : Invariant (s.go .main) :=
  h.goes (by decide) (fun _ => rfl) (erasingOk_of_none rfl s) (runningOk_of_false rfl s)

/-- A packet that the block builds is handed to the transmitter (R161, R230). -/
theorem Ready.send_data {packet : List Byte} (hl : packet.length ≤ 10) : DataInv (s.send packet) := by
  obtain ⟨-, hcap10⟩ := cap_bounds_of_wf h.data.cfg
  have ⟨_, ⟨_, hcap⟩, _⟩ := h.data.cfg
  have hfits : packet.length ≤ s.cfg.cap := by omega
  have hesc : s.rx.esc = false := by
    have := h.data.rx
    simpa only [State.RxOk, h.rx] using this
  refine h.data.of_kept rfl rfl (rxOk_of_armed h.rx hesc) ?_ ?_ h.data.plain h.data.flash
  · exact txOk_txLoad (s := s.bufPut packet) hfits hcap (bufGetBytes_of_written rfl hfits)
  · exact wfBelow_memSetBytes h.data.buf (by omega)

/-- An activated block between two packets may start to send. -/
theorem Ready.sends {packet : List Byte} {p : CtlPhase} (hl : packet.length ≤ 10)
    (ha : s.ctl.activated = true) (hends : p ≠ .init ∧ p ≠ .handoff) (hp : p.sending = true)
    (herase : ErasingOk p s) (hrun : RunningOk p s) : Invariant ((s.send packet).go p) := by
  refine invariant_iff.2 ⟨(h.send_data hl).of_same (.refl _) h.data.plain h.data.flash,
    h.session.of_same rfl rfl h.session.update fun hv => ⟨hv, rfl, rfl⟩, ?_⟩
  exact .of_state rfl hends h.trace (fun hf => absurd ha (Bool.eq_false_iff.1 hf)) (fun _ => hp)
    (fun hne => absurd h.rx hne) herase hrun

theorem Ready.responds {op st : Byte} {extra : List Byte} (hl : extra.length ≤ 8)
    (ha : s.ctl.activated = true) : Invariant (s.respond op st extra) :=
  h.sends (by simp only [List.length_cons]; omega) ha (by decide) rfl (erasingOk_of_none rfl s)
    (runningOk_of_false rfl s)

/-! ### Dispatch -/

/-- Dispatch leads from a block that has just received a packet to a state of the invariant. -/
theorem invariant_of_dispatched {t : State} (hd : Dispatched s t) : Invariant t := by
  cases hd with
  | dropped => exact h.goes_main
  | activated hp => exact h.activate.responds (by simp) rfl
  | refused op st u ha hu =>
    rcases hu with rfl | rfl | rfl
    · exact h.responds (by simp) ha
    · exact h.unstage.responds (by simp) ha
    · exact (h.raise _).responds (by simp) ha
  | begun chunk ha hl hp =>
    refine (h.opened hl).goes (by decide) (fun hf => ?_) (erasingOk_of_none rfl _)
      (runningOk_of_false rfl _)
    rw [verOpen_ctl, ha] at hf; cases hf
  | rejected chunk op st u ha hl hu =>
    have ha' : (verOpen chunk s).2.ctl.activated = true := by rw [verOpen_ctl]; exact ha
    rcases hu with rfl | rfl
    · exact (h.opened hl).responds (by simp) ha'
    · exact ((h.opened hl).raise _).responds (by simp) ha'
  | staged chunk ha hl hp =>
    exact (h.staged hl hp).responds (by simp) (by rw [stage_ctl, verOpen_ctl]; exact ha)
  | unchanged ha hu hs bytes => exact (h.unstage.log (by simp)).responds (by simp) ha
  | written ha hu hs hp bytes staged hl =>
    obtain ⟨ok, env, st, events, -, hflash, hevents, hw⟩ := writeStaged_cases s.ctl.stagedAddr staged
      (s.unstage.log (.flashRead s.ctl.stagedAddr bytes))
    rw [hw]
    refine ((h.unstage.log (by simp)).flashed ?_ ?_).responds (by simp) ha
    · rcases hflash with hf | ⟨left, hf⟩ <;> rw [hf]
      · exact flashWf_setBytes h.data.flash _
      · exact flashWf_setLeft h.data.flash _ _ _
    · rcases hevents with rfl | rfl <;> simp
  | ended ha => exact h.endUpdate.responds (by simp) ha
  | checked op st ha hu => exact (h.fwCheck.setFirmwareValid hu _).responds (by simp) ha
  | runs ha hu hv =>
    exact (h.fwCheck.setFirmwareValid hu true).sends (by simp) ha (by decide) rfl
      (erasingOk_of_none rfl _) fun _ => ⟨rfl, hv⟩
  | erases ha hu =>
    refine (h.startErase 0x78).goes (by decide) (fun hf => absurd ha (Bool.eq_false_iff.1 hf)) ?_
      (runningOk_of_false rfl _)
    rintro r sends he
    cases he
    exact ⟨rfl, hu, Nat.zero_le _, fun hr => by cases hr⟩

end

/-! ### Polls -/

/-- An activated session is in every state but the four that R252 (a) lists. -/
theorem activated_of_gated {s : State} (h : Invariant s) (hs : s.ctl.state.ungated = false) :
    s.ctl.activated = true := by
  by_contra hf
  exact Bool.eq_false_iff.1 hs (h.gate (Bool.eq_false_iff.2 hf))

theorem invariant_pollInit {s : State} (h : Invariant s) (hs : s.ctl.state = .init) :
    Invariant (pollInit s) := by
  have hr := ready_of_invariant h (by rw [hs]; rfl) (by simp [hs]) (by simp [hs])
  obtain ⟨u, c, events, p, hasked, hu, hevents, ⟨v, a, x, rfl, -⟩, hp⟩ := pollInit_cases s
  have he : Event.handoff ∉ events := fun hmem => by
    rcases hevents _ hmem with ⟨_, he⟩ | ⟨_, he⟩ | ⟨_, he⟩ <;> cases he
  have hru : Ready { u with ctl := { s.ctl with firmwareValid := v, activated := a, tBoot := x } } := by
    obtain ⟨env, ⟨hflash, -⟩, rfl⟩ := hasked
    refine (hr.flashed (hflash ▸ hr.data.flash) he).with_ctl
      (hr.session.of_same rfl rfl (fun hup => ?_) fun hv => ⟨hv, rfl, rfl⟩)
    exact absurd (h.init hs) (by simpa using hup)
  rw [hu]
  rcases hp with rfl | ⟨rfl, hv⟩
  · rw [if_neg (by simp), List.append_nil]; exact hru.goes_main
  · rw [if_pos rfl]; exact hru.leaves hv

theorem invariant_pollMain {s : State} (h : Invariant s) (hs : s.ctl.state = .main) :
    Invariant (pollMain s) := by
  have hr := ready_of_invariant h (by rw [hs]; rfl) (by simp [hs]) (by simp [hs])
  refine Listening.waits ⟨hr.data.of_kept rfl rfl (rxOk_of_armed rfl rfl) ?_ hr.data.buf hr.data.plain
    hr.data.flash, hr.session.of_same rfl rfl hr.session.update fun hv => ⟨hv, rfl, rfl⟩, hr.tx,
    hr.trace⟩ rfl
  exact txOk_of_congr hr.data.tx rfl rfl rfl

theorem invariant_pollRxWait {s t : State} (h : Invariant s) (hs : s.ctl.state = .rxWait)
    (ht : pollRxWait s = .next t) : Invariant t := by
  have hl := listening_of_invariant h (by rw [hs]; rfl) (by simp [hs])
  rcases pollRxWait_cases ht with ⟨harmed, -, rfl⟩ |
    ⟨input, u, events, r, s1, hasked, hevents, hstep, -, hcase⟩
  · exact (hl.asked (asked_now s) (by simp)).leaves (autoBootArmed_iff.1 harmed).2.2
  · have he : Event.handoff ∉ events := fun hmem => by
      rcases hevents _ hmem with ⟨_, he⟩ | ⟨_, he⟩ <;> cases he
    have hl1 := (hl.asked hasked he).received hstep
    rcases hcase with ⟨rfl, hd⟩ | ⟨rfl, rfl⟩ | ⟨rfl, rfl⟩
    · exact invariant_of_dispatched ⟨hl1, (rxStep_armed hstep (by simp)).1⟩ hd
    · exact Ready.goes_main ⟨hl1, (rxStep_armed hstep (by simp)).1⟩
    · obtain ⟨hctl, -⟩ := pulled_only hasked hstep
      exact hl1.waits (by rw [hctl]; exact hs)

theorem invariant_pollBegin {s : State} (h : Invariant s) (hs : s.ctl.state = .begin) :
    Invariant (pollBegin s) := by
  have hr := ready_of_invariant h (by rw [hs]; rfl) (by simp [hs]) (by simp [hs])
  have ha := activated_of_gated h (by rw [hs]; rfl)
  have hflags : Ready { s with ctl := { s.ctl with
      firmwareValid := false, updateInProgress := false, eraseIdx := 0, eraseOp := 0x71 } } :=
    hr.with_ctl (hr.session.of_same rfl rfl (fun hup => by cases hup) fun hv => ⟨hv, rfl, rfl⟩)
  refine hflags.goes (by decide) (fun hf => absurd ha (Bool.eq_false_iff.1 hf)) ?_
    (runningOk_of_false rfl _)
  rintro r sends he
  cases he
  exact ⟨rfl, rfl, Nat.zero_le _, fun _ => ⟨rfl, rfl⟩⟩

theorem invariant_pollErase {s t : State} {r : Region} (h : Invariant s)
    (hs : s.ctl.state = erasePhase r) (ht : pollErase r s = .next t) : Invariant t := by
  have hr : Ready s := ready_of_invariant h (by rw [hs]; cases r <;> rfl) (by rw [hs]; cases r <;> decide)
    (by rw [hs]; cases r <;> decide)
  have ha := activated_of_gated h (by rw [hs]; cases r <;> rfl)
  obtain ⟨hop, hregion, -, hflags⟩ := h.erasing r false (by rw [hs]; cases r <;> rfl)
  rcases pollErase_cases ht with ⟨-, rfl⟩ | ⟨hk, ok, env, events, -, hevents, hcase⟩
  · refine (hr.eraseCompleted r fun happ => (hflags happ).1).responds (by simp) ?_
    rw [eraseCompleted_ctl]; cases r <;> exact ha
  · have hf : Memory.wf env.flash ∧ Event.handoff ∉ events := by
      rcases hevents with ⟨hf, -, rfl⟩ | ⟨⟨cells, hf, -⟩, rfl⟩ <;> rw [hf]
      · exact ⟨hr.data.flash, by simp⟩
      · exact ⟨flashWf_setCells hr.data.flash, by simp⟩
    have hu := hr.flashed hf.1 hf.2
    rcases hcase with ⟨-, rfl⟩ | ⟨-, rfl⟩
    · exact (hu.raise _).responds (by simp) ha
    · refine hu.sends (by simp) ha (by cases r <;> decide) (by cases r <;> rfl) ?_
        (runningOk_of_false (by cases r <;> rfl) _)
      rintro r' sends he
      obtain ⟨rfl, rfl⟩ : r = r' ∧ true = sends := by cases r <;> cases he <;> exact ⟨rfl, rfl⟩
      exact ⟨hop, hregion, hk, hflags⟩

/-- Time passes, or the delay's registers are written: no other part of the invariant sees it. -/
theorem Invariant.timed {s : State} (h : Invariant s) {env : Env} {events : List Event}
    (hflash : env.flash = s.env.flash) (he : Event.handoff ∉ events) (x : Word32) (sub : CtlSub) :
    Invariant { s with
      env := env, trace := s.trace ++ events, ctl := { s.ctl with tResp := x, sub := sub } } := by
  obtain ⟨hd, hs, hp⟩ := invariant_iff.1 h
  refine invariant_iff.2 ⟨hd.of_same (.refl s) hd.plain (hflash ▸ hd.flash),
    hs.of_same rfl rfl hs.update fun hv => ⟨hv, rfl, rfl⟩, hp.gate, hp.sending, hp.receiving, ?_, hp.init,
    hp.erasing, fun hr => ?_, hp.entered⟩
  · show (s.trace ++ events).count _ = _
    rw [List.count_append, List.count_eq_zero.2 he]; exact hp.handoff
  · show _ ∧ fwCheckValue s.cfg env.flash = true
    rw [hflash]; exact hp.running hr

/-- A delaying state and the state after it, the last one apart, ask the same of the block. -/
theorem Invariant.moves {s : State} {p : CtlPhase} (h : Invariant s)
    (hends : p ≠ .init ∧ p ≠ .handoff) (hs : s.ctl.state ≠ .rxWait ∧ s.ctl.state ≠ .handoff)
    (hgate : p.ungated = s.ctl.state.ungated) (hsend : p.sending = s.ctl.state.sending)
    (herase : p.erasing = s.ctl.state.erasing) (hrun : p.running = s.ctl.state.running) :
    Invariant (s.go p) := by
  obtain ⟨hd, hsession, hp⟩ := invariant_iff.1 h
  refine invariant_iff.2 ⟨hd.of_same (.refl s) hd.plain hd.flash,
    hsession.of_same rfl rfl hsession.update fun hv => ⟨hv, rfl, rfl⟩,
    .of_state (p := p) rfl hends ?_ ?_ ?_ (fun hne => ?_) ?_ ?_⟩
  · rw [go_trace, hp.handoff, if_neg hs.2]
  · rw [hgate]; exact hp.gate
  · rw [hsend]; exact hp.sending
  · exact ((hp.receiving hne).elim hs.1 hs.2).elim
  · unfold ErasingOk; rw [herase]; exact hp.erasing
  · unfold RunningOk; rw [hrun]; exact hp.running

theorem invariant_pollDelay {s : State} {next : CtlPhase} (h : Invariant s)
    (hs : s.ctl.state.afterDelay = some next) (d : Word32) :
    Invariant (pollDelay d (State.leaveFor next) s) := by
  obtain ⟨u, x, ⟨env, ⟨hflash, -⟩, rfl⟩, ht⟩ := pollDelay_cases d (State.leaveFor next) s
  have hu := h.timed hflash (events := [.clockMs x]) (by simp) s.ctl.tResp s.ctl.sub
  rcases ht with ht | ht | ht <;> rw [ht]
  · exact h.timed hflash (by simp) x .poll
  · exact hu
  · by_cases hlast : s.ctl.state = .appRun2
    · rw [hlast] at hs
      obtain rfl := Option.some.inj hs
      exact (listening_of_invariant hu (by simp [hlast, CtlPhase.sending]) (by simp [hlast])).leaves
        (h.running (by rw [hlast]; rfl)).1
    · have hne : next ≠ .handoff := by
        rintro rfl
        cases hp : s.ctl.state <;> simp [hp, CtlPhase.afterDelay] at hs hlast
      rw [← go_eq_leaveFor hne]
      cases hp : s.ctl.state <;>
        simp only [hp, CtlPhase.afterDelay, reduceCtorEq, not_true_eq_false] at hs hlast <;>
        obtain rfl := Option.some.inj hs <;>
        exact hu.moves (by simp) (by simp [hp]) (by simp [hp, CtlPhase.ungated])
          (by simp [hp, CtlPhase.sending]) (by simp [hp, CtlPhase.erasing])
          (by simp [hp, CtlPhase.running])

/-- One `tx_step` in a sending state. -/
theorem invariant_txStep {s u : State} {r : TxResult} (h : Invariant s)
    (hs : s.ctl.state.sending = true) (hstep : txStep s = .ok (r, u)) : Invariant u := by
  obtain ⟨hd, hsession, hp⟩ := invariant_iff.1 h
  have htx := txStep_sound hd.tx hstep
  obtain ⟨tx, env, events, rfl, hflash, -, -, hevents⟩ := txStep_only hstep
  have he : Event.handoff ∉ events := fun hmem => by
    obtain ⟨_, _, he⟩ := hevents _ hmem; cases he
  refine invariant_iff.2 ⟨hd.of_kept rfl rfl (rxOk_of_congr hd.rx rfl rfl rfl) htx hd.buf hd.plain
    (hflash ▸ hd.flash), hsession.of_ctl rfl rfl rfl, hp.gate, fun _ => hs, hp.receiving, ?_, hp.init,
    hp.erasing, fun hr => ?_, hp.entered⟩
  · show (s.trace ++ events).count _ = _
    rw [List.count_append, List.count_eq_zero.2 he]; exact hp.handoff
  · show _ ∧ fwCheckValue s.cfg env.flash = true
    rw [hflash]; exact hp.running hr

/-- When the frame has gone out, the block is between two packets. -/
theorem ready_of_sent {s : State} (h : Invariant s) (htx : s.tx.state = .done)
    (hs : s.ctl.state ≠ .rxWait ∧ s.ctl.state ≠ .handoff) : Ready s := by
  obtain ⟨hd, hsession, hp⟩ := invariant_iff.1 h
  refine ⟨⟨hd, hsession, htx, by rw [hp.handoff, if_neg hs.2]⟩, ?_⟩
  by_contra hne
  exact (hp.receiving hne).elim hs.1 hs.2

/-- A transmitting state keeps the invariant if the state after it does once the frame has gone out. -/
theorem invariant_pollTransmit {f : State → State} {s t : State} (h : Invariant s)
    (hs : s.ctl.state.sending = true) (ht : pollTransmit f s = .next t)
    (hf : ∀ u, Invariant u → Ready u → u.ctl = s.ctl → Invariant (f u)) : Invariant t := by
  obtain ⟨r, u, hstep, rfl⟩ := pollTransmit_cases ht
  have hu := invariant_txStep h hs hstep
  have hctl : u.ctl = s.ctl := by obtain ⟨_, _, _, rfl, -⟩ := txStep_only hstep; rfl
  split
  · next hdone =>
    refine hf u hu (ready_of_sent hu hdone ⟨fun hw => ?_, fun hh => ?_⟩) hctl
    · rw [hctl] at hw; rw [hw] at hs; cases hs
    · rw [hctl] at hh; rw [hh] at hs; cases hs
  · exact hu

theorem invariant_answer {s t : State} {next : CtlPhase} (h : Invariant s)
    (hs : s.ctl.state.afterAnswer = some next) (ht : pollTransmit (State.go next) s = .next t) :
    Invariant t := by
  cases hp : s.ctl.state <;> simp only [hp, CtlPhase.afterAnswer, reduceCtorEq] at hs <;>
    obtain rfl := Option.some.inj hs <;>
    refine invariant_pollTransmit h (by rw [hp]; rfl) ht fun u hu hready hctl => ?_
  case appRun1 =>
    refine hready.goes (by decide) (fun hf => ?_) (erasingOk_of_none rfl u) fun _ => ?_
    · rw [activated_of_gated hu (by rw [hctl, hp]; rfl)] at hf; cases hf
    · exact hu.running (by rw [hctl, hp]; rfl)
  case sendResp1 => exact hready.goes_main

/-- The erase cursor advances once the sector before it has been reported (R225). -/
theorem invariant_report {s t : State} {r : Region} (h : Invariant s)
    (hs : s.ctl.state = reportPhase r) (ht : pollTransmit (nextSector (erasePhase r)) s = .next t) :
    Invariant t := by
  refine invariant_pollTransmit h (by rw [hs]; cases r <;> rfl) ht fun u hu hready hctl => ?_
  obtain ⟨hop, hregion, hidx, hflags⟩ := hu.erasing r true (by rw [hctl, hs]; cases r <;> rfl)
  have ha := activated_of_gated hu (by rw [hctl, hs]; cases r <;> rfl)
  have hnext : Ready { u with ctl := { u.ctl with eraseIdx := u.ctl.eraseIdx + 1 } } :=
    hready.with_ctl (hready.session.of_same rfl rfl hready.session.update fun hv => ⟨hv, rfl, rfl⟩)
  refine hnext.goes (by cases r <;> decide) (fun hf => absurd ha (Bool.eq_false_iff.1 hf)) ?_
    (runningOk_of_false (by cases r <;> rfl) _)
  rintro r' sends he
  obtain ⟨rfl, rfl⟩ : r = r' ∧ false = sends := by cases r <;> cases he <;> exact ⟨rfl, rfl⟩
  refine ⟨hop, hregion, ?_, hflags⟩
  have hle : (u.ctl.eraseIdx + 1).toNat ≤ u.ctl.eraseIdx.toNat + 1 := by
    rw [BitVec.toNat_add]; exact Nat.mod_le _ _
  have hlt : u.ctl.eraseIdx.toNat < u.cfg.sectors r := hidx
  exact hle.trans hlt

/-- Settles O56: each kind of poll keeps the three parts. -/
theorem invKept : Obligations.InvKept := by
  intro s t h hstep
  cases step_polled h.caller hstep with
  | init hs => exact invariant_pollInit h hs
  | main hs => exact invariant_pollMain h hs
  | rxWait hs ht => exact invariant_pollRxWait h hs ht
  | begin hs => exact invariant_pollBegin h hs
  | erase r hs ht => exact invariant_pollErase h hs ht
  | delay next hs d => exact invariant_pollDelay h hs d
  | answer next hs ht => exact invariant_answer h hs ht
  | report r hs ht => exact invariant_report h hs ht
  | handoff hs => exact h

/-! ### The invariant after reset (R42, R340) -/

/-- Settles O10: after reset nothing is received, sent, staged or erased, and the buffers are empty. -/
theorem invAtReset : Obligations.InvAtReset := by
  have reset : ∀ (c : Config) (env : Env), c.WF → Memory.wf env.flash →
      Invariant (State.resetWith c env []) := by
    intro c env hwf hflash
    refine invariant_iff.2 ⟨⟨hwf, rfl, rxOk_of_armed rfl rfl, rfl, ?_, ?_, hflash⟩,
      .of_unstaged (fun hup => by cases hup) rfl, ?_⟩
    · exact ⟨.nil, fun x hx => by cases hx⟩
    · exact ⟨.nil, fun x hx => by cases hx⟩
    · exact ⟨fun _ => rfl, fun hne => absurd rfl hne, fun hne => absurd rfl hne, rfl, fun _ => rfl,
        erasingOk_of_none (p := .init) rfl _, runningOk_of_false (p := .init) rfl _,
        fun hh => (by cases hh)⟩
  exact ⟨reset, reset Config.ref4 Env.unknown (by decide) flashWf_nil⟩

/-! ### Under the invariant a step goes on (R302) -/

/-- The staged chunk can be read and its place in flash exists, so `WRITE` goes on; so does every other
command. -/
theorem exec_command_next {s : State} {i : Instr} (hcmd : i.format = .cmd) (hwf : s.cfg.WF)
    (h : SessionInv s) : ∃ t, exec i s = .next t := by
  cases hact : s.ctl.activated with
  | false =>
    by_cases ha : ∃ args, i = .cmdActivate args
    · obtain ⟨args, rfl⟩ := ha
      simp only [exec, execCmdActivate]
      split <;> exact ⟨_, rfl⟩
    · exact ⟨_, exec_gated hact hcmd fun args hi => ha ⟨args, hi⟩⟩
  | true =>
    cases i <;> simp only [Instr.format, reduceCtorEq] at hcmd
    case cmdActivate args =>
      simp only [exec, execCmdActivate]
      split <;> exact ⟨_, rfl⟩
    case cmdBegin args =>
      rw [exec_begin hact]
      split
      · exact ⟨_, rfl⟩
      · split <;> exact ⟨_, rfl⟩
    case cmdSend args =>
      rw [exec_send hact]
      split
      · exact ⟨_, rfl⟩
      · split <;> exact ⟨_, rfl⟩
    case cmdWrite args =>
      by_cases hmay : s.ctl.updateInProgress = true ∧ s.ctl.stagedValid = true
      · obtain ⟨-, hend, -, -, bytes, hread⟩ := h.staged hmay.2
        have ⟨_, _, _, _, _, _, _, ⟨_, hspace⟩, _⟩ := hwf
        rw [exec_write hact hmay.1 hmay.2 (hend.trans hspace) hread]
        simp only
        split <;> exact ⟨_, rfl⟩
      · refine ⟨_, exec_write_refused hact ?_ args⟩
        simpa [← Bool.not_eq_true, or_iff_not_imp_left] using hmay
    case cmdEnd args => exact ⟨_, exec_end hact args⟩
    case cmdCheckCrc args =>
      rw [exec_checkCrc hact]
      split <;> exact ⟨_, rfl⟩
    case cmdAppRun args =>
      rw [exec_appRun hact]
      split
      · exact ⟨_, rfl⟩
      · split <;> exact ⟨_, rfl⟩
    case cmdEraseUserData args =>
      rw [exec_eraseUserData hact]
      split <;> exact ⟨_, rfl⟩
    case cmdReserved op args => exact ⟨_, rfl⟩

/-- A packet that can be read is dispatched (R215). -/
theorem dispatch_next {s : State} {bytes : List Byte} (hread : s.packet = .ok bytes) (hwf : s.cfg.WF)
    (h : SessionInv s) : ∃ t, dispatch s = .next t := by
  cases bytes with
  | nil => exact ⟨s.go .main, by simp only [dispatch, hread]⟩
  | cons op args =>
    obtain ⟨i, hi⟩ : ∃ i, decodeCommand s.cfg (op :: args) = .ok i := ⟨_, rfl⟩
    rw [dispatch_eq_exec hread hi]
    exact exec_command_next (encode_of_decodeCommand hi).1 hwf h

/-- A delivered packet is the received packet. -/
theorem packet_of_delivered {s : State} (h : s.Delivered) : ∃ bytes, s.packet = .ok bytes := by
  obtain ⟨payload, hl, hholds, -⟩ := h
  exact ⟨payload, by rw [State.packet, ← hl]; exact hholds⟩

/-- Under R23 the receiver stores inside `buf`. -/
theorem cnt_lt_of_rxOk {s : State} (h : s.RxOk) (hs : s.rx.state = .body) :
    s.rx.cnt.toNat < s.cfg.cap := by
  simp only [State.RxOk, hs] at h
  exact h.1.trans_le h.2.1

/-- The receiving part of an `RX_WAIT` poll goes on where the receiver does. -/
theorem rxWaitPull_ok {s : State} (h : s.RxOk) : ∃ p, rxWaitPull s = .ok p := by
  have step : ∀ u : State, u.rx = s.rx → u.cfg = s.cfg →
      ∃ q, rxStep u.serialGet.1 u.serialGet.2 = .ok q := fun u hrx hc =>
    rxStep_total _ fun hs => by
      rw [serialGet_rx, hrx] at hs
      rw [serialGet_rx, serialGet_cfg, hrx, hc]; exact cnt_lt_of_rxOk h hs
  unfold rxWaitPull
  cases ha : s.autoBootArmed
  · rw [autoBootDue_not ha]
    obtain ⟨q, hq⟩ := step s rfl rfl
    simp only [hq]
    exact ⟨_, rfl⟩
  · rw [autoBootDue_armed ha]
    by_cases ht : s.cfg.tBoot ≤ s.now.1 - s.ctl.tBoot
    · rw [decide_eq_true ht]; exact ⟨_, rfl⟩
    · rw [decide_eq_false ht]
      obtain ⟨q, hq⟩ := step s.now.2 rfl rfl
      simp only [hq]
      exact ⟨_, rfl⟩

theorem pollRxWait_next {s : State} (h : Invariant s) (hs : s.ctl.state = .rxWait) :
    ∃ t, pollRxWait s = .next t := by
  obtain ⟨p, hpull⟩ := rxWaitPull_ok h.rx
  rcases rxWaitPull_cases hpull with ⟨-, -, rfl⟩ | ⟨input, u, events, r, s1, hasked, hevents, hstep, rfl⟩
  · exact ⟨_, by simp only [pollRxWait, hpull]; rfl⟩
  · cases r with
    | notReceived => exact ⟨s1, by simp only [pollRxWait, hpull]⟩
    | broken => exact ⟨s1.go .main, by simp only [pollRxWait, hpull]⟩
    | received =>
      have he : Event.handoff ∉ events := fun hmem => by
        rcases hevents _ hmem with ⟨_, he⟩ | ⟨_, he⟩ <;> cases he
      have hu := (listening_of_invariant h (by rw [hs]; rfl) (by simp [hs])).asked hasked he
      obtain ⟨bytes, hread⟩ := packet_of_delivered ((rxStep_sound hu.data.rx hstep).2 rfl)
      have h1 := hu.received hstep
      rw [pollRxWait_received hpull]
      exact dispatch_next hread h1.data.cfg h1.session

theorem pollErase_next {s : State} {r : Region} (h : s.ctl.eraseIdx.toNat ≤ s.cfg.sectors r) :
    ∃ t, pollErase r s = .next t := by
  rcases h.eq_or_lt with heq | hlt
  · exact ⟨_, if_pos heq⟩
  · unfold pollErase
    simp only [if_neg hlt.ne, if_pos hlt]
    split <;> exact ⟨_, rfl⟩

theorem pollTransmit_next {s : State} (h : s.TxOk) (f : State → State) :
    ∃ t, pollTransmit f s = .next t := by
  obtain ⟨⟨r, u⟩, hstep⟩ := txStep_total fun hs => bufGet_of_txOk h hs
  exact ⟨_, pollTransmit_of hstep f⟩

/-- Settles O57: the receiver stores inside `buf`, the packet received and the one being sent can be
read, so can the staged chunk, and the erase cursor is inside its region. -/
theorem invProgress : Obligations.InvProgress := by
  intro s h
  rw [step_eq_poll h.cfg h.caller]
  cases hs : s.ctl.state <;> rw [exec_ctlPoll hs]
  case rxWait => exact pollRxWait_next h hs
  case flashClear => exact pollErase_next (h.erasing .app false (by rw [hs]; rfl)).2.2.1
  case userDataClear => exact pollErase_next (h.erasing .ud false (by rw [hs]; rfl)).2.2.1
  case sendEventFlashClear1 => exact pollTransmit_next h.tx _
  case sendEventUserDataClear1 => exact pollTransmit_next h.tx _
  case appRun1 => exact pollTransmit_next h.tx _
  case sendResp1 => exact pollTransmit_next h.tx _
  all_goals exact ⟨_, rfl⟩

end Sys2Proof.Machine
end

section
/-! Proofs for spec/43_control_fsm.md R252 (g) and 20_memory.md R69: when flash is written or erased, and
which confirmed sectors a step may lose. -/

namespace Sys2Proof.Machine

/-! ### Steps that leave flash alone -/

/-- The two port calls that may change flash (R40). -/
def Event.touchesFlash : Event → Bool
  | .flashWrite _ _ _ => true
  | .sectorErase _ _ => true
  | _ => false

/-- From `s` to `t` flash was neither written nor erased, and no confirmed sector was lost. -/
def Untouched (s t : State) : Prop :=
  ∃ events, t.trace = s.trace ++ events ∧ (∀ e ∈ events, e.touchesFlash = false) ∧ s.env.Keeps t.env

theorem Untouched.trans {s t u : State} (h : Untouched s t) (h' : Untouched t u) : Untouched s u := by
  obtain ⟨xs, htrace, hxs, henv⟩ := h
  obtain ⟨ys, htrace', hys, henv'⟩ := h'
  refine ⟨xs ++ ys, by rw [htrace', htrace, List.append_assoc], fun e he => ?_, henv.trans henv'⟩
  exact (List.mem_append.1 he).elim (hxs e) (hys e)

theorem untouched_of_same {s t : State} (htrace : t.trace = s.trace) (henv : t.env = s.env) :
    Untouched s t :=
  ⟨[], by rw [htrace, List.append_nil], by simp, by rw [henv]; exact .refl _⟩

/-- One event that is neither a write nor an erase. -/
theorem untouched_of_event {s t : State} {e : Event} (htrace : t.trace = s.trace ++ [e])
    (he : e.touchesFlash = false) (henv : t.env = s.env) : Untouched s t :=
  ⟨[e], htrace, by simpa using he, by rw [henv]; exact .refl _⟩

theorem untouched_of_asked {s u : State} {events : List Event} (h : Asked s u events)
    (he : ∀ e ∈ events, e.touchesFlash = false) : Untouched s u := by
  obtain ⟨env, henv, rfl⟩ := h
  exact ⟨events, rfl, he, henv⟩

theorem untouched_rxStep {s t : State} {input : Option Byte} {r : RxResult}
    (h : rxStep input s = .ok (r, t)) : Untouched s t := by
  obtain ⟨⟨_, _, _, henv, _⟩, -⟩ := rxStep_only h
  rcases (rxStep_writes h).2 with hsame | ⟨-, e, hraised⟩
  · exact untouched_of_same hsame henv
  · exact untouched_of_event hraised rfl henv

theorem untouched_txStep {s t : State} {r : TxResult} (h : txStep s = .ok (r, t)) : Untouched s t := by
  obtain ⟨tx, env, events, rfl, hflash, hconfirmed, -, hevents⟩ := txStep_only h
  refine ⟨events, rfl, fun e he => ?_, hflash, fun x hx => ?_⟩
  · obtain ⟨b, ok, rfl⟩ := hevents e he; rfl
  · show x ∈ env.confirmed
    rw [hconfirmed]; exact hx

theorem untouched_verOpen {s : State} {chunk : List Byte} (hl : chunk.length = 45 + s.cfg.p) :
    Untouched s (verOpen chunk s).2 := by
  obtain ⟨raised, hopened, htrace, henv, -⟩ := verOpen_leaves hl
  refine ⟨raised, htrace, fun e he => ?_, by rw [henv]; exact .refl _⟩
  rw [raised_of_opened hopened e he]; rfl

theorem untouched_raise (s : State) (e : ErrorClass) : Untouched s (s.raise e) :=
  untouched_of_event rfl rfl rfl

theorem untouched_respond (s : State) (op st : Byte) (extra : List Byte) :
    Untouched s (s.respond op st extra) :=
  untouched_of_same rfl rfl

theorem untouched_go (s : State) (p : CtlPhase) : Untouched s (s.go p) := untouched_of_same rfl rfl

/-! ### The polls that touch flash -/

/-- `WRITE` of the staged chunk: everything about the state it was dispatched in, and what it logs. -/
structure Wrote (s t : State) : Prop where
  activated : s.ctl.activated = true
  update : s.ctl.updateInProgress = true
  staged : s.ctl.stagedValid = true
  packet : ∃ args, s.packet = .ok (0x73 :: args)
  confirmed : t.env.confirmed = confirmedAfterWrite s.env.confirmed
  trace : ∃ events bytes ok, t.trace = s.trace ++ events ∧
    bytes.length = s.ctl.stagedLen.toNat ∧ Event.flashWrite s.ctl.stagedAddr bytes ok ∈ events ∧
    ∀ e ∈ events, e.touchesFlash = true → e = .flashWrite s.ctl.stagedAddr bytes ok

/-- Dispatch leaves flash alone, but for `WRITE` (R264). -/
theorem dispatched_flash {s t : State} (h : Dispatched s t) : Untouched s t ∨ Wrote s t := by
  cases h with
  | dropped => exact .inl (untouched_go s .main)
  | activated hp => exact .inl (untouched_of_same rfl rfl)
  | refused op st u ha hu =>
    rcases hu with rfl | rfl | rfl
    · exact .inl (untouched_respond _ _ _ _)
    · exact .inl (untouched_of_same rfl rfl)
    · exact .inl ((untouched_raise s _).trans (untouched_respond _ _ _ _))
  | begun chunk ha hl hp => exact .inl ((untouched_verOpen hl).trans (untouched_go _ _))
  | rejected chunk op st u ha hl hu =>
    rcases hu with rfl | rfl
    · exact .inl ((untouched_verOpen hl).trans (untouched_respond _ _ _ _))
    · exact .inl (((untouched_verOpen hl).trans (untouched_raise _ _)).trans
        (untouched_respond _ _ _ _))
  | staged chunk ha hl hp =>
    exact .inl ((untouched_verOpen hl).trans (untouched_of_same rfl rfl))
  | unchanged ha hu hs bytes => exact .inl (untouched_of_event rfl rfl rfl)
  | written ha hu hs hp bytes staged hl =>
    obtain ⟨ok, env, st, events, hconfirmed, -, hevents, hw⟩ := writeStaged_cases s.ctl.stagedAddr
      staged (s.unstage.log (.flashRead s.ctl.stagedAddr bytes))
    rw [hw]
    refine .inr ⟨ha, hu, hs, hp, hconfirmed, .flashRead s.ctl.stagedAddr bytes :: events, staged, ok,
      by simp, hl, ?_, ?_⟩
    · rcases hevents with rfl | rfl <;> simp
    · rcases hevents with rfl | rfl <;> simp [Event.touchesFlash]
  | ended ha => exact .inl (untouched_of_same rfl rfl)
  | checked op st ha hu => exact .inl (untouched_of_event rfl rfl rfl)
  | runs ha hu hv => exact .inl (untouched_of_event rfl rfl rfl)
  | erases ha hu => exact .inl (untouched_of_same rfl rfl)

theorem untouched_pollInit (s : State) : Untouched s (pollInit s) := by
  obtain ⟨u, c, events, p, hasked, hu, hevents, -⟩ := pollInit_cases s
  have hfirst : Untouched s u := untouched_of_asked hasked fun e he => by
    rcases hevents e he with ⟨_, rfl⟩ | ⟨_, rfl⟩ | ⟨_, rfl⟩ <;> rfl
  rw [hu]
  refine hfirst.trans ⟨if p = .handoff then [.handoff] else [], rfl, fun e he => ?_, .refl _⟩
  split at he
  · rw [List.mem_singleton.1 he]; rfl
  · cases he

theorem untouched_pollDelay (d : Word32) (next : CtlPhase) (s : State) :
    Untouched s (pollDelay d (State.leaveFor next) s) := by
  obtain ⟨u, x, hasked, ht⟩ := pollDelay_cases d (State.leaveFor next) s
  have hfirst : Untouched s u := untouched_of_asked hasked (by simp [Event.touchesFlash])
  rcases ht with ht | ht | ht <;> rw [ht]
  · exact hfirst.trans (untouched_of_same rfl rfl)
  · exact hfirst
  · refine hfirst.trans ⟨if next = .handoff then [.handoff] else [], rfl, fun e he => ?_, .refl _⟩
    split at he
    · rw [List.mem_singleton.1 he]; rfl
    · cases he

theorem untouched_pollTransmit {f : State → State} {s t : State} (h : pollTransmit f s = .next t)
    (hf : ∀ u, Untouched u (f u)) : Untouched s t := by
  obtain ⟨r, u, hstep, rfl⟩ := pollTransmit_cases h
  split
  · exact (untouched_txStep hstep).trans (hf u)
  · exact untouched_txStep hstep

/-- A poll in `RX_WAIT` leaves flash alone, but for a `WRITE` it has received. -/
theorem pollRxWait_flash {s t : State} (h : pollRxWait s = .next t) :
    Untouched s t ∨ ∃ s1, rxWaitPull s = .ok (.stepped .received s1) ∧ s1.ctl = s.ctl ∧
      Untouched s s1 ∧ Wrote s1 t := by
  rcases pollRxWait_cases h with ⟨-, -, rfl⟩ |
    ⟨input, u, events, r, s1, hasked, hevents, hstep, hpull, hcase⟩
  · refine .inl ((untouched_of_asked (asked_now s) (by simp [Event.touchesFlash])).trans ?_)
    exact untouched_of_event rfl rfl rfl
  · have hfirst : Untouched s s1 := (untouched_of_asked hasked fun e he => by
      rcases hevents e he with ⟨_, rfl⟩ | ⟨_, rfl⟩ <;> rfl).trans (untouched_rxStep hstep)
    rcases hcase with ⟨rfl, hd⟩ | ⟨rfl, rfl⟩ | ⟨rfl, rfl⟩
    · rcases dispatched_flash hd with hquiet | hwrote
      · exact .inl (hfirst.trans hquiet)
      · exact .inr ⟨s1, hpull, (pulled_only hasked hstep).1, hfirst, hwrote⟩
    · exact .inl (hfirst.trans (untouched_go s1 .main))
    · exact .inl hfirst

/-! ### R252 (g) -/

/-- What R252 (g) and R69 say of a step from `s` to `t` that logged `events`. -/
def FlashRules (s t : State) (events : List Event) : Prop :=
  (∀ addr bytes ok, Event.flashWrite addr bytes ok ∈ events →
    s.ctl.state = .rxWait ∧ s.ctl.activated = true ∧ s.ctl.updateInProgress = true ∧
    s.ctl.stagedValid = true ∧ addr = s.ctl.stagedAddr ∧
    s.cfg.appBase ≤ addr.toNat ∧ addr.toNat + bytes.length ≤ s.cfg.appEnd ∧
    ∃ s1 args, rxWaitPull s = .ok (.stepped .received s1) ∧
      s1.bufGetBytes 0 s1.rx.len.toNat = .ok (0x73 :: args)) ∧
  (∀ r k, Event.sectorErase r k ∈ events →
    s.ctl.activated = true ∧ k < s.cfg.sectors r ∧
    s.ctl.state = match r with | .app => .flashClear | .ud => .userDataClear) ∧
  (t.env.flash ≠ s.env.flash →
    ∃ e ∈ events, (∃ addr bytes ok, e = Event.flashWrite addr bytes ok) ∨
      ∃ r k, e = Event.sectorErase r k) ∧
  (∀ r k, (r, k) ∈ s.env.confirmed → (r, k) ∈ t.env.confirmed ∨
    (r = .app ∧ ∃ addr bytes ok, Event.flashWrite addr bytes ok ∈ events))

theorem Untouched.rules {s t : State} (h : Untouched s t) :
    ∃ events, t.trace = s.trace ++ events ∧ FlashRules s t events := by
  obtain ⟨events, htrace, hevents, hflash, hconfirmed⟩ := h
  refine ⟨events, htrace, fun addr bytes ok he => ?_, fun r k he => ?_, fun hne => absurd hflash hne,
    fun r k hx => .inl (hconfirmed _ hx)⟩
  · cases hevents _ he
  · cases hevents _ he

/-- The write of a received `WRITE`: the staged chunk lies inside the application region (R252 (e)). -/
theorem rules_of_wrote {s s1 t : State} (h : Invariant s) (hs : s.ctl.state = .rxWait)
    (hpull : rxWaitPull s = .ok (.stepped .received s1)) (hctl : s1.ctl = s.ctl)
    (hfirst : Untouched s s1) (hwrote : Wrote s1 t) :
    ∃ events, t.trace = s.trace ++ events ∧ FlashRules s t events := by
  obtain ⟨ha, hu, hst, ⟨args, hpacket⟩, hconfirmed, events, bytes, ok, htrace, hl, hmem, honly⟩ := hwrote
  obtain ⟨xs, htrace', hxs, -, hkept⟩ := hfirst
  rw [hctl] at ha hu hst hl hmem honly
  obtain ⟨hbase, hend, -⟩ := h.staged hst
  have hall : ∀ e ∈ xs ++ events, e.touchesFlash = true → e = .flashWrite s.ctl.stagedAddr bytes ok :=
    fun e he htouch => by
      rcases List.mem_append.1 he with he | he
      · rw [hxs e he] at htouch; cases htouch
      · exact honly e he htouch
  have hmem' : Event.flashWrite s.ctl.stagedAddr bytes ok ∈ xs ++ events :=
    List.mem_append.2 (.inr hmem)
  refine ⟨xs ++ events, by rw [htrace, htrace', List.append_assoc], fun addr bytes' ok' he => ?_,
    fun r k he => ?_, fun _ => ⟨_, hmem', .inl ⟨_, _, _, rfl⟩⟩, fun r k hx => ?_⟩
  · cases hall _ he rfl
    exact ⟨hs, ha, hu, hst, rfl, hbase, by rw [hl]; exact hend, s1, args, hpull, hpacket⟩
  · cases hall _ he rfl
  · cases r with
    | app => exact .inr ⟨rfl, _, _, _, hmem'⟩
    | ud =>
      rw [hconfirmed]
      exact .inl (mem_confirmedAfterWrite.2 ⟨hkept _ hx, rfl⟩)

/-- An erase state touches the sector at the cursor, and no confirmed sector is lost. -/
theorem rules_of_pollErase {s t : State} {r : Region} (h : Invariant s)
    (hs : s.ctl.state = erasePhase r) (ht : pollErase r s = .next t) :
    ∃ events, t.trace = s.trace ++ events ∧ FlashRules s t events := by
  have ha := activated_of_gated h (by rw [hs]; cases r <;> rfl)
  rcases pollErase_cases ht with ⟨-, rfl⟩ | ⟨hk, ok, env, events, hkept, hevents, hcase⟩
  · refine Untouched.rules ((untouched_of_same ?_ ?_).trans (untouched_respond _ _ _ _)) <;>
      simp
  · have hwrites : ∀ e ∈ events, e.touchesFlash = true → e = .sectorErase r s.ctl.eraseIdx.toNat := by
      rcases hevents with ⟨-, -, rfl⟩ | ⟨-, rfl⟩ <;> simp [Event.touchesFlash]
    have hchanged : env.flash ≠ s.env.flash → .sectorErase r s.ctl.eraseIdx.toNat ∈ events := by
      rcases hevents with ⟨hsame, -⟩ | ⟨-, rfl⟩
      · exact fun hne => absurd hsame hne
      · simp
    have rules (raised : List Event) (hraised : ∀ e ∈ raised, e.touchesFlash = false)
        (htrace : t.trace = s.trace ++ events ++ raised) (henv : t.env = env) :
        ∃ events, t.trace = s.trace ++ events ∧ FlashRules s t events := by
      have hall : ∀ e ∈ events ++ raised, e.touchesFlash = true →
          e = .sectorErase r s.ctl.eraseIdx.toNat := fun e he htouch => by
        rcases List.mem_append.1 he with he | he
        · exact hwrites e he htouch
        · rw [hraised e he] at htouch; cases htouch
      refine ⟨events ++ raised, by rw [htrace, List.append_assoc], fun addr bytes ok he => ?_,
        fun r' k he => ?_, fun hne => ?_, fun r' k hx => ?_⟩
      · cases hall _ he rfl
      · cases hall _ he rfl
        exact ⟨ha, hk, by cases r <;> exact hs⟩
      · rw [henv] at hne
        exact ⟨_, List.mem_append.2 (.inl (hchanged hne)), .inr ⟨_, _, rfl⟩⟩
      · rw [henv]; exact .inl (hkept _ hx)
    rcases hcase with ⟨-, rfl⟩ | ⟨-, rfl⟩
    · exact rules [.raised (.flashErase s.ctl.eraseIdx.toNat)] (by simp [Event.touchesFlash]) rfl rfl
    · exact rules [] (by simp) (by simp) rfl

/-- Settles O59: of the kinds of polls only a received `WRITE` writes flash and only the erase states
erase it. -/
theorem flashAccess : Obligations.FlashAccess := by
  intro s t h hstep
  show ∃ events, t.trace = s.trace ++ events ∧ FlashRules s t events
  cases step_polled h.caller hstep with
  | init hs => exact (untouched_pollInit s).rules
  | main hs => exact (untouched_of_same (s := s) (t := pollMain s) rfl rfl).rules
  | rxWait hs ht =>
    rcases pollRxWait_flash ht with hquiet | ⟨s1, hpull, hctl, hfirst, hwrote⟩
    · exact hquiet.rules
    · exact rules_of_wrote h hs hpull hctl hfirst hwrote
  | begin hs => exact (untouched_of_same (s := s) (t := pollBegin s) rfl rfl).rules
  | erase r hs ht => exact rules_of_pollErase h hs ht
  | delay next hs d => exact (untouched_pollDelay d next s).rules
  | answer next hs ht => exact (untouched_pollTransmit ht fun u => untouched_go u next).rules
  | report r hs ht => exact (untouched_pollTransmit ht fun u => untouched_of_same rfl rfl).rules
  | handoff hs => exact (untouched_of_same rfl rfl).rules

end Sys2Proof.Machine
end

section
/-! Proofs for spec/42_chunk_verifier.md: the verifier's two operations on the chunk in `buf` (R192 to
R196). Both are `ver_open` with a verdict, so `verOpen_leaves` says what they leave. -/

namespace Sys2Proof.Machine

theorem exec_verIdentity_of_chunk {s : State} {chunk : List Byte} (h : s.chunk = .ok chunk) :
    exec .opVerIdentity s =
      .next ((verIdentity chunk s).2.returning (.ver (verIdentity chunk s).1)) := by
  simp only [exec, execOpVerIdentity, h]

theorem exec_verFirmware_of_chunk {s : State} {chunk : List Byte} (h : s.chunk = .ok chunk) :
    exec .opVerFirmware s =
      .next ((verFirmware chunk s).2.returning (.ver (verFirmware chunk s).1)) := by
  simp only [exec, execOpVerFirmware, h]

/-- A chunk with a byte without a value is not opened (R43). -/
theorem exec_ver_of_error {s : State} {f : Fault} (h : s.chunk = .error f) :
    exec .opVerIdentity s = .fault f ∧ exec .opVerFirmware s = .fault f := by
  simp only [exec, execOpVerIdentity, execOpVerFirmware, h, and_self]

/-- Settles O33: pass or fail, the identity check leaves what `ver_open` leaves. -/
theorem verIdentity_holds : Obligations.VerIdentity := by
  refine ⟨fun s f h => (exec_ver_of_error h).1, fun s chunk (h : s.chunk = .ok chunk) => ?_⟩
  obtain ⟨raised, hopened, htrace, henv, hctl, ⟨hbuf, htx, hrx, hcfg, hcaller, -⟩, -⟩ :=
    verOpen_leaves (chunk_length h)
  rw [exec_verIdentity_of_chunk h]
  by_cases hp : IdentityPasses s.cfg chunk
  · rw [verIdentity_pass hp]
    exact ⟨_, raised, rfl, hopened, htrace, fun _ => rfl, fun hn => absurd hp hn, hctl, hrx, htx,
      hbuf, henv, hcfg, hcaller⟩
  · rw [verIdentity_fail hp]
    exact ⟨_, raised, rfl, hopened, htrace, fun hn => absurd hn hp, fun _ => rfl, hctl, hrx, htx,
      hbuf, henv, hcfg, hcaller⟩

/-- Settles O34: a chunk that passes is staged over the discarded one, any other only discards it. -/
theorem verFirmware_holds : Obligations.VerFirmware := by
  refine ⟨fun s f h => (exec_ver_of_error h).2, fun s chunk (h : s.chunk = .ok chunk) => ?_⟩
  obtain ⟨raised, hopened, htrace, henv, hctl, ⟨hbuf, htx, hrx, hcfg, hcaller, -⟩, -⟩ :=
    verOpen_leaves (chunk_length h)
  rw [exec_verFirmware_of_chunk h]
  by_cases hp : FirmwarePasses s.cfg chunk
  · rw [verFirmware_pass hp]
    refine ⟨_, raised, rfl, hopened, htrace, fun _ => ⟨rfl, ?_⟩, fun hn => absurd hp hn, hrx, htx,
      hbuf, henv, hcfg, hcaller⟩
    show ((verOpen chunk s).2.stage _ _).ctl = _
    rw [stage_ctl, hctl]
  · rw [verFirmware_fail hp]
    exact ⟨_, raised, rfl, hopened, htrace, fun hn => absurd hn hp, fun _ => ⟨rfl, hctl⟩, hrx, htx,
      hbuf, henv, hcfg, hcaller⟩

end Sys2Proof.Machine
end

section
/-! Proofs for spec/44_commands.md: the activation gate (R215), `BEGIN` (R262), `WRITE` (R264),
`APP_RUN` (R267), `ERASE_USER_DATA` (R268), and the opcodes that are not assigned (R110). -/

namespace Sys2Proof.Machine

/-! ### What is dropped (R110, R112, R215) -/

/-- Settles O35. -/
theorem gateDrops : Obligations.GateDrops := fun _ _ ha hf hi => exec_gated ha hf hi

/-- A packet of no bytes is dropped (R215 (1)). -/
theorem dispatch_empty {s : State} (h : s.rx.len = 0) : dispatch s = .next (s.go .main) := by
  have hp : s.packet = .ok [] := by rw [State.packet, h]; rfl
  simp only [dispatch, hp]

/-- Settles O45. -/
theorem unknownDropped : Obligations.UnknownDropped :=
  ⟨fun _ _ _ => rfl, fun _ _ hs hpull hlen =>
    (exec_ctlPoll hs).trans ((pollRxWait_received hpull).trans (dispatch_empty hlen))⟩

/-! ### `BEGIN` (R262) -/

section
variable {s : State} {args : List Byte} (ha : s.ctl.activated = true)
include ha

theorem exec_begin_pass (hl : args.length = 45 + s.cfg.p) (h : IdentityPasses s.cfg args) :
    exec (.cmdBegin args) s = .next ((verOpen args s).2.go .begin) := by
  rw [exec_begin ha, if_neg (not_not.2 (packetLength_eq_iff.2 hl)), verIdentity_pass h]

theorem exec_begin_fail (hl : args.length = 45 + s.cfg.p) (h : ¬IdentityPasses s.cfg args) :
    exec (.cmdBegin args) s =
      .next (((verOpen args s).2.raise .precondition).respond 0x71 0x02 []) := by
  rw [exec_begin ha, if_neg (not_not.2 (packetLength_eq_iff.2 hl)), verIdentity_fail h]

theorem exec_begin_wrong_length (hl : args.length ≠ 45 + s.cfg.p) :
    exec (.cmdBegin args) s = .next (s.respond 0x71 0x02 []) := by
  rw [exec_begin ha, if_pos (packetLength_eq_iff.not.2 hl)]

end

/-- Settles O37: the identity chunk decides between `BEGIN` and the answer, a wrong length comes before
it. -/
theorem begin_holds : Obligations.Begin := by
  intro s args ha
  refine ⟨fun hl hpass => ?passes, fun hl hfail => ?fails, fun hl => ?wrongLength⟩
  case passes =>
    obtain ⟨raised, hopened, htrace, henv, hctl, hunsent, hraised⟩ := verOpen_leaves hl
    obtain rfl := hraised hpass.opened
    obtain ⟨hbuf, htx, hrx, hcfg, hcaller, hresult⟩ := hunsent
    refine ⟨_, exec_begin_pass ha hl hpass, hopened, htrace.trans (List.append_nil _), ?_, hrx, htx,
      hbuf, henv, hcfg, hcaller, hresult⟩
    rw [go_ctl, hctl]; rfl
  case fails =>
    obtain ⟨raised, hopened, htrace, henv, hctl, hunsent, -⟩ := verOpen_leaves hl
    have hqueued := queued_respond (op := 0x71) (st := 0x02) (extra := [])
      (u := (verOpen args s).2.raise .precondition) (by simp) hunsent
    rw [raise_ctl, hctl] at hqueued
    refine ⟨_, raised, exec_begin_fail ha hl hfail, hopened, ?_, henv, hqueued⟩
    rw [respond_trace, raise_trace, htrace]
  case wrongLength =>
    exact ⟨_, exec_begin_wrong_length ha hl, ⟨rfl, rfl, rfl⟩, queued_respond (by simp) (.refl s)⟩

/-! ### `WRITE` (R264) -/

/-- Settles O40: the staged flag is read, not written, before the refusal. -/
theorem writeRefused : Obligations.WriteRefused := fun s args ha hrefused =>
  ⟨_, exec_write_refused ha hrefused args, queued_respond (by simp) (.refl s), rfl, rfl, rfl⟩

theorem unstage_flashRead {s : State} (h : s.ctl.stagedAddr.toNat + s.ctl.stagedLen.toNat ≤ flashSize) :
    s.unstage.flashRead s.unstage.ctl.stagedAddr s.unstage.ctl.stagedLen.toNat =
      .ok (flashGetBytes s.env.flash s.ctl.stagedAddr.toNat s.ctl.stagedLen.toNat,
        s.unstage.log (.flashRead s.ctl.stagedAddr
          (flashGetBytes s.env.flash s.ctl.stagedAddr.toNat s.ctl.stagedLen.toNat))) := if_pos h

section
variable {s : State} (ha : s.ctl.activated = true) (hu : s.ctl.updateInProgress = true)
  (hs : s.ctl.stagedValid = true) (args : List Byte)
include ha hu hs

theorem exec_write_beyond (h : flashSize < s.ctl.stagedAddr.toNat + s.ctl.stagedLen.toNat) :
    exec (.cmdWrite args) s =
      .fault (.flashAddress (s.ctl.stagedAddr.toNat + s.ctl.stagedLen.toNat)) := by
  have hread : s.unstage.flashRead s.unstage.ctl.stagedAddr s.unstage.ctl.stagedLen.toNat =
      .error (.flashAddress (s.ctl.stagedAddr.toNat + s.ctl.stagedLen.toNat)) :=
    if_neg (Nat.not_le.2 h)
  simp only [exec, execCmdWrite, State.gated, ha, State.writeAllowed, hu, hs, hread, Bool.and_self,
    if_true]

theorem exec_write_unwritten
    (hin : s.ctl.stagedAddr.toNat + s.ctl.stagedLen.toNat ≤ flashSize) {f : Fault}
    (h : s.plainGetBytes 0 s.ctl.stagedLen.toNat = .error f) :
    exec (.cmdWrite args) s = .fault f := by
  have hplain (e : Event) :
      (s.unstage.log e).plainGetBytes 0 (s.unstage.log e).ctl.stagedLen.toNat = .error f :=
    (plainGetBytes_congr (s := s) (t := s.unstage.log e) rfl rfl 0 _).trans h
  simp only [exec, execCmdWrite, State.gated, ha, State.writeAllowed, hu, hs, unstage_flashRead hin,
    hplain, Bool.and_self, if_true]

end

theorem writeStaged_ok {s u : State} {a : Word32} {bytes : List Byte}
    (h : s.flashWrite a bytes = (true, u)) : writeStaged a bytes s = u.respond 0x73 0x00 [] := by
  simp only [writeStaged, h]

theorem writeStaged_failed {s u : State} {a : Word32} {bytes : List Byte}
    (h : s.flashWrite a bytes = (false, u)) :
    writeStaged a bytes s = (u.raise .flashWrite).respond 0x73 0x01 [] := by
  simp only [writeStaged, h]

/-- Settles O39: the read decides whether to write, and the environment's answer what is told. -/
theorem write : Obligations.Write := by
  intro s args ha hu hs a n ctl
  refine ⟨exec_write_beyond ha hu hs args, fun hin f => exec_write_unwritten ha hu hs args hin,
    fun staged hwf hin hplain => ?_⟩
  have hn : staged.length = n := (plainGetBytes_ok_iff.1 hplain).1
  have hexec := exec_write ha hu hs hin hplain args
  refine ⟨fun hsame => ?unchanged, fun hdiffers => ?written⟩
  case unchanged =>
    rw [hexec, if_pos hsame, show flashGetBytes s.env.flash _ _ = staged from hsame]
    exact ⟨_, rfl, queued_respond (by simp) (.refl s), rfl, rfl, rfl⟩
  case written =>
    obtain ⟨answer, answers, drawn, hanswer, hwrite⟩ := flashWrite_cases
      (s.unstage.log (.flashRead s.ctl.stagedAddr (flashGetBytes s.env.flash a n)))
      s.ctl.stagedAddr staged
    rw [hexec, if_neg hdiffers]
    cases answer with
    | ok =>
      rw [writeStaged_ok hwrite]
      refine ⟨_, true, rfl, queued_respond (by simp) (.refl s), rfl, rfl, fun x rest hx => ?_,
        fun _ => ?_, fun i hi => ?_, by simp⟩
      · obtain ⟨rfl, rfl, rfl⟩ := hanswer x rest hx
        simp
      · rw [← hn]
        exact flashGetBytes_setBytes hwf (by omega)
      · exact (flashGet_setBytes hwf (by omega) i).trans (if_neg (by omega))
    | fail left =>
      rw [writeStaged_failed hwrite]
      refine ⟨_, false, rfl, queued_respond (by simp) (.refl s), rfl, rfl, fun x rest hx => ?_,
        (by simp), fun i hi => ?_, by simp⟩
      · obtain ⟨rfl, rfl, rfl⟩ := hanswer x rest hx
        simp
      · exact flashGet_setLeft hwf a staged.length left (by omega)

/-! ### `APP_RUN` (R267) -/

/-- Settles O43: the update in progress decides whether the check is run, its answer where the command
leads. -/
theorem appRun : Obligations.AppRun := by
  intro s args ha v
  refine ⟨fun hu => ?_, fun hu => ?_⟩
  · rw [exec_appRun ha, if_pos hu]
    exact ⟨_, rfl, queued_respond (by simp) (.refl s), rfl, rfl, rfl⟩
  · rw [exec_appRun ha, if_neg (Bool.eq_false_iff.1 hu)]
    have hcheck : s.fwCheck = (v, s.log (.fwCheck v)) := rfl
    rw [hcheck]
    cases v with
    | true => exact ⟨_, rfl, queued_send (by simp) (.refl s), rfl, rfl, rfl⟩
    | false => exact ⟨_, rfl, queued_respond (by simp) (.refl s), rfl, rfl, rfl⟩

/-! ### `ERASE_USER_DATA` (R268) -/

/-- Settles O44: the feature flag decides. -/
theorem eraseUserData : Obligations.EraseUserData := by
  intro s args ha
  refine ⟨fun hud => ?_, fun hud => ?_⟩
  · rw [exec_eraseUserData ha, if_pos hud]; rfl
  · rw [exec_eraseUserData ha, if_neg (Bool.eq_false_iff.1 hud)]; rfl

/-! ### The packets the block sends (R106 to R108) -/

/-- Settles O46: each row hands its packet to the transmitter. -/
theorem responses : Obligations.Responses := by
  intro s op r k
  refine ⟨⟨_, rfl, ⟨rfl, rfl, rfl⟩, queued_respond (by simp) (.refl s)⟩,
    ⟨_, rfl, ⟨rfl, rfl, rfl⟩, queued_respond (by simp) (.refl s)⟩,
    ⟨_, rfl, ⟨rfl, rfl, rfl⟩, queued_respond (by simp) (.refl s)⟩,
    ⟨_, rfl, ⟨rfl, rfl, rfl⟩, ?_⟩⟩
  cases r <;> exact queued_respond (by simp) (.refl s)

/-- Settles O47. -/
theorem progressEvent : Obligations.ProgressEvent := fun s _ _ =>
  ⟨⟨_, rfl, ⟨rfl, rfl, rfl⟩, queued_event .app (.refl s)⟩,
    ⟨_, rfl, ⟨rfl, rfl, rfl⟩, queued_event .ud (.refl s)⟩⟩

end Sys2Proof.Machine
end

section
/-! Proofs for spec/10_state.md section 4 (what the ports answer, R40, R54 to R58, R69), for
spec/43_control_fsm.md R213 and R214 (the poll in `RX_WAIT`), and for where the model stops (R43, R161,
R221). -/

namespace Sys2Proof.Machine

/-! ### Ports with a listed answer (R40) -/

theorem serialGet_listed {s : State} {x : Option Byte} {rest : List (Option Byte)}
    (h : s.env.serialIn = x :: rest) :
    s.serialGet = (x, { s with
      env := { s.env with serialIn := rest }
      trace := s.trace ++ [.serialGet x] }) := by
  simp only [State.serialGet, h, draw_listed]; rfl

theorem serialTxEmpty_listed {s : State} {x : Bool} {rest : List Bool}
    (h : s.env.txEmpty = x :: rest) :
    s.serialTxEmpty = (x, { s with
      env := { s.env with txEmpty := rest }
      trace := s.trace ++ [.serialTxEmpty x] }) := by
  simp only [State.serialTxEmpty, h, draw_listed]; rfl

theorem now_listed {s : State} {x : Word32} {rest : List Word32} (h : s.env.clock = x :: rest) :
    s.now = (x, { s with
      env := { s.env with clock := rest }
      trace := s.trace ++ [.clockMs x] }) := by
  simp only [State.now, h, draw_listed]; rfl

theorem strapAsserted_listed {s : State} {x : Bool} {rest : List Bool}
    (h : s.env.strap = x :: rest) :
    s.strapAsserted = (x, { s with
      env := { s.env with strap := rest }
      trace := s.trace ++ [.strapAsserted x] }) := by
  simp only [State.strapAsserted, h, draw_listed]; rfl

theorem sectorErase_listed {s : State} {r : Region} {k : Nat} {cells : List Host.Cell}
    {rest : List (List Host.Cell)} (h : s.env.eraseEffect = cells :: rest) :
    s.sectorErase r k = { s with
      env := { s.env with
        eraseEffect := rest
        flash := flashSetCells s.env.flash (cells.filter fun cell => mayHold s.cfg r cell.1) }
      trace := s.trace ++ [.sectorErase r k] } := by
  simp only [State.sectorErase, h, draw_listed]; rfl

/-- Settles O48: each port by the equation that says what it takes from the environment. -/
theorem portAnswers : Obligations.PortAnswers := by
  refine ⟨fun s x rest h => ?serialGet, fun s b ok rest h => ?sink, fun s x rest h => ?txEmpty,
    fun s x rest h => ?now, fun s x rest h => ?strap, fun s addr bytes x rest h => ?flashWrite,
    fun s addr n h => ⟨_, if_pos h, rfl⟩, fun s => ⟨rfl, rfl⟩, fun s r k h => ?confirmed,
    fun s r k x rest hnew h => ?sectorErased, fun s r k cells rest h => ?sectorErase⟩
  case serialGet => rw [serialGet_listed h]; exact ⟨rfl, rfl⟩
  case sink => rw [sink_listed h]; exact ⟨rfl, rfl⟩
  case txEmpty => rw [serialTxEmpty_listed h]; exact ⟨rfl, rfl⟩
  case now => rw [now_listed h]; exact ⟨rfl, rfl⟩
  case strap => rw [strapAsserted_listed h]; exact ⟨rfl, rfl⟩
  case flashWrite =>
    obtain ⟨answer, answers, drawn, hanswer, hwrite⟩ := flashWrite_cases s addr bytes
    obtain ⟨rfl, rfl, rfl⟩ := hanswer x rest h
    rw [hwrite]
    exact ⟨rfl, rfl⟩
  case confirmed => rw [sectorErased_confirmed h]; exact ⟨rfl, rfl⟩
  case sectorErased => rw [sectorErased_listed hnew h]; exact ⟨rfl, rfl⟩
  case sectorErase => rw [sectorErase_listed h]

/-! ### The poll in `RX_WAIT` (R213, R214) -/

/-- `s0` is `s` after an auto-boot test that does not fire: the clock is read only where the test's
other conditions hold (R214). -/
def State.StaysFor (s s0 : State) : Prop :=
  if s.cfg.bootPolicy = .timer ∧ s.ctl.activated = false ∧ s.ctl.firmwareValid = true then
    s0 = s.now.2 ∧ s.now.1 - s.ctl.tBoot < s.cfg.tBoot
  else s0 = s

theorem autoBootDue_of_stays {s s0 : State} (h : s.StaysFor s0) : s.autoBootDue = (false, s0) := by
  unfold State.StaysFor at h
  split at h
  · next harmed =>
    obtain ⟨rfl, hwait⟩ := h
    rw [autoBootDue_armed (autoBootArmed_iff.2 harmed), decide_eq_false (BitVec.not_le.2 hwait)]
  · next harmed =>
    subst h
    exact autoBootDue_not (Bool.eq_false_iff.2 fun h => harmed (autoBootArmed_iff.1 h))

theorem pollRxWait_autoBoot {s : State} (harmed : s.autoBootArmed = true)
    (hdue : s.cfg.tBoot ≤ s.now.1 - s.ctl.tBoot) : pollRxWait s = .next s.now.2.doHandoff := by
  simp only [pollRxWait, rxWaitPull, autoBootDue_armed harmed, decide_eq_true hdue]

/-- Where the auto-boot test does not fire, one byte goes through the receiver (R213). -/
theorem rxWaitPull_of_stays {s s0 s1 : State} {r : RxResult} (h : s.StaysFor s0)
    (hstep : rxStep s0.serialGet.1 s0.serialGet.2 = .ok (r, s1)) :
    rxWaitPull s = .ok (.stepped r s1) := by
  simp only [rxWaitPull, autoBootDue_of_stays h, hstep]

theorem pollRxWait_of_rx_error {s s0 : State} {f : Fault} (h : s.StaysFor s0)
    (hstep : rxStep s0.serialGet.1 s0.serialGet.2 = .error f) : pollRxWait s = .fault f := by
  simp only [pollRxWait, rxWaitPull, autoBootDue_of_stays h, hstep]

theorem dispatch_unreadable {s : State} {f : Fault} (h : s.packet = .error f) :
    dispatch s = .fault f := by
  simp only [dispatch, h]

theorem doHandoff_now (s : State) : s.now.2.doHandoff = { s with
    ctl := s.ctl.enters .handoff
    env := s.now.2.env
    trace := s.trace ++ [.clockMs s.now.1, .handoff] } := by
  rw [show ∀ x y : Event, s.trace ++ [x, y] = s.trace ++ [x] ++ [y] by simp]; rfl

/-- Settles O51: the auto-boot test decides between the handoff and the receiver, whose result decides
the rest. -/
theorem pollRxWait_holds : Obligations.PollRxWait := by
  intro s hs armed
  rw [exec_ctlPoll hs]
  refine ⟨fun harmed hdue => ?_, fun s0 s1 r hstays hstep => ⟨?_, ?_, ?_⟩,
    fun s0 f hstays hstep => pollRxWait_of_rx_error hstays hstep⟩
  · rw [pollIn, pollRxWait_autoBoot (autoBootArmed_iff.2 harmed) hdue, doHandoff_now]
  all_goals
    rintro rfl
    have hpull := rxWaitPull_of_stays hstays hstep
  · simp only [pollIn, pollRxWait, hpull]
  · simp only [pollIn, pollRxWait, hpull]; rfl
  · exact fun f hpacket => (pollRxWait_received hpull).trans (dispatch_unreadable hpacket)

/-! ### Where operations and polls stop (R43, R161, R221) -/

/-- A transmitting poll stops where its `tx_step` does. -/
theorem pollTransmit_of_fault {s : State} {f : Fault} (h : exec .opTxStep s = .fault f)
    (andThen : State → State) : pollTransmit andThen s = .fault f := by
  have hstep : txStep s = .error f := by
    cases hstep : txStep s with
    | error f' => rw [exec_txStep_of_error hstep] at h; cases h; rfl
    | ok answer => rw [exec_txStep_of_ok hstep] at h; cases h
  simp only [pollTransmit, hstep]

theorem pollErase_beyond {s : State} {r : Region} (h : s.cfg.sectors r < s.ctl.eraseIdx.toNat) :
    pollErase r s = .fault (.sectorRange r s.ctl.eraseIdx.toNat) := by
  simp only [pollErase, if_neg h.ne', if_neg h.le.not_gt]

/-- Settles O27. -/
theorem modelStops : Obligations.ModelStops := by
  refine ⟨fun s n h => exec_txBegin_of_error (txBegin_long h),
    fun s n hfits ⟨i, hi, hnone⟩ => exec_txBegin_of_error (txBegin_unwritten hfits hi hnone),
    fun s f h hs => ?_, fun s r hs h => ?_⟩
  · simp only [List.mem_cons, List.not_mem_nil, or_false] at hs
    rcases hs with hs | hs | hs | hs <;>
      exact (exec_ctlPoll hs).trans (pollTransmit_of_fault h _)
  · cases r <;> exact (exec_ctlPoll hs).trans (pollErase_beyond h)

end Sys2Proof.Machine
end
